-- ==== Sys2Proof/Word.lean ====
section
/-! DEFINITION. The word, byte and register-number types of the machine (00_scope.md R2). -/

namespace Sys2Proof

/-- A 16-bit word: register contents, addresses, instruction words (00_scope.md R2, 10_state.md R11). -/
abbrev Word := BitVec 16

/-- An 8-bit byte, the unit memory is addressed in (20_memory.md R30). -/
abbrev Byte := BitVec 8

/-- A register number, 0 to 15: the fields that hold one are 4 bits wide (10_state.md R10). -/
abbrev Reg := Fin 16

end Sys2Proof
end

