-- ==== Sys2Proof/Config.lean ====
section
/-! DEFINITION. The OPEN parameters of 00_scope.md section 4 as one record of plain data, and the free
values (draws). A state carries its record (`State.cfg`) and no step changes it, so a statement about every
state holds for every value of every parameter, as R6 asks (log 1). -/

namespace Sys2Proof

/-- `SP_LOC` (10_state.md R13): `SP` is a numbered register, or a register no field reaches. -/
inductive SpLoc where
  | reg (i : Reg)
  | separate
deriving DecidableEq, Repr

/-- `BYTE_ORDER` (20_memory.md R31). -/
inductive ByteOrder where
  | big
  | little
deriving DecidableEq, Repr

/-- `MISALIGNED` (20_memory.md R32): what a word access at an odd address does. -/
inductive Misaligned where
  | refuse
  | split
  | mask
deriving DecidableEq, Repr

/-- `BYTE_EXT` (30_encoding.md R61): how an 8-bit operand is widened to 16 bits. -/
inductive ByteExt where
  | zero
  | sign
deriving DecidableEq, Repr

/-- `MULDIV_SIGNED` (42_multiply_divide.md R116). -/
inductive MulDivSigned where
  | unsigned
  | signedTrunc
  | signedFloor
deriving DecidableEq, Repr

/-- `DIV_FAULT` (92_eei_decisions.md D17): a division by zero or a quotient that does not fit faults (the
default), or has a documented result. No such result is documented, so under `result` it is the free
value `Config.divResult` (log 12). -/
inductive DivFault where
  | fault
  | result
deriving DecidableEq, Repr

/-- `TRAP_IE` (60_exceptions.md R206): whether trap entry clears `IE`. -/
inductive TrapIe where
  | clear
  | keep
deriving DecidableEq, Repr

/-- `HALT_WAKE` (47_system.md R194): whether an interrupt restarts a halted CPU. -/
inductive HaltWake where
  | no
  | yes
deriving DecidableEq, Repr

/-- Where `VECTOR(c)` takes a cause's handler address from (60_exceptions.md R207): a fixed address, or
the word in a slot of memory (`MemRead(VT + 2*k(c), 2)`, with the slot's address already added up). -/
inductive Handler where
  | fixed (address : Word)
  | slot (address : Word)
deriving DecidableEq, Repr

/-- Which address trap entry saves for a reserved encoding: that of the encoding's first word, or the one
after that word. -/
inductive SavedPc where
  | this
  | following
deriving DecidableEq, Repr

/-- `ILLEGAL` (30_encoding.md R70, 92_eei_decisions.md D21): a reserved encoding is refused (the default), or
is a documented trap. No trap is documented; the one sequence the spec has is trap entry (60_exceptions.md
R206), so the parameter gives what that needs: the handler and which `pc` is saved (log 13). -/
inductive Illegal where
  | refuse
  | trap (h : Handler) (saved : SavedPc)
deriving DecidableEq, Repr

/-- One range of populated memory, from `first` to `last` inclusive (`MEM_MAP`, 20_memory.md R34, R35:
it may be given as two sets, readable and writable). -/
structure Region where
  first : Word
  last : Word
  readable : Bool
  writable : Bool
deriving DecidableEq, Repr

/-- `FLAG_LAYOUT` (10_state.md R17, 92_eei_decisions.md D24): any pair `flag_pack`, `flag_unpack` with the
round-trip law. The flags and `FLAG_REST` are 16 bits in all, so such a pair is a one-to-one map of them
onto the words: a bit position for each of `Z`, `C`, `S`, `V` (and `IE` where the word holds it), no two
the same, followed by `code`, a list of pairs of words to exchange, in order. Exchanges give every
one-to-one map of words (`exists_code`); `code = []` is the word with the bits where they are placed
(log 6). -/
structure FlagLayout where
  z : Fin 16
  c : Fin 16
  s : Fin 16
  v : Fin 16
  ie : Option (Fin 16)
  code : List (Word × Word)
  distinct : ([z, c, s, v] ++ ie.toList).Nodup
deriving DecidableEq, Repr

/-- The OPEN parameters (00_scope.md section 4, 92_eei_decisions.md "Open parameters, gathered"). -/
structure Config where
  /-- `FP_IDX` (10_state.md R12). -/
  fpIdx : Reg
  /-- `SP_LOC` (10_state.md R13). -/
  spLoc : SpLoc
  /-- `BYTE_ORDER` (20_memory.md R31). -/
  byteOrder : ByteOrder
  /-- `MISALIGNED` (20_memory.md R32). -/
  misaligned : Misaligned
  /-- `BYTE_EXT` (30_encoding.md R61). -/
  byteExt : ByteExt
  /-- `MULDIV_SIGNED` (42_multiply_divide.md R116). -/
  mulDivSigned : MulDivSigned
  /-- `DIV_FAULT` (92_eei_decisions.md D17). -/
  divFault : DivFault
  /-- `ILLEGAL` (30_encoding.md R70). -/
  illegal : Illegal
  /-- `FLAG_LAYOUT` (10_state.md R17). -/
  flagLayout : FlagLayout
  /-- `VECTOR(svc)` (60_exceptions.md R210). -/
  svcHandler : Handler
  /-- `CAUSES` (the numbers listed) and `VECTOR` of each of them (60_exceptions.md R202, R207). -/
  causes : List (Nat × Handler)
  /-- `TRAP_IE` (60_exceptions.md R206). -/
  trapIe : TrapIe
  /-- `HALT_WAKE` (47_system.md R194). -/
  haltWake : HaltWake
  /-- `RESET_PC` (70_reset_and_hazards.md R230). -/
  resetPc : Word
  /-- `MEM_MAP` (20_memory.md R35). -/
  memMap : List Region
deriving DecidableEq, Repr

/-- The parameter values `State.reset` carries (log 2, DESIGN CHOICE, unsafe for a claim about
`State.reset` alone): the defaults of 92_eei_decisions.md where it gives one, the illustrative setting of
95_test_vectors.md (`FP_IDX = 12`, `SP_LOC` = index 13, all memory mapped and writable) where it shows
one, and values of the model's own for the rest. -/
def Config.reference : Config where
  fpIdx := 12
  spLoc := .reg 13
  byteOrder := .big
  misaligned := .refuse
  byteExt := .zero
  mulDivSigned := .unsigned
  divFault := .fault
  illegal := .refuse
  flagLayout := ⟨0, 2, 1, 3, some 7, [], by decide⟩
  svcHandler := .fixed 0
  causes := []
  trapIe := .clear
  haltWake := .no
  resetPc := 0
  memMap := [⟨0x0000, 0xFFFF, true, true⟩]

/-- `any_1()` (00_scope.md R4): the `n`-th drawn bit. Free: nothing constrains it (log 5). -/
opaque Config.freeBit : Nat → Bool

/-- `any_16()` (00_scope.md R4): the `n`-th drawn word. Free: nothing constrains it (log 5). -/
opaque Config.freeWord : Nat → Word

/-- Which result of which division stands open under `DIV_FAULT = result`. -/
inductive DivOp where
  | div
  | mod
  | divlQuotient
  | divlRemainder
deriving DecidableEq, Repr

/-- The undocumented result of a division by zero or of one whose quotient does not fit, under
`DIV_FAULT = result`, as a function of the dividend and the divisor. Free (log 12). -/
opaque Config.divResult : DivOp → BitVec 32 → Word → Word

end Sys2Proof
end

