-- ==== Sys2Proof/Syntax.lean ====
section
/-! DEFINITION. The 46 instructions (30_encoding.md R66) and their operand forms (R52, R54 to R62). Each
row of spec/opcode_table.json is one constructor of `Instr` applied to one operand form (log 18). -/

namespace Sys2Proof

/-- The operand modes that name an address, and with it the modes of `ST` (30_encoding.md R63, R66).
Modes 0, 1, 3, 6, 7. -/
inductive AddrMode where
  /-- Mode 0, Direct (R54). -/
  | drct (dsp : Word)
  /-- Mode 1, Indexed (R55). -/
  | index (dsp : Word) (rx : Reg)
  /-- Mode 3, FP relative (R57). -/
  | fpRlt (d4 : BitVec 4)
  /-- Mode 6, Register indirect (R60). -/
  | indr (rx : Reg)
  /-- Mode 7, Byte register indirect (R61). -/
  | bIndr (rx : Reg)
deriving DecidableEq, Repr

/-- An operand in any of the eight modes: the five above, and Immediate, Register and 4-bit signed
immediate, which name no address. -/
inductive Operand where
  | mem (a : AddrMode)
  /-- Mode 2, Immediate (R56). -/
  | imm (w : Word)
  /-- Mode 4, Register (R58). -/
  | reg (rs : Reg)
  /-- Mode 5, 4-bit signed immediate (R59). -/
  | imm4 (i4 : BitVec 4)
deriving DecidableEq, Repr

/-- The modes of the jumps and `CALL`: 0, 1, 6 (44_jump_call.md R140, R156). -/
inductive JumpMode where
  | drct (dsp : Word)
  | index (dsp : Word) (rx : Reg)
  | indr (rx : Reg)
deriving DecidableEq, Repr

/-- The modes of `IN` and `OUT`: 0, 6, 7 (45_io.md R172). -/
inductive IoMode where
  | drct (dsp : Word)
  | indr (rx : Reg)
  | bIndr (rx : Reg)
deriving DecidableEq, Repr

/-- The 46 instructions, in the order of 30_encoding.md R66. -/
inductive Instr where
  | no
  | ld (rd : Reg) (ea : Operand)
  | ldFlag (rd : Reg)
  | st (rd : Reg) (ea : AddrMode)
  | add (rd : Reg) (ea : Operand)
  | sub (rd : Reg) (ea : Operand)
  | cmp (rd : Reg) (ea : Operand)
  | and (rd : Reg) (ea : Operand)
  | or (rd : Reg) (ea : Operand)
  | xor (rd : Reg) (ea : Operand)
  | adds (rd : Reg) (ea : Operand)
  | mul (rd : Reg) (ea : Operand)
  | div (rd : Reg) (ea : Operand)
  | mod (rd : Reg) (ea : Operand)
  | mull (rd : Reg) (ea : Operand)
  | divl (rd : Reg) (ea : Operand)
  | shla (rd : Reg) (ea : Operand)
  | shll (rd : Reg) (ea : Operand)
  | shra (rd : Reg) (ea : Operand)
  | shrl (rd : Reg) (ea : Operand)
  | jz (ea : JumpMode)
  | jc (ea : JumpMode)
  | jm (ea : JumpMode)
  | jo (ea : JumpMode)
  | jgt (ea : JumpMode)
  | jge (ea : JumpMode)
  | jle (ea : JumpMode)
  | jlt (ea : JumpMode)
  | jnz (ea : JumpMode)
  | jnc (ea : JumpMode)
  | jnm (ea : JumpMode)
  | jno (ea : JumpMode)
  | jhi (ea : JumpMode)
  | jls (ea : JumpMode)
  | jmp (ea : JumpMode)
  | call (ea : JumpMode)
  | inp (rd : Reg) (ea : IoMode)
  | out (rd : Reg) (ea : IoMode)
  | push (rd : Reg)
  | pop (rd : Reg)
  | ret
  | reti
  | ei
  | di
  | svc
  | halt
deriving DecidableEq, Repr

end Sys2Proof
end

