-- ==== Sys2Proof/WellFormed.lean ====
section
/-! DEFINITION. Which terms of `Instr` are instructions of the table. The operand types admit only the
modes of each instruction; the one condition left is the even `Rd` of `MULL` and `DIVL`. -/

namespace Sys2Proof

/-- The low register of a pair `(Rd+1, Rd)` has an even number (10_state.md R14, 42_multiply_divide.md R115). -/
def evenReg (rd : Reg) : Bool := rd.val % 2 == 0

/-- Well-formed instructions: `MULL` and `DIVL` name an even register (42_multiply_divide.md R115). -/
def Instr.wellFormed : Instr → Bool
  | .mull rd _ | .divl rd _ => evenReg rd
  | .no | .ld _ _ | .ldFlag _ | .st _ _ => true
  | .add _ _ | .sub _ _ | .cmp _ _ | .and _ _ | .or _ _ | .xor _ _ | .adds _ _ => true
  | .mul _ _ | .div _ _ | .mod _ _ => true
  | .shla _ _ | .shll _ _ | .shra _ _ | .shrl _ _ => true
  | .jz _ | .jc _ | .jm _ | .jo _ | .jgt _ | .jge _ | .jle _ | .jlt _ => true
  | .jnz _ | .jnc _ | .jnm _ | .jno _ | .jhi _ | .jls _ | .jmp _ | .call _ => true
  | .inp _ _ | .out _ _ | .push _ | .pop _ | .ret | .reti => true
  | .ei | .di | .svc | .halt => true

end Sys2Proof
end

