-- ==== Sys2Proof/Decode.lean ====
section
/-! DEFINITION. The decoder of 30_encoding.md R50 to R72, total on any bytes and rejecting by name, and
the encoder written from the same tables. -/

namespace Sys2Proof

/-! ### Words and bytes -/

/-- The two bytes of a word, the one at the lower address first (20_memory.md R31). -/
def wordBytes (o : ByteOrder) (w : Word) : Byte × Byte :=
  match o with
  | .big => (w.extractLsb' 8 8, w.extractLsb' 0 8)
  | .little => (w.extractLsb' 0 8, w.extractLsb' 8 8)

/-- The word whose bytes are `b0` at the lower and `b1` at the higher address (20_memory.md R31). -/
def bytesWord (o : ByteOrder) (b0 b1 : Byte) : Word :=
  match o with
  | .big => b0 ++ b1
  | .little => b1 ++ b0

/-! ### Fields of the first word (30_encoding.md R51) -/

/-- `OP`, bits 15..8. -/
def opField (w : Word) : BitVec 8 := w.extractLsb' 8 8

/-- `Rd`, bits 7..4. -/
def rdField (w : Word) : BitVec 4 := w.extractLsb' 4 4

/-- `Rx`, bits 3..0. -/
def rxField (w : Word) : BitVec 4 := w.extractLsb' 0 4

/-- The register a 4-bit field names (10_state.md R10). -/
def regOf (f : BitVec 4) : Reg := f.toFin

/-- The 4-bit field that names a register. -/
def fieldOf (r : Reg) : BitVec 4 := BitVec.ofFin r

/-! ### Decoding -/

/-- Why a sequence of bytes is no instruction. All but `truncated` are the reserved encodings of
30_encoding.md R69 and R68. -/
inductive Reject where
  /-- An `OP` value no row uses (R69). -/
  | reservedOp
  /-- A field printed `0h` holds another value (R68). -/
  | reservedField
  /-- Jump condition Dh (R67, R69). -/
  | reservedCondition
  /-- `MULL` or `DIVL` with an odd `Rd` (R69, 42_multiply_divide.md R115). -/
  | oddPair
  /-- The bytes end before the instruction does; no fetch from memory meets this. -/
  | truncated
deriving DecidableEq, Repr

/-- What the first word settles: a whole instruction, or one that waits for its second word
(30_encoding.md R50, R53). -/
inductive Decoded where
  | one (i : Instr)
  | two (f : Word → Instr)

/-- `d`, if the field `f` holds the zero it is printed with (30_encoding.md R68). -/
def ifZero (f : BitVec 4) (d : Except Reject Decoded) : Except Reject Decoded :=
  if f = 0 then d else .error .reservedField

/-- An operand in any of the eight modes (30_encoding.md R54 to R61). -/
def decodeOperand (m : Nat) (rx : BitVec 4) (k : Operand → Instr) : Except Reject Decoded :=
  match m with
  | 0 => ifZero rx (.ok (.two fun w => k (.mem (.drct w))))
  | 1 => .ok (.two fun w => k (.mem (.index w (regOf rx))))
  | 2 => ifZero rx (.ok (.two fun w => k (.imm w)))
  | 3 => .ok (.one (k (.mem (.fpRlt rx))))
  | 4 => .ok (.one (k (.reg (regOf rx))))
  | 5 => .ok (.one (k (.imm4 rx)))
  | 6 => .ok (.one (k (.mem (.indr (regOf rx)))))
  | 7 => .ok (.one (k (.mem (.bIndr (regOf rx)))))
  | _ => .error .reservedOp

/-- The modes of `ST`: 0, 1, 3, 6, 7 (40_nop_load_store.md R83). -/
def decodeAddr (m : Nat) (rx : BitVec 4) (k : AddrMode → Instr) : Except Reject Decoded :=
  match m with
  | 0 => ifZero rx (.ok (.two fun w => k (.drct w)))
  | 1 => .ok (.two fun w => k (.index w (regOf rx)))
  | 3 => .ok (.one (k (.fpRlt rx)))
  | 6 => .ok (.one (k (.indr (regOf rx))))
  | 7 => .ok (.one (k (.bIndr (regOf rx))))
  | _ => .error .reservedOp

/-- The modes of the jumps and `CALL`: 0, 1, 6 (44_jump_call.md R140, R156). -/
def decodeJump (m : Nat) (rx : BitVec 4) (k : JumpMode → Instr) : Except Reject Decoded :=
  match m with
  | 0 => ifZero rx (.ok (.two fun w => k (.drct w)))
  | 1 => .ok (.two fun w => k (.index w (regOf rx)))
  | 6 => .ok (.one (k (.indr (regOf rx))))
  | _ => .error .reservedOp

/-- The modes of `IN` and `OUT`: 0, 6, 7 (45_io.md R172). -/
def decodeIo (m : Nat) (rx : BitVec 4) (k : IoMode → Instr) : Except Reject Decoded :=
  match m with
  | 0 => ifZero rx (.ok (.two fun w => k (.drct w)))
  | 6 => .ok (.one (k (.indr (regOf rx))))
  | 7 => .ok (.one (k (.bIndr (regOf rx))))
  | _ => .error .reservedOp

/-- The jump with condition number `cc` (30_encoding.md R67). -/
def jumpOf (cc : Nat) : Option (JumpMode → Instr) :=
  match cc with
  | 0x0 => some .jz
  | 0x1 => some .jc
  | 0x2 => some .jm
  | 0x3 => some .jo
  | 0x4 => some .jgt
  | 0x5 => some .jge
  | 0x6 => some .jle
  | 0x7 => some .jlt
  | 0x8 => some .jnz
  | 0x9 => some .jnc
  | 0xA => some .jnm
  | 0xB => some .jno
  | 0xC => some .jhi
  | 0xE => some .jls
  | 0xF => some .jmp
  | _ => none

/-- A jump: the condition number stands in the `Rd` field (44_jump_call.md R140). -/
def decodeCondJump (m : Nat) (rd rx : BitVec 4) : Except Reject Decoded :=
  match jumpOf rd.toNat with
  | some k => decodeJump m rx k
  | none => .error .reservedCondition

/-- `MULL` and `DIVL`: an even `Rd` only (42_multiply_divide.md R115). -/
def decodePair (m : Nat) (rd rx : BitVec 4) (k : Reg → Operand → Instr) : Except Reject Decoded :=
  if evenReg (regOf rd) then decodeOperand m rx (k (regOf rd)) else .error .oddPair

/-- The form `OP 0h 0h` (30_encoding.md R62). -/
def decodeBare (rd rx : BitVec 4) (i : Instr) : Except Reject Decoded :=
  ifZero rd (ifZero rx (.ok (.one i)))

/-- The opcode map of 30_encoding.md R66: `g` is `OP[7:3]` and `m` is `OP[2:0]` (R52). -/
def decodeOp (g m : Nat) (rd rx : BitVec 4) : Except Reject Decoded :=
  match g with
  | 0x00 => if m = 0 then decodeBare rd rx .no else .error .reservedOp
  | 0x01 => decodeOperand m rx (.ld (regOf rd))
  | 0x02 => if m = 4 then ifZero rx (.ok (.one (.ldFlag (regOf rd)))) else decodeAddr m rx (.st (regOf rd))
  | 0x03 => decodeOperand m rx (.add (regOf rd))
  | 0x04 => decodeOperand m rx (.sub (regOf rd))
  | 0x05 => decodeOperand m rx (.cmp (regOf rd))
  | 0x06 => decodeOperand m rx (.and (regOf rd))
  | 0x07 => decodeOperand m rx (.or (regOf rd))
  | 0x08 => decodeOperand m rx (.xor (regOf rd))
  | 0x09 => decodeOperand m rx (.adds (regOf rd))
  | 0x0A => decodeOperand m rx (.mul (regOf rd))
  | 0x0B => decodeOperand m rx (.div (regOf rd))
  | 0x0C => decodeOperand m rx (.mod (regOf rd))
  | 0x0D => decodePair m rd rx .mull
  | 0x0E => decodePair m rd rx .divl
  | 0x10 => decodeOperand m rx (.shla (regOf rd))
  | 0x11 => decodeOperand m rx (.shll (regOf rd))
  | 0x12 => decodeOperand m rx (.shra (regOf rd))
  | 0x13 => decodeOperand m rx (.shrl (regOf rd))
  | 0x14 => decodeCondJump m rd rx
  | 0x15 => match decodeJump m rx .call with
    | .ok d => ifZero rd (.ok d)
    | .error e => .error e
  | 0x16 => decodeIo m rx (.inp (regOf rd))
  | 0x17 => decodeIo m rx (.out (regOf rd))
  | 0x18 =>
    if m = 0 then ifZero rx (.ok (.one (.push (regOf rd))))
    else if m = 4 then ifZero rx (.ok (.one (.pop (regOf rd))))
    else .error .reservedOp
  | 0x1A =>
    if m = 0 then decodeBare rd rx .ret
    else if m = 4 then decodeBare rd rx .reti
    else .error .reservedOp
  | 0x1C =>
    if m = 0 then decodeBare rd rx .ei
    else if m = 4 then decodeBare rd rx .di
    else .error .reservedOp
  | 0x1E => if m = 0 then decodeBare rd rx .svc else .error .reservedOp
  | 0x1F => if m = 7 then decodeBare rd rx .halt else .error .reservedOp
  | _ => .error .reservedOp

/-- What a first word says: the instruction and whether it has a second word (30_encoding.md R53). -/
def decodeFirst (w : Word) : Except Reject Decoded :=
  decodeOp ((opField w).toNat / 8) ((opField w).toNat % 8) (rdField w) (rxField w)

/-- Decode bytes as they lie in memory, answering the instruction and the bytes after it. -/
def decodeBytes (o : ByteOrder) : List Byte → Except Reject (Instr × List Byte)
  | b0 :: b1 :: rest =>
    match decodeFirst (bytesWord o b0 b1) with
    | .error e => .error e
    | .ok (.one i) => .ok (i, rest)
    | .ok (.two f) =>
      match rest with
      | b2 :: b3 :: rest' => .ok (f (bytesWord o b2 b3), rest')
      | _ => .error .truncated
  | _ => .error .truncated

/-! ### Encoding -/

/-- A first word from its `OP`, `Rd` and `Rx` fields (30_encoding.md R51). -/
def firstWord (op : Nat) (rd rx : BitVec 4) : Word := BitVec.ofNat 8 op ++ rd ++ rx

/-- An address mode on the base `OP` value `base` (30_encoding.md R54, R55, R57, R60, R61). -/
def encodeAddr (base : Nat) (rd : BitVec 4) : AddrMode → List Word
  | .drct dsp => [firstWord (base + 0) rd 0, dsp]
  | .index dsp rx => [firstWord (base + 1) rd (fieldOf rx), dsp]
  | .fpRlt d4 => [firstWord (base + 3) rd d4]
  | .indr rx => [firstWord (base + 6) rd (fieldOf rx)]
  | .bIndr rx => [firstWord (base + 7) rd (fieldOf rx)]

/-- An operand on the base `OP` value `base` (30_encoding.md R54 to R61). -/
def encodeOperand (base : Nat) (rd : BitVec 4) : Operand → List Word
  | .mem a => encodeAddr base rd a
  | .imm w => [firstWord (base + 2) rd 0, w]
  | .reg rs => [firstWord (base + 4) rd (fieldOf rs)]
  | .imm4 i4 => [firstWord (base + 5) rd i4]

/-- A jump or call on the base `OP` value `base`; `rd` is the condition number (44_jump_call.md R140). -/
def encodeJump (base : Nat) (rd : BitVec 4) : JumpMode → List Word
  | .drct dsp => [firstWord (base + 0) rd 0, dsp]
  | .index dsp rx => [firstWord (base + 1) rd (fieldOf rx), dsp]
  | .indr rx => [firstWord (base + 6) rd (fieldOf rx)]

/-- `IN` and `OUT` on the base `OP` value `base` (45_io.md R172). -/
def encodeIo (base : Nat) (rd : BitVec 4) : IoMode → List Word
  | .drct dsp => [firstWord (base + 0) rd 0, dsp]
  | .indr rx => [firstWord (base + 6) rd (fieldOf rx)]
  | .bIndr rx => [firstWord (base + 7) rd (fieldOf rx)]

/-- The words of an instruction (30_encoding.md R66, R67). -/
def encode : Instr → List Word
  | .no => [firstWord 0x00 0 0]
  | .ld rd ea => encodeOperand 0x08 (fieldOf rd) ea
  | .ldFlag rd => [firstWord 0x14 (fieldOf rd) 0]
  | .st rd ea => encodeAddr 0x10 (fieldOf rd) ea
  | .add rd ea => encodeOperand 0x18 (fieldOf rd) ea
  | .sub rd ea => encodeOperand 0x20 (fieldOf rd) ea
  | .cmp rd ea => encodeOperand 0x28 (fieldOf rd) ea
  | .and rd ea => encodeOperand 0x30 (fieldOf rd) ea
  | .or rd ea => encodeOperand 0x38 (fieldOf rd) ea
  | .xor rd ea => encodeOperand 0x40 (fieldOf rd) ea
  | .adds rd ea => encodeOperand 0x48 (fieldOf rd) ea
  | .mul rd ea => encodeOperand 0x50 (fieldOf rd) ea
  | .div rd ea => encodeOperand 0x58 (fieldOf rd) ea
  | .mod rd ea => encodeOperand 0x60 (fieldOf rd) ea
  | .mull rd ea => encodeOperand 0x68 (fieldOf rd) ea
  | .divl rd ea => encodeOperand 0x70 (fieldOf rd) ea
  | .shla rd ea => encodeOperand 0x80 (fieldOf rd) ea
  | .shll rd ea => encodeOperand 0x88 (fieldOf rd) ea
  | .shra rd ea => encodeOperand 0x90 (fieldOf rd) ea
  | .shrl rd ea => encodeOperand 0x98 (fieldOf rd) ea
  | .jz ea => encodeJump 0xA0 0x0 ea
  | .jc ea => encodeJump 0xA0 0x1 ea
  | .jm ea => encodeJump 0xA0 0x2 ea
  | .jo ea => encodeJump 0xA0 0x3 ea
  | .jgt ea => encodeJump 0xA0 0x4 ea
  | .jge ea => encodeJump 0xA0 0x5 ea
  | .jle ea => encodeJump 0xA0 0x6 ea
  | .jlt ea => encodeJump 0xA0 0x7 ea
  | .jnz ea => encodeJump 0xA0 0x8 ea
  | .jnc ea => encodeJump 0xA0 0x9 ea
  | .jnm ea => encodeJump 0xA0 0xA ea
  | .jno ea => encodeJump 0xA0 0xB ea
  | .jhi ea => encodeJump 0xA0 0xC ea
  | .jls ea => encodeJump 0xA0 0xE ea
  | .jmp ea => encodeJump 0xA0 0xF ea
  | .call ea => encodeJump 0xA8 0 ea
  | .inp rd ea => encodeIo 0xB0 (fieldOf rd) ea
  | .out rd ea => encodeIo 0xB8 (fieldOf rd) ea
  | .push rd => [firstWord 0xC0 (fieldOf rd) 0]
  | .pop rd => [firstWord 0xC4 (fieldOf rd) 0]
  | .ret => [firstWord 0xD0 0 0]
  | .reti => [firstWord 0xD4 0 0]
  | .ei => [firstWord 0xE0 0 0]
  | .di => [firstWord 0xE4 0 0]
  | .svc => [firstWord 0xF0 0 0]
  | .halt => [firstWord 0xFF 0 0]

/-- The length of an instruction in words (30_encoding.md R50, R53): two in the modes Direct, Indexed and
Immediate, else one. -/
def Operand.words : Operand → Nat
  | .mem (.drct _) | .mem (.index _ _) | .imm _ => 2
  | .mem (.fpRlt _) | .mem (.indr _) | .mem (.bIndr _) | .reg _ | .imm4 _ => 1

/-- The length of a jump or call in words. -/
def JumpMode.words : JumpMode → Nat
  | .drct _ | .index _ _ => 2
  | .indr _ => 1

/-- The length of an `IN` or `OUT` in words. -/
def IoMode.words : IoMode → Nat
  | .drct _ => 2
  | .indr _ | .bIndr _ => 1

/-- The length of an instruction in words (30_encoding.md R53). -/
def Instr.words : Instr → Nat
  | .ld _ ea | .add _ ea | .sub _ ea | .cmp _ ea | .and _ ea | .or _ ea | .xor _ ea | .adds _ ea => ea.words
  | .mul _ ea | .div _ ea | .mod _ ea | .mull _ ea | .divl _ ea => ea.words
  | .shla _ ea | .shll _ ea | .shra _ ea | .shrl _ ea => ea.words
  | .st _ a => (Operand.mem a).words
  | .jz ea | .jc ea | .jm ea | .jo ea | .jgt ea | .jge ea | .jle ea | .jlt ea => ea.words
  | .jnz ea | .jnc ea | .jnm ea | .jno ea | .jhi ea | .jls ea | .jmp ea | .call ea => ea.words
  | .inp _ ea | .out _ ea => ea.words
  | .no | .ldFlag _ | .push _ | .pop _ | .ret | .reti | .ei | .di | .svc | .halt => 1

/-- Words as bytes in memory, lowest address first (20_memory.md R31, R36). -/
def layWords (o : ByteOrder) : List Word → List Byte
  | [] => []
  | w :: ws => (wordBytes o w).1 :: (wordBytes o w).2 :: layWords o ws

/-- The bytes of an instruction, lowest address first. -/
def encodeBytes (o : ByteOrder) (i : Instr) : List Byte := layWords o (encode i)

/-! ### The opcode table's numbering -/

/-- The two words of a table row's bits: bit 0 of `w` is the least significant bit of the first word, and
every bit at or above `nbits` is 0. -/
def tableWords (nbits w : Nat) : Word × Word :=
  (BitVec.ofNat 16 (w % 2 ^ nbits), BitVec.ofNat 16 (w % 2 ^ nbits / 2 ^ 16))

/-- The instruction the decoder reads from a table row's bits, laid out as bytes in memory. Either byte
order gives the same answer; the words are laid out in the order of `Config.reference`. -/
def decodeTableWord (nbits w : Nat) : Option Instr :=
  let o := Config.reference.byteOrder
  match decodeBytes o (layWords o [(tableWords nbits w).1, (tableWords nbits w).2]) with
  | .ok (i, _) => some i
  | .error _ => none

end Sys2Proof
end

