-- ==== Sys2Proof/Machine/State.lean ====
section
/-! DEFINITION. The machine's state as plain data (10_state.md), the reasons a step can stop, and the state
after reset. -/

namespace Sys2Proof.Machine

/-- What stops the machine with a fault: the `Unspecified` reasons that 93_implementation_defined.md
treats as `fault` (log 14). Safe: the machine stops where the spec gives no value. -/
inductive Fault where
  /-- An access outside `MEM_MAP`, or a write to a location that is not writable (20_memory.md R33, R34;
  U3). Raised by every memory access: fetch, operands, stack, a vector slot. Safe. -/
  | unmapped
  /-- `DIV`, `MOD`, `DIVL` with operand 0 under `DIV_FAULT = fault` (42_multiply_divide.md R111, R112,
  R114; U5). Safe. -/
  | divideByZero
  /-- `DIV`, `MOD`, `DIVL` whose quotient does not fit in 16 bits, under `DIV_FAULT = fault`
  (42_multiply_divide.md R111, R112, R114; U6). Safe. -/
  | divideOverflow
deriving DecidableEq, Repr

/-- What the model refuses to give a meaning: the `Unspecified` reasons that
93_implementation_defined.md treats as `refuse` (log 14), and an instruction not modelled. -/
inductive Refusal where
  /-- The instruction named has no meaning in the model; only exec's own arms answer it. Safe. -/
  | notModelled (mnemonic : String)
  /-- A reserved encoding (30_encoding.md R68 to R70; U1, U2). Raised by the fetch, where a step under
  `ILLEGAL = trap` takes the trap instead, and by `MULL` and `DIVL` with an odd `Rd`
  (42_multiply_divide.md R113 to R115). Safe. -/
  | reservedEncoding
  /-- A word access at an odd address under `MISALIGNED = refuse` (20_memory.md R32, R37; U4). Raised by
  fetch, word operands, the stack and a vector slot. Safe. -/
  | misaligned
  /-- `PUSH` or `POP` of the register that is `SP` (46_stack_return.md R180, R181; U7). Safe. -/
  | spOperand
deriving DecidableEq, Repr

/-- The condition flags (10_state.md R17). -/
structure Flags where
  z : Bool
  c : Bool
  s : Bool
  v : Bool
deriving DecidableEq, Repr

/-- A value that crosses the I/O boundary: one byte or one word (20_memory.md R41). -/
inductive IoValue where
  | byte (b : Byte)
  | word (w : Word)
deriving DecidableEq, Repr

/-- A recorded event of the I/O space: the address and the value with its size (20_memory.md R41). -/
inductive IoEvent where
  | input (address : Word) (value : IoValue)
  | output (address : Word) (value : IoValue)
deriving DecidableEq, Repr

/-- Memory: the bytes that differ from `unlistedByte`, addresses strictly rising (20_memory.md R30). -/
abbrev Memory := List Host.Cell

/-- What a byte that is not listed reads as. The spec gives memory no value at reset (10_state.md R25);
DESIGN CHOICE, unsafe (log 4). -/
def unlistedByte : Byte := 0

/-- The canonical form: addresses strictly rising and inside the 16-bit space, no entry that equals what
an unlisted address reads as. -/
def Memory.wf (m : Memory) : Bool :=
  decide (m.Pairwise fun x y => x.1 < y.1) &&
    m.all fun x => decide (x.1 < 65536) && decide (x.2 ≠ unlistedByte)

/-- The whole state. `regs` to `mem` are the elements of 10_state.md section 1; `requests` to `draws` are
the environment's inputs and the model's own bookkeeping (log 5, 8, 9); `cfg` holds the OPEN
parameters, which no step changes (log 1). -/
structure State where
  /-- `x[0]`..`x[15]` (10_state.md R10, R11). -/
  regs : Vector Word 16
  /-- `SP` where it is a register of its own (10_state.md R13); unused where `SP` is a numbered one. -/
  spOwn : Word
  /-- The program counter (10_state.md R16). -/
  pc : Word
  /-- `Z`, `C`, `S`, `V` (10_state.md R17). -/
  flags : Flags
  /-- `IE` (10_state.md R19). -/
  ie : Bool
  /-- `FLAG_REST` (10_state.md R17): the bits of the `FLAG` word that are no named flag, at their places;
  the named bits are 0 (log 7). -/
  flagRest : Word
  /-- `halted` (10_state.md R26). -/
  halted : Bool
  /-- `M` (20_memory.md R30). -/
  mem : Memory
  /-- What the environment presents at the coming instruction boundaries: a cause number or nothing
  (60_exceptions.md R202); nothing after the list's end (log 9). -/
  requests : List (Option Nat)
  /-- What the environment answers to the coming `IN`s (20_memory.md R41); free values after the list's
  end (log 8). -/
  ioIn : List Word
  /-- The I/O events so far, oldest first (20_memory.md R41). -/
  ioLog : List IoEvent
  /-- How many draws were made (00_scope.md R4): the index of the next one (log 5). -/
  draws : Nat
  /-- The OPEN parameters (00_scope.md R6). -/
  cfg : Config
deriving DecidableEq, Repr

/-- The state after reset for a given setting of the parameters (70_reset_and_hazards.md R230): `pc` is
`RESET_PC` and `halted` is false. The spec gives every other element no value; zero is the model's
choice (log 3, log 4: DESIGN CHOICE, unsafe). -/
def State.resetOf (c : Config) : State where
  regs := Vector.replicate 16 0
  spOwn := 0
  pc := c.resetPc
  flags := ⟨false, false, false, false⟩
  ie := false
  flagRest := 0
  halted := false
  mem := []
  requests := []
  ioIn := []
  ioLog := []
  draws := 0
  cfg := c

/-- The state after reset, under the parameter values of `Config.reference` (log 2). -/
def State.reset : State := State.resetOf Config.reference

end Sys2Proof.Machine
end

