-- ==== Sys2Proof/Machine/Flags.lean ====
section
/-! DEFINITION. The flag computations (10_state.md R17, R18, R20; 41_arithmetic_logic.md R97) and the
`FLAG` word (10_state.md R17). -/

namespace Sys2Proof.Machine

/-! ### Sixteen-bit addition and subtraction with flags (41_arithmetic_logic.md R97) -/

/-- `add16`'s result. -/
def add16 (a b : Word) : Word := a + b

/-- `add16`'s flags: `C` is the carry out of bit 15, `V` the signed overflow. -/
def add16Flags (a b : Word) : Flags where
  z := a + b == 0#16
  c := decide (2 ^ 16 ≤ a.toNat + b.toNat)
  s := (a + b).msb
  v := a.msb == b.msb && (a + b).msb != a.msb

/-- `sub16`'s result. -/
def sub16 (a b : Word) : Word := a - b

/-- `sub16`'s flags: `C` is the borrow, `V` the signed overflow. -/
def sub16Flags (a b : Word) : Flags where
  z := a - b == 0#16
  c := decide (a.toNat < b.toNat)
  s := (a - b).msb
  v := a.msb != b.msb && (a - b).msb != a.msb

/-! ### Flags with draws -/

/-- `s` with the flags `f`. -/
def State.setFlags (s : State) (f : Flags) : State := { s with flags := f }

/-- `Z` and `S` from the result `r`, `C` and `V` drawn (41_arithmetic_logic.md R93 to R96,
43_shift.md R130 to R133). -/
def State.setResultFlags (s : State) (r : Word) : State :=
  { s with
    flags := ⟨r == 0#16, Config.freeBit s.draws, r.msb, Config.freeBit (s.draws + 1)⟩
    draws := s.draws + 2 }

/-- All four flags drawn (42_multiply_divide.md R110 to R114, 43_shift.md R134), in the order
`Z`, `S`, `C`, `V` of the rules' pseudocode. -/
def State.drawFlags (s : State) : State :=
  { s with
    flags := ⟨Config.freeBit s.draws, Config.freeBit (s.draws + 2), Config.freeBit (s.draws + 1),
      Config.freeBit (s.draws + 3)⟩
    draws := s.draws + 4 }

/-! ### The `FLAG` word (10_state.md R17) -/

/-- `w` with bit `i` set to `b`. -/
def setBit (w : Word) (i : Fin 16) (b : Bool) : Word :=
  if b then w ||| BitVec.twoPow 16 i else w &&& ~~~(BitVec.twoPow 16 i)

/-- `w` with every bit of a named flag cleared: the part of the word that is `FLAG_REST`. -/
def restOf (l : FlagLayout) (w : Word) : Word :=
  let w' := setBit (setBit (setBit (setBit w l.z false) l.c false) l.s false) l.v false
  match l.ie with
  | some i => setBit w' i false
  | none => w'

/-- The word with each flag at its bit and `FLAG_REST` in the others; `IE` is ignored where the layout does
not hold it (10_state.md R19). -/
def placeFlags (l : FlagLayout) (f : Flags) (ie : Bool) (rest : Word) : Word :=
  let w := setBit (setBit (setBit (setBit rest l.z f.z) l.c f.c) l.s f.s) l.v f.v
  match l.ie with
  | some i => setBit w i ie
  | none => w

/-- `w` with the two words of `p` exchanged. -/
def swapWord (p : Word × Word) (w : Word) : Word := if w = p.1 then p.2 else if w = p.2 then p.1 else w

/-- The `FLAG` word of the word with the bits as placed. -/
def encodeFlag (l : FlagLayout) (w : Word) : Word := l.code.foldl (fun v p => swapWord p v) w

/-- The word with the bits as placed, of a `FLAG` word. -/
def decodeFlag (l : FlagLayout) (w : Word) : Word := l.code.foldr swapWord w

/-- `flag_pack`. -/
def flagPack (l : FlagLayout) (f : Flags) (ie : Bool) (rest : Word) : Word :=
  encodeFlag l (placeFlags l f ie rest)

/-- The flags `flag_unpack` reads from a word. -/
def unpackFlags (l : FlagLayout) (w : Word) : Flags where
  z := (decodeFlag l w).getLsbD l.z
  c := (decodeFlag l w).getLsbD l.c
  s := (decodeFlag l w).getLsbD l.s
  v := (decodeFlag l w).getLsbD l.v

/-- The `IE` that `flag_unpack` reads from a word; `old` where the layout does not hold `IE`. -/
def unpackIe (l : FlagLayout) (w : Word) (old : Bool) : Bool :=
  match l.ie with
  | some i => (decodeFlag l w).getLsbD i
  | none => old

/-- The `FLAG_REST` that `flag_unpack` reads from a word. -/
def unpackRest (l : FlagLayout) (w : Word) : Word := restOf l (decodeFlag l w)

/-- `FLAG` as one word (10_state.md R17). -/
def State.flagWord (s : State) : Word := flagPack s.cfg.flagLayout s.flags s.ie s.flagRest

/-- `FLAG <- w` (46_stack_return.md R183): all flags and `FLAG_REST`, and `IE` where the layout holds it. -/
def State.setFlagWord (s : State) (w : Word) : State :=
  { s with
    flags := unpackFlags s.cfg.flagLayout w
    ie := unpackIe s.cfg.flagLayout w s.ie
    flagRest := unpackRest s.cfg.flagLayout w }

end Sys2Proof.Machine
end

