-- ==== Sys2Proof/Machine/Ops.lean ====
section
/-! DEFINITION. The named operations over registers, memory, the I/O space and the stack, trap entry and
the return from it. -/

namespace Sys2Proof.Machine

/-- What an operation answers: a value, a fault or a refusal. -/
abbrev Res (α : Type) := Host.Outcome α Fault Refusal

/-- `x`, then `f` on its value; a stop of `x` is the stop of the whole (60_exceptions.md R200: a raise
anywhere abandons the step). -/
def andThen {α β : Type} (x : Res α) (f : α → Res β) : Res β :=
  match x with
  | .next a => f a
  | .fault r => .fault r
  | .refused r => .refused r

/-! ### Registers (10_state.md R10 to R15) -/

/-- `x[i]`. -/
def State.reg (s : State) (i : Reg) : Word := s.regs[i]

/-- `x[i] <- v`. -/
def State.setReg (s : State) (i : Reg) (v : Word) : State := { s with regs := s.regs.set i v }

/-- `FP` (10_state.md R12). -/
def State.fp (s : State) : Word := s.reg s.cfg.fpIdx

/-- `SP` (10_state.md R13). -/
def State.sp (s : State) : Word :=
  match s.cfg.spLoc with
  | .reg i => s.reg i
  | .separate => s.spOwn

/-- `SP <- v` (10_state.md R13). -/
def State.setSp (s : State) (v : Word) : State :=
  match s.cfg.spLoc with
  | .reg i => s.setReg i v
  | .separate => { s with spOwn := v }

/-- `pc <- v`. -/
def State.setPc (s : State) (v : Word) : State := { s with pc := v }

/-- `IE <- b`. -/
def State.setIe (s : State) (b : Bool) : State := { s with ie := b }

/-- `halted <- b`. -/
def State.setHalted (s : State) (b : Bool) : State := { s with halted := b }

/-- `s` with the memory `m`. -/
def State.setMem (s : State) (m : Memory) : State := { s with mem := m }

/-- `s` after one more draw. -/
def State.useDraw (s : State) : State := { s with draws := s.draws + 1 }

/-! ### Bytes of memory -/

/-- The byte at address `a`. -/
def memGet : Memory → Nat → Byte
  | [], _ => unlistedByte
  | (k, b) :: m, a => if k = a then b else memGet m a

/-- `(a, v)` in front of `m`, unless `v` is what an unlisted address reads as. -/
def memCons (a : Nat) (v : Byte) (m : Memory) : Memory :=
  if v = unlistedByte then m else (a, v) :: m

/-- `m` with the byte at `a` set to `v`, in the canonical form. -/
def memSet : Memory → Nat → Byte → Memory
  | [], a, v => memCons a v []
  | (k, b) :: m, a, v =>
    if a < k then memCons a v ((k, b) :: m)
    else if a = k then memCons a v m
    else (k, b) :: memSet m a v

/-! ### Memory accesses (20_memory.md R30 to R35) -/

/-- The region holds the address. -/
def Region.holds (r : Region) (a : Word) : Bool :=
  decide (r.first.toNat ≤ a.toNat) && decide (a.toNat ≤ r.last.toNat)

/-- `a` is in the readable set of `MEM_MAP` (20_memory.md R35). -/
def readable (c : Config) (a : Word) : Bool := c.memMap.any fun r => r.readable && Region.holds r a

/-- `a` is in the writable set of `MEM_MAP` (20_memory.md R34, R35). -/
def writable (c : Config) (a : Word) : Bool := c.memMap.any fun r => r.writable && Region.holds r a

/-- `MISALIGNED` lets a word access at `a` go on (20_memory.md R32). -/
def alignedFor (c : Config) (a : Word) : Bool :=
  match c.misaligned with
  | .refuse => !a.getLsbD 0
  | .split => true
  | .mask => true

/-- The address of the first byte of a word access at `a`: bit 0 is ignored under `MISALIGNED = mask`
(20_memory.md R32). The second byte is at the next address, modulo 2^16. -/
def firstByte (c : Config) (a : Word) : Word :=
  match c.misaligned with
  | .refuse => a
  | .split => a
  | .mask => a &&& 0xFFFE#16

/-- The word at `a`, in `BYTE_ORDER` (20_memory.md R31, R33); no check. -/
def loadWord (c : Config) (m : Memory) (a : Word) : Word :=
  bytesWord c.byteOrder (memGet m (firstByte c a).toNat) (memGet m (firstByte c a + 1#16).toNat)

/-- `m` with the word at `a` set to `v`, in `BYTE_ORDER` (20_memory.md R31, R34); no check. -/
def storeWord (c : Config) (m : Memory) (a v : Word) : Memory :=
  memSet (memSet m (firstByte c a).toNat (wordBytes c.byteOrder v).1) (firstByte c a + 1#16).toNat
    (wordBytes c.byteOrder v).2

/-- Both bytes of the word at `a` are readable. -/
def wordReadable (c : Config) (a : Word) : Bool :=
  readable c (firstByte c a) && readable c (firstByte c a + 1#16)

/-- Both bytes of the word at `a` are writable. -/
def wordWritable (c : Config) (a : Word) : Bool :=
  writable c (firstByte c a) && writable c (firstByte c a + 1#16)

/-- `MemRead(a, 1)` (20_memory.md R33). -/
def readByte (s : State) (a : Word) : Res Byte :=
  if readable s.cfg a then .next (memGet s.mem a.toNat) else .fault .unmapped

/-- `MemRead(a, 2)` (20_memory.md R33): alignment before mapping. -/
def readWord (s : State) (a : Word) : Res Word :=
  if alignedFor s.cfg a then
    if wordReadable s.cfg a then .next (loadWord s.cfg s.mem a) else .fault .unmapped
  else .refused .misaligned

/-- `MemWrite(a, 1, v)` (20_memory.md R34). -/
def writeByte (s : State) (a : Word) (v : Byte) : Res State :=
  if writable s.cfg a then .next (s.setMem (memSet s.mem a.toNat v)) else .fault .unmapped

/-- `MemWrite(a, 2, v)` (20_memory.md R34): both bytes are checked before either is written. -/
def writeWord (s : State) (a v : Word) : Res State :=
  if alignedFor s.cfg a then
    if wordWritable s.cfg a then .next (s.setMem (storeWord s.cfg s.mem a v)) else .fault .unmapped
  else .refused .misaligned

/-! ### The I/O space (20_memory.md R41) -/

/-- The environment's answer to the next `IoRead`: the next listed one, else a draw (log 8). -/
def State.ioAnswer (s : State) : Word :=
  match s.ioIn with
  | v :: _ => v
  | [] => Config.freeWord s.draws

/-- `s` after the environment's answer is used up. -/
def State.ioConsume (s : State) : State :=
  match s.ioIn with
  | _ :: rest => { s with ioIn := rest }
  | [] => s.useDraw

/-- `s` with one more recorded event. -/
def State.record (s : State) (e : IoEvent) : State := { s with ioLog := s.ioLog ++ [e] }

/-- `IoRead(a, 2)`: the value and the state with the input event recorded. -/
def ioReadWord (s : State) (a : Word) : Word × State :=
  (s.ioAnswer, s.ioConsume.record (.input a (.word s.ioAnswer)))

/-- `IoRead(a, 1)`: the low 8 bits of the environment's answer (log 8). -/
def ioReadByte (s : State) (a : Word) : Byte × State :=
  (s.ioAnswer.setWidth 8, s.ioConsume.record (.input a (.byte (s.ioAnswer.setWidth 8))))

/-- `IoWrite(a, n, v)`, `n` the size of the value: an output event, no other state changes. -/
def ioWrite (s : State) (a : Word) (v : IoValue) : State := s.record (.output a v)

/-! ### The stack (46_stack_return.md R184) -/

/-- Push `v`: the word goes to `SP - 2`, which becomes `SP`. -/
def pushWord (s : State) (v : Word) : Res State :=
  andThen (writeWord s (s.sp - 2#16) v) fun t => .next (t.setSp (s.sp - 2#16))

/-- Pop a word: the word at `SP`, and the state with `SP + 2`. -/
def popWord (s : State) : Res (Word × State) :=
  andThen (readWord s s.sp) fun v => .next (v, s.setSp (s.sp + 2#16))

/-! ### Trap entry and return (60_exceptions.md R206, R207, R209) -/

/-- `VECTOR(c)`, from the memory contents at entry where the handler's address stands in memory
(60_exceptions.md R207). -/
def handlerAddress (s : State) : Handler → Res Word
  | .fixed a => .next a
  | .slot a => readWord s a

/-- `IE` after trap entry (`TRAP_IE`, 60_exceptions.md R206). -/
def trapIeAfter (s : State) : Bool :=
  match s.cfg.trapIe with
  | .clear => false
  | .keep => s.ie

/-- Trap entry for a cause whose handler is `h` (60_exceptions.md R206): push `pc`, push the `FLAG` word as
it was before the entry, clear `IE` where `TRAP_IE` says so, go to the handler. -/
def trapEntry (h : Handler) (s : State) : Res State :=
  andThen (writeWord s (s.sp - 2#16) s.pc) fun s1 =>
  andThen (writeWord s1 (s.sp - 4#16) s.flagWord) fun s2 =>
  andThen (handlerAddress s h) fun target =>
    .next (((s2.setSp (s.sp - 4#16)).setIe (trapIeAfter s)).setPc target)

/-- The return from a trap (60_exceptions.md R209, 46_stack_return.md R183): `FLAG` from the top of the
stack, `pc` from the word above it. -/
def trapReturn (s : State) : Res State :=
  andThen (readWord s s.sp) fun f =>
  andThen (readWord s (s.sp + 2#16)) fun target =>
    .next (((s.setSp (s.sp + 4#16)).setFlagWord f).setPc target)

end Sys2Proof.Machine
end

