-- ==== Sys2Proof/Machine/Boundary.lean ====
section
/-! DEFINITION. What happens before an instruction: the instruction boundary (60_exceptions.md R200, R202 to
R204; 47_system.md R194), the fetch (20_memory.md R36, 30_encoding.md R53) and what a reserved encoding does
(30_encoding.md R70). -/

namespace Sys2Proof.Machine

/-- The handler of the request the environment presents at this boundary; a request whose cause is not in
`CAUSES` is none (60_exceptions.md R202; log 9). -/
def presented (s : State) : Option Handler :=
  match s.requests with
  | some n :: _ => s.cfg.causes.lookup n
  | none :: _ => none
  | [] => none

/-- The handler of the request that is taken at this boundary: one is presented and `IE` is 1
(60_exceptions.md R204). -/
def accepted (s : State) : Option Handler := if s.ie then presented s else none

/-- `s` past this boundary: what was presented at it is gone, taken or not (60_exceptions.md R203; log 9). -/
def State.passBoundary (s : State) : State := { s with requests := s.requests.tail }

/-- What a boundary leads to. -/
inductive Boundary where
  /-- The halted CPU stays halted. -/
  | stay (s : State)
  /-- Trap entry to the handler, from this state. -/
  | trap (h : Handler) (s : State)
  /-- The next instruction is fetched in this state. -/
  | fetch (s : State)

/-- The boundary before a step (60_exceptions.md R200). A halted CPU does nothing; under `HALT_WAKE = yes`
an accepted request clears `halted` and is taken (47_system.md R194; log 11). -/
def boundary (s : State) : Boundary :=
  if s.halted then
    match s.cfg.haltWake with
    | .no => .stay s
    | .yes =>
      match accepted s with
      | some h => .trap h (s.passBoundary.setHalted false)
      | none => .stay s.passBoundary
  else
    match accepted s with
    | some h => .trap h s.passBoundary
    | none => .fetch s.passBoundary

/-- Fetch and decode at `pc`: the instruction, and the state with `pc` advanced past it (20_memory.md R36).
A reserved encoding is found before a second word is read (60_exceptions.md R200, R205); what the step does
with it is `illegalEncoding`. -/
def fetch (s : State) : Res (Instr × State) :=
  andThen (readWord s s.pc) fun w1 =>
    match decodeFirst w1 with
    | .error _ => .refused .reservedEncoding
    | .ok (.one i) => .next (i, s.setPc (s.pc + 2#16))
    | .ok (.two f) => andThen (readWord s (s.pc + 2#16)) fun w2 => .next (f w2, s.setPc (s.pc + 4#16))

/-- The `pc` that is saved for a reserved encoding whose first word is at `pc`. -/
def savedPcOf (k : SavedPc) (pc : Word) : Word :=
  match k with
  | .this => pc
  | .following => pc + 2#16

/-- A reserved encoding at `pc`, as `ILLEGAL` says (30_encoding.md R70): refused, or trap entry to the
handler the parameter gives (log 13). -/
def illegalEncoding (s : State) : Res State :=
  match s.cfg.illegal with
  | .refuse => .refused .reservedEncoding
  | .trap h k => trapEntry h (s.setPc (savedPcOf k s.pc))

/-- Fetch, then `run` on what was fetched, or what `ILLEGAL` says of a reserved encoding; any other stop of
the fetch is the stop of the whole. -/
def fetchThen (s : State) (run : Instr → State → Res State) : Res State :=
  match fetch s with
  | .next p => run p.1 p.2
  | .fault r => .fault r
  | .refused r => if r = .reservedEncoding then illegalEncoding s else .refused r

/-- `s` with two words stored where the next fetch reads them, in `BYTE_ORDER`, whatever `MEM_MAP` lets a
program write. -/
def State.placeWords (s : State) (w1 w2 : Word) : State :=
  s.setMem (storeWord s.cfg (storeWord s.cfg s.mem s.pc w1) (s.pc + 2#16) w2)

end Sys2Proof.Machine
end

