-- ==== Sys2Proof/Machine/Operands.lean ====
section
/-! DEFINITION. The two mode functions of 30_encoding.md R63, `eaddr` and `opval`. -/

namespace Sys2Proof.Machine

/-- `sext_4` (00_scope.md R4). -/
def sext4 (v : BitVec 4) : Word := v.signExtend 16

/-- `ext8` (00_scope.md R4, 30_encoding.md R61), by `BYTE_EXT`. -/
def ext8 (c : Config) (b : Byte) : Word :=
  match c.byteExt with
  | .zero => b.setWidth 16
  | .sign => b.signExtend 16

/-- `eaddr` (30_encoding.md R54, R55, R57, R60, R61). -/
def eaddr (s : State) : AddrMode → Word
  | .drct dsp => dsp
  | .index dsp rx => dsp + s.reg rx
  | .fpRlt d4 => 2#16 * sext4 d4 + s.fp
  | .indr rx => s.reg rx
  | .bIndr rx => s.reg rx

/-- `MemRead` at the address a mode names, of the mode's size: a byte, widened by `ext8`, in mode 7, a
word in the others (30_encoding.md R63). -/
def readAt (s : State) (a : AddrMode) : Res Word :=
  match a with
  | .drct _ | .index _ _ | .fpRlt _ | .indr _ => readWord s (eaddr s a)
  | .bIndr _ => andThen (readByte s (eaddr s a)) fun b => .next (ext8 s.cfg b)

/-- `MemWrite` at the address a mode names, of the mode's size: the low byte of `v` in mode 7, the word in
the others (40_nop_load_store.md R83). -/
def writeAt (s : State) (a : AddrMode) (v : Word) : Res State :=
  match a with
  | .drct _ | .index _ _ | .fpRlt _ | .indr _ => writeWord s (eaddr s a) v
  | .bIndr _ => writeByte s (eaddr s a) (v.setWidth 8)

/-- `opval` (30_encoding.md R63). -/
def opval (s : State) : Operand → Res Word
  | .mem a => readAt s a
  | .imm w => .next w
  | .reg rs => .next (s.reg rs)
  | .imm4 i4 => .next (sext4 i4)

/-- The target of a jump or call: the address itself, not a word read from it (30_encoding.md R65). -/
def jumpTarget (s : State) : JumpMode → Word
  | .drct dsp => eaddr s (.drct dsp)
  | .index dsp rx => eaddr s (.index dsp rx)
  | .indr rx => eaddr s (.indr rx)

/-- The port address of `IN` and `OUT` (45_io.md R172). -/
def portAddress (s : State) : IoMode → Word
  | .drct dsp => eaddr s (.drct dsp)
  | .indr rx => eaddr s (.indr rx)
  | .bIndr rx => eaddr s (.bIndr rx)

end Sys2Proof.Machine
end

