-- ==== Sys2Proof/Machine/Arith.lean ====
section
/-! DEFINITION. Add, subtract, compare, logic, scaled add (41_arithmetic_logic.md R90 to R97). -/

namespace Sys2Proof.Machine

/-- `x[rd] <- f(x[rd], operand)`, `Z` and `S` from the result, `C` and `V` drawn (R93 to R96). -/
def logicOp (f : Word → Word → Word) (rd : Reg) (ea : Operand) (s : State) : Res State :=
  andThen (opval s ea) fun b =>
    .next ((s.setReg rd (f (s.reg rd) b)).setResultFlags (f (s.reg rd) b))

/-- `ADD Rd,EA` (R90). -/
def execAdd (rd : Reg) (ea : Operand) (s : State) : Res State :=
  andThen (opval s ea) fun b =>
    .next ((s.setReg rd (add16 (s.reg rd) b)).setFlags (add16Flags (s.reg rd) b))

/-- `SUB Rd,EA` (R91). -/
def execSub (rd : Reg) (ea : Operand) (s : State) : Res State :=
  andThen (opval s ea) fun b =>
    .next ((s.setReg rd (sub16 (s.reg rd) b)).setFlags (sub16Flags (s.reg rd) b))

/-- `CMP Rd,EA` (R92): the flags of the subtraction, no result. -/
def execCmp (rd : Reg) (ea : Operand) (s : State) : Res State :=
  andThen (opval s ea) fun b => .next (s.setFlags (sub16Flags (s.reg rd) b))

/-- `AND Rd,EA` (R93). -/
def execAnd (rd : Reg) (ea : Operand) (s : State) : Res State := logicOp (fun a b => a &&& b) rd ea s

/-- `OR Rd,EA` (R94). -/
def execOr (rd : Reg) (ea : Operand) (s : State) : Res State := logicOp (fun a b => a ||| b) rd ea s

/-- `XOR Rd,EA` (R95). -/
def execXor (rd : Reg) (ea : Operand) (s : State) : Res State := logicOp (fun a b => a ^^^ b) rd ea s

/-- `ADDS Rd,EA` (R96, 90_conflicts.md C3): the operand is doubled. -/
def execAdds (rd : Reg) (ea : Operand) (s : State) : Res State := logicOp (fun a b => a + 2#16 * b) rd ea s

end Sys2Proof.Machine
end

