-- ==== Sys2Proof/Machine/InOut.lean ====
section
/-! DEFINITION. Input and output (45_io.md R170 to R172). -/

namespace Sys2Proof.Machine

/-- `IN Rd,EA` (R170). -/
def execIn (rd : Reg) (ea : IoMode) (s : State) : Res State :=
  match ea with
  | .drct _ | .indr _ =>
    .next ((ioReadWord s (portAddress s ea)).2.setReg rd (ioReadWord s (portAddress s ea)).1)
  | .bIndr _ =>
    .next ((ioReadByte s (portAddress s ea)).2.setReg rd (ext8 s.cfg (ioReadByte s (portAddress s ea)).1))

/-- `OUT Rd,EA` (R171). -/
def execOut (rd : Reg) (ea : IoMode) (s : State) : Res State :=
  match ea with
  | .drct _ | .indr _ => .next (ioWrite s (portAddress s ea) (.word (s.reg rd)))
  | .bIndr _ => .next (ioWrite s (portAddress s ea) (.byte ((s.reg rd).setWidth 8)))

end Sys2Proof.Machine
end

