-- ==== Sys2Proof/Machine/Jump.lean ====
section
/-! DEFINITION. The 15 jumps and `CALL` (44_jump_call.md R140 to R157). -/

namespace Sys2Proof.Machine

/-! ### The conditions (R140) -/

/-- The condition of `JZ` (R141). -/
def condJz (f : Flags) : Bool := f.z

/-- The condition of `JC` (R142). -/
def condJc (f : Flags) : Bool := f.c

/-- The condition of `JM` (R143). -/
def condJm (f : Flags) : Bool := f.s

/-- The condition of `JO` (R144). -/
def condJo (f : Flags) : Bool := f.v

/-- The condition of `JGT` (R145). -/
def condJgt (f : Flags) : Bool := !(f.z || (f.s ^^ f.v))

/-- The condition of `JGE` (R146). -/
def condJge (f : Flags) : Bool := !(f.s ^^ f.v)

/-- The condition of `JLE` (R147). -/
def condJle (f : Flags) : Bool := f.z || (f.s ^^ f.v)

/-- The condition of `JLT` (R148). -/
def condJlt (f : Flags) : Bool := f.s ^^ f.v

/-- The condition of `JNZ` (R149). -/
def condJnz (f : Flags) : Bool := !f.z

/-- The condition of `JNC` (R150). -/
def condJnc (f : Flags) : Bool := !f.c

/-- The condition of `JNM` (R151). -/
def condJnm (f : Flags) : Bool := !f.s

/-- The condition of `JNO` (R152). -/
def condJno (f : Flags) : Bool := !f.v

/-- The condition of `JHI` (R153). -/
def condJhi (f : Flags) : Bool := !(f.z || f.c)

/-- The condition of `JLS` (R154). -/
def condJls (f : Flags) : Bool := f.z || f.c

/-! ### The instructions -/

/-- `if taken: pc <- eaddr`, else `pc` stays at the following instruction (R140). -/
def jumpIf (taken : Bool) (ea : JumpMode) (s : State) : Res State :=
  .next (if taken then s.setPc (jumpTarget s ea) else s)

/-- `JZ EA` (R141). -/
def execJz (ea : JumpMode) (s : State) : Res State := jumpIf (condJz s.flags) ea s

/-- `JC EA` (R142). -/
def execJc (ea : JumpMode) (s : State) : Res State := jumpIf (condJc s.flags) ea s

/-- `JM EA` (R143). -/
def execJm (ea : JumpMode) (s : State) : Res State := jumpIf (condJm s.flags) ea s

/-- `JO EA` (R144). -/
def execJo (ea : JumpMode) (s : State) : Res State := jumpIf (condJo s.flags) ea s

/-- `JGT EA` (R145). -/
def execJgt (ea : JumpMode) (s : State) : Res State := jumpIf (condJgt s.flags) ea s

/-- `JGE EA` (R146). -/
def execJge (ea : JumpMode) (s : State) : Res State := jumpIf (condJge s.flags) ea s

/-- `JLE EA` (R147). -/
def execJle (ea : JumpMode) (s : State) : Res State := jumpIf (condJle s.flags) ea s

/-- `JLT EA` (R148, 90_conflicts.md C4). -/
def execJlt (ea : JumpMode) (s : State) : Res State := jumpIf (condJlt s.flags) ea s

/-- `JNZ EA` (R149). -/
def execJnz (ea : JumpMode) (s : State) : Res State := jumpIf (condJnz s.flags) ea s

/-- `JNC EA` (R150). -/
def execJnc (ea : JumpMode) (s : State) : Res State := jumpIf (condJnc s.flags) ea s

/-- `JNM EA` (R151). -/
def execJnm (ea : JumpMode) (s : State) : Res State := jumpIf (condJnm s.flags) ea s

/-- `JNO EA` (R152). -/
def execJno (ea : JumpMode) (s : State) : Res State := jumpIf (condJno s.flags) ea s

/-- `JHI EA` (R153). -/
def execJhi (ea : JumpMode) (s : State) : Res State := jumpIf (condJhi s.flags) ea s

/-- `JLS EA` (R154). -/
def execJls (ea : JumpMode) (s : State) : Res State := jumpIf (condJls s.flags) ea s

/-- `JMP EA` (R155). -/
def execJmp (ea : JumpMode) (s : State) : Res State := jumpIf true ea s

/-- `CALL EA` (R156, 90_conflicts.md C7): push the address of the following instruction; the target is
computed from the registers as they were. -/
def execCall (ea : JumpMode) (s : State) : Res State :=
  andThen (pushWord s s.pc) fun t => .next (t.setPc (jumpTarget s ea))

end Sys2Proof.Machine
end

