-- ==== Sys2Proof/Machine/LoadStore.lean ====
section
/-! DEFINITION. No operation, load, store (40_nop_load_store.md R80 to R83). A meaning runs on a state whose
`pc` is already the address of the following instruction (10_state.md R16). -/

namespace Sys2Proof.Machine

/-- `NO` (R80). -/
def execNo (s : State) : Res State := .next s

/-- `LD Rd,EA` (R81). -/
def execLd (rd : Reg) (ea : Operand) (s : State) : Res State :=
  andThen (opval s ea) fun v => .next (s.setReg rd v)

/-- `LD Rd,FLAG` (R82). -/
def execLdFlag (rd : Reg) (s : State) : Res State := .next (s.setReg rd s.flagWord)

/-- `ST Rd,EA` (R83, 90_conflicts.md C2). -/
def execSt (rd : Reg) (ea : AddrMode) (s : State) : Res State := writeAt s ea (s.reg rd)

end Sys2Proof.Machine
end

