-- ==== Sys2Proof/Machine/MulDiv.lean ====
section
/-! DEFINITION. Multiply and divide (42_multiply_divide.md R110 to R116). -/

namespace Sys2Proof.Machine

/-! ### The helper functions of R116 -/

/-- `val16`. -/
def val16 (c : Config) (v : Word) : Int :=
  match c.mulDivSigned with
  | .unsigned => v.toNat
  | .signedTrunc => v.toInt
  | .signedFloor => v.toInt

/-- `val32`. -/
def val32 (c : Config) (n : BitVec 32) : Int :=
  match c.mulDivSigned with
  | .unsigned => n.toNat
  | .signedTrunc => n.toInt
  | .signedFloor => n.toInt

/-- `quot(p, q)`, `q` not 0. -/
def quotOf (c : Config) (p q : Int) : Int :=
  match c.mulDivSigned with
  | .unsigned => p.tdiv q
  | .signedTrunc => p.tdiv q
  | .signedFloor => p.fdiv q

/-- `rem(p, q)`, `q` not 0. -/
def remOf (c : Config) (p q : Int) : Int := p - quotOf c p q * q

/-- `fits16`. -/
def fits16 (c : Config) (t : Int) : Bool :=
  match c.mulDivSigned with
  | .unsigned => decide (0 ≤ t) && decide (t < 2 ^ 16)
  | .signedTrunc => decide (-2 ^ 15 ≤ t) && decide (t < 2 ^ 15)
  | .signedFloor => decide (-2 ^ 15 ≤ t) && decide (t < 2 ^ 15)

/-! ### Division with its two open cases -/

/-- The quotient of `p` by `b` as a division instruction takes it: a value where the rules state one,
`none` where they state none because of a zero divisor or a quotient that does not fit, and a fault there
under `DIV_FAULT = fault` (R111, R112, R114; log 12). -/
def divide (c : Config) (p : Int) (b : Word) : Res (Option Int) :=
  if b = 0#16 then
    match c.divFault with
    | .fault => .fault .divideByZero
    | .result => .next none
  else if fits16 c (quotOf c p (val16 c b)) then .next (some (quotOf c p (val16 c b)))
  else
    match c.divFault with
    | .fault => .fault .divideOverflow
    | .result => .next none

/-- The quotient as 16 bits, or the free value where it stands open. -/
def quotientWord (op : DivOp) (n : BitVec 32) (b : Word) (q : Option Int) : Word :=
  match q with
  | some q => BitVec.ofInt 16 q
  | none => Config.divResult op n b

/-- The remainder as 16 bits, or the free value where the division stands open. -/
def remainderWord (c : Config) (op : DivOp) (n : BitVec 32) (p : Int) (b : Word) (q : Option Int) : Word :=
  match q with
  | some _ => BitVec.ofInt 16 (remOf c p (val16 c b))
  | none => Config.divResult op n b

/-! ### The register pair (10_state.md R14) -/

/-- The register `Rd+1` of the pair; an even `Rd` is at most 14. -/
def highReg (rd : Reg) : Reg := rd + 1

/-- `(Rd+1,Rd)`, `Rd+1` the high half. -/
def pairValue (s : State) (rd : Reg) : BitVec 32 := s.reg (highReg rd) ++ s.reg rd

/-- `(Rd+1,Rd) <- hi :: lo`. -/
def State.setPair (s : State) (rd : Reg) (hi lo : Word) : State := (s.setReg rd lo).setReg (highReg rd) hi

/-! ### The instructions -/

/-- `MUL Rd,EA` (R110): the low 16 bits of the product. -/
def execMul (rd : Reg) (ea : Operand) (s : State) : Res State :=
  andThen (opval s ea) fun b => .next (s.setReg rd (s.reg rd * b)).drawFlags

/-- `DIV Rd,EA` (R111). -/
def execDiv (rd : Reg) (ea : Operand) (s : State) : Res State :=
  andThen (opval s ea) fun b =>
  andThen (divide s.cfg (val16 s.cfg (s.reg rd)) b) fun q =>
    .next (s.setReg rd (quotientWord .div ((s.reg rd).setWidth 32) b q)).drawFlags

/-- `MOD Rd,EA` (R112). -/
def execMod (rd : Reg) (ea : Operand) (s : State) : Res State :=
  andThen (opval s ea) fun b =>
  andThen (divide s.cfg (val16 s.cfg (s.reg rd)) b) fun q =>
    .next (s.setReg rd (remainderWord s.cfg .mod ((s.reg rd).setWidth 32) (val16 s.cfg (s.reg rd)) b q)).drawFlags

/-- The 32-bit product of `MULL` (R113). -/
def longProduct (c : Config) (a b : Word) : BitVec 32 := BitVec.ofInt 32 (val16 c a * val16 c b)

/-- `MULL Rd,EA` (R113). -/
def execMull (rd : Reg) (ea : Operand) (s : State) : Res State :=
  if evenReg rd then
    andThen (opval s ea) fun b =>
      .next (s.setPair rd ((longProduct s.cfg (s.reg rd) b).extractLsb' 16 16)
        ((longProduct s.cfg (s.reg rd) b).extractLsb' 0 16)).drawFlags
  else .refused .reservedEncoding

/-- `DIVL Rd,EA` (R114). -/
def execDivl (rd : Reg) (ea : Operand) (s : State) : Res State :=
  if evenReg rd then
    andThen (opval s ea) fun b =>
    andThen (divide s.cfg (val32 s.cfg (pairValue s rd)) b) fun q =>
      .next (s.setPair rd
        (remainderWord s.cfg .divlRemainder (pairValue s rd) (val32 s.cfg (pairValue s rd)) b q)
        (quotientWord .divlQuotient (pairValue s rd) b q)).drawFlags
  else .refused .reservedEncoding

end Sys2Proof.Machine
end

