-- ==== Sys2Proof/Machine/Shift.lean ====
section
/-! DEFINITION. Shifts (43_shift.md R130 to R134). -/

namespace Sys2Proof.Machine

/-- `x[rd] <- f(x[rd], count)` for a count of 0 to 15, with `Z` and `S` from the result and `C`, `V` drawn;
for a greater count `Rd` and all four flags are drawn (R134). -/
def shiftOp (f : Word → Nat → Word) (rd : Reg) (ea : Operand) (s : State) : Res State :=
  andThen (opval s ea) fun b =>
    if b.toNat ≤ 15 then
      .next ((s.setReg rd (f (s.reg rd) b.toNat)).setResultFlags (f (s.reg rd) b.toNat))
    else
      .next (s.setReg rd (Config.freeWord s.draws)).useDraw.drawFlags

/-- `SHLA Rd,EA` (R130). -/
def execShla (rd : Reg) (ea : Operand) (s : State) : Res State := shiftOp (fun a n => a <<< n) rd ea s

/-- `SHLL Rd,EA` (R131). -/
def execShll (rd : Reg) (ea : Operand) (s : State) : Res State := shiftOp (fun a n => a <<< n) rd ea s

/-- `SHRA Rd,EA` (R132): copies of bit 15 enter. -/
def execShra (rd : Reg) (ea : Operand) (s : State) : Res State := shiftOp (fun a n => a.sshiftRight n) rd ea s

/-- `SHRL Rd,EA` (R133): zeros enter. -/
def execShrl (rd : Reg) (ea : Operand) (s : State) : Res State := shiftOp (fun a n => a >>> n) rd ea s

end Sys2Proof.Machine
end

