-- ==== Sys2Proof/Machine/Stack.lean ====
section
/-! DEFINITION. Push, pop, return (46_stack_return.md R180 to R184). -/

namespace Sys2Proof.Machine

/-- `rd` is the register that is `SP` (R180, R181). -/
def isSp (c : Config) (rd : Reg) : Bool := c.spLoc == .reg rd

/-- `PUSH Rd` (R180, 90_conflicts.md C7). -/
def execPush (rd : Reg) (s : State) : Res State :=
  if isSp s.cfg rd then .refused .spOperand else pushWord s (s.reg rd)

/-- `POP Rd` (R181). -/
def execPop (rd : Reg) (s : State) : Res State :=
  if isSp s.cfg rd then .refused .spOperand
  else andThen (popWord s) fun p => .next (p.2.setReg rd p.1)

/-- `RET` (R182). -/
def execRet (s : State) : Res State := andThen (popWord s) fun p => .next (p.2.setPc p.1)

/-- `RETI` (R183, 90_conflicts.md C9). -/
def execReti (s : State) : Res State := trapReturn s

end Sys2Proof.Machine
end

