-- ==== Sys2Proof/Machine/System.lean ====
section
/-! DEFINITION. Interrupt enable and disable, supervisor call, halt (47_system.md R190 to R194). -/

namespace Sys2Proof.Machine

/-- `EI` (R190). -/
def execEi (s : State) : Res State := .next (s.setIe true)

/-- `DI` (R191). -/
def execDi (s : State) : Res State := .next (s.setIe false)

/-- `SVC` (R192, 60_exceptions.md R210): trap entry with cause `svc`, whatever `IE` is. -/
def execSvc (s : State) : Res State := trapEntry s.cfg.svcHandler s

/-- `HALT` (R193). -/
def execHalt (s : State) : Res State := .next (s.setHalted true)

end Sys2Proof.Machine
end

