-- ==== Sys2Proof/Machine/Dispatch.lean ====
section
/-! DEFINITION. One arm per instruction of 30_encoding.md R66. -/

namespace Sys2Proof.Machine

/-- The effect of an instruction on a state whose `pc` has been advanced past it (60_exceptions.md R200). -/
def exec (i : Instr) (s : State) : Host.Outcome State Fault Refusal :=
  match i with
  | .no => Sys2Proof.Machine.execNo s
  | .ld rd ea => Sys2Proof.Machine.execLd rd ea s
  | .ldFlag rd => Sys2Proof.Machine.execLdFlag rd s
  | .st rd ea => Sys2Proof.Machine.execSt rd ea s
  | .add rd ea => Sys2Proof.Machine.execAdd rd ea s
  | .sub rd ea => Sys2Proof.Machine.execSub rd ea s
  | .cmp rd ea => Sys2Proof.Machine.execCmp rd ea s
  | .and rd ea => Sys2Proof.Machine.execAnd rd ea s
  | .or rd ea => Sys2Proof.Machine.execOr rd ea s
  | .xor rd ea => Sys2Proof.Machine.execXor rd ea s
  | .adds rd ea => Sys2Proof.Machine.execAdds rd ea s
  | .mul rd ea => Sys2Proof.Machine.execMul rd ea s
  | .div rd ea => Sys2Proof.Machine.execDiv rd ea s
  | .mod rd ea => Sys2Proof.Machine.execMod rd ea s
  | .mull rd ea => Sys2Proof.Machine.execMull rd ea s
  | .divl rd ea => Sys2Proof.Machine.execDivl rd ea s
  | .shla rd ea => Sys2Proof.Machine.execShla rd ea s
  | .shll rd ea => Sys2Proof.Machine.execShll rd ea s
  | .shra rd ea => Sys2Proof.Machine.execShra rd ea s
  | .shrl rd ea => Sys2Proof.Machine.execShrl rd ea s
  | .jz ea => Sys2Proof.Machine.execJz ea s
  | .jc ea => Sys2Proof.Machine.execJc ea s
  | .jm ea => Sys2Proof.Machine.execJm ea s
  | .jo ea => Sys2Proof.Machine.execJo ea s
  | .jgt ea => Sys2Proof.Machine.execJgt ea s
  | .jge ea => Sys2Proof.Machine.execJge ea s
  | .jle ea => Sys2Proof.Machine.execJle ea s
  | .jlt ea => Sys2Proof.Machine.execJlt ea s
  | .jnz ea => Sys2Proof.Machine.execJnz ea s
  | .jnc ea => Sys2Proof.Machine.execJnc ea s
  | .jnm ea => Sys2Proof.Machine.execJnm ea s
  | .jno ea => Sys2Proof.Machine.execJno ea s
  | .jhi ea => Sys2Proof.Machine.execJhi ea s
  | .jls ea => Sys2Proof.Machine.execJls ea s
  | .jmp ea => Sys2Proof.Machine.execJmp ea s
  | .call ea => Sys2Proof.Machine.execCall ea s
  | .inp rd ea => Sys2Proof.Machine.execIn rd ea s
  | .out rd ea => Sys2Proof.Machine.execOut rd ea s
  | .push rd => Sys2Proof.Machine.execPush rd s
  | .pop rd => Sys2Proof.Machine.execPop rd s
  | .ret => Sys2Proof.Machine.execRet s
  | .reti => Sys2Proof.Machine.execReti s
  | .ei => Sys2Proof.Machine.execEi s
  | .di => Sys2Proof.Machine.execDi s
  | .svc => Sys2Proof.Machine.execSvc s
  | .halt => Sys2Proof.Machine.execHalt s

end Sys2Proof.Machine
end

