-- ==== Sys2Proof/Machine/Step.lean ====
section
/-! DEFINITION. One step of the CPU (60_exceptions.md R200). -/

namespace Sys2Proof.Machine

/-- One step: the boundary, then trap entry, or fetch and execution (60_exceptions.md R200); a reserved
encoding as `ILLEGAL` says (30_encoding.md R70). -/
def step (s : State) : Host.Outcome State Fault Refusal :=
  match boundary s with
  | .stay t => .next t
  | .trap h t => trapEntry h t
  | .fetch t => fetchThen t exec

/-- `s` with a table row's instruction where the next step fetches it: the words at `pc`, the CPU not
halted, and no request at this boundary (log 19). -/
def State.withFetchWord (s : State) (nbits w : Nat) : State :=
  { s.placeWords (tableWords nbits w).1 (tableWords nbits w).2 with
    halted := false
    requests := none :: s.requests }

end Sys2Proof.Machine
end

