-- ==== Sys2Proof/Machine/Timing.lean ====
section
/-! DEFINITION. The state counts of 70_reset_and_hazards.md R236, as a function of an instruction and the state
it runs in. They are non-normative (R235, R237): no step counts them and no register shows them (log 21). -/

namespace Sys2Proof.Machine

/-- The numbers of the modes Drct, Index, FPRlt, Indr, BIndr, given those of Drct and Indr: in every row
Index and FPRlt have Drct's number and BIndr has Indr's. -/
def addrStates (direct indirect : Nat) : AddrMode → Nat
  | .drct _ | .index _ _ | .fpRlt _ => direct
  | .indr _ | .bIndr _ => indirect

/-- A row with numbers in all eight modes, given those of Drct, Imm, Reg, Imm4 and Indr. -/
def operandStates (direct imm reg imm4 indirect : Nat) : Operand → Nat
  | .mem a => addrStates direct indirect a
  | .imm _ => imm
  | .reg _ => reg
  | .imm4 _ => imm4

/-- The row of a jump: 4 where it is not taken, 5 where it is. -/
def jumpStates (taken : Bool) : Nat := if taken then 5 else 4

/-- The row of a shift: `8+n` and so on, `n` the shift count. -/
def shiftStates (s : State) (ea : Operand) : Res Nat :=
  andThen (opval s ea) fun b => .next (operandStates 8 6 6 5 7 ea + b.toNat)

/-- The number of states of R236. A shift whose count cannot be read stops as the shift itself does. -/
def stateCount (i : Instr) (s : State) : Res Nat :=
  match i with
  | .no => .next 3
  | .ld _ ea => .next (operandStates 7 5 4 4 6 ea)
  | .ldFlag _ => .next 4
  | .st _ ea => .next (addrStates 6 5 ea)
  | .add _ ea | .sub _ ea | .cmp _ ea | .and _ ea | .or _ ea | .xor _ ea => .next (operandStates 7 5 5 4 6 ea)
  | .adds _ ea => .next (operandStates 8 6 6 5 7 ea)
  | .mul _ ea | .mull _ ea => .next (operandStates 57 55 55 54 56 ea)
  | .div _ ea | .mod _ ea | .divl _ ea => .next (operandStates 73 71 71 70 72 ea)
  | .shla _ ea | .shll _ ea | .shra _ ea | .shrl _ ea => shiftStates s ea
  | .jz _ => .next (jumpStates (condJz s.flags))
  | .jc _ => .next (jumpStates (condJc s.flags))
  | .jm _ => .next (jumpStates (condJm s.flags))
  | .jo _ => .next (jumpStates (condJo s.flags))
  | .jgt _ => .next (jumpStates (condJgt s.flags))
  | .jge _ => .next (jumpStates (condJge s.flags))
  | .jle _ => .next (jumpStates (condJle s.flags))
  | .jlt _ => .next (jumpStates (condJlt s.flags))
  | .jnz _ => .next (jumpStates (condJnz s.flags))
  | .jnc _ => .next (jumpStates (condJnc s.flags))
  | .jnm _ => .next (jumpStates (condJnm s.flags))
  | .jno _ => .next (jumpStates (condJno s.flags))
  | .jhi _ => .next (jumpStates (condJhi s.flags))
  | .jls _ => .next (jumpStates (condJls s.flags))
  | .jmp _ => .next 5
  | .call _ => .next 6
  | .inp _ (.drct _) => .next 7
  | .inp _ (.indr _) | .inp _ (.bIndr _) => .next 6
  | .out _ (.drct _) => .next 6
  | .out _ (.indr _) | .out _ (.bIndr _) => .next 5
  | .push _ => .next 5
  | .pop _ => .next 6
  | .ret => .next 6
  | .reti => .next 9
  | .ei | .di => .next 5
  | .svc => .next 12
  | .halt => .next 5

end Sys2Proof.Machine
end

