-- ==== Sys2Proof/Safety.lean ====
section
/-! DEFINITION. What counts as a safe run, the invariant of the machine, and the terms the statements use: what
each instruction may write, written from the tables of 10_state.md R15, R20 and 20_memory.md R38. -/

namespace Sys2Proof.Machine

/-! ### Safe runs -/

/-- From `s` no number of steps ends in a fault. -/
def NeverFaults (s : State) : Prop := ∀ k r, Sys2Proof.core.run k s ≠ .fault r

/-! ### The invariant -/

/-- Memory has its canonical form, and `FLAG_REST` holds no bit of a named flag (10_state.md R17: it is the
rest of the word). -/
def StateInv (s : State) : Prop := Memory.wf s.mem ∧ restOf s.cfg.flagLayout s.flagRest = s.flagRest

/-! ### Reserved encodings -/

/-- The 93 reserved `OP` values, in the order 30_encoding.md R69 lists them. -/
def reservedOps : List Nat :=
  [0x01, 0x02, 0x03, 0x04, 0x05, 0x06, 0x07] ++
  [0x12, 0x15] ++
  [0x78, 0x79, 0x7A, 0x7B, 0x7C, 0x7D, 0x7E, 0x7F] ++
  [0xA2, 0xA3, 0xA4, 0xA5, 0xA7] ++
  [0xAA, 0xAB, 0xAC, 0xAD, 0xAF] ++
  [0xB1, 0xB2, 0xB3, 0xB4, 0xB5] ++ [0xB9, 0xBA, 0xBB, 0xBC, 0xBD] ++
  ([0xC1, 0xC2, 0xC3] ++ [0xC5, 0xC6, 0xC7] ++ [0xC8, 0xC9, 0xCA, 0xCB, 0xCC, 0xCD, 0xCE, 0xCF]) ++
  ([0xD1, 0xD2, 0xD3] ++ [0xD5, 0xD6, 0xD7] ++ [0xD8, 0xD9, 0xDA, 0xDB, 0xDC, 0xDD, 0xDE, 0xDF]) ++
  ([0xE1, 0xE2, 0xE3] ++ [0xE5, 0xE6, 0xE7] ++ [0xE8, 0xE9, 0xEA, 0xEB, 0xEC, 0xED, 0xEE, 0xEF]) ++
  [0xF1, 0xF2, 0xF3, 0xF4, 0xF5, 0xF6, 0xF7, 0xF8, 0xF9, 0xFA, 0xFB, 0xFC, 0xFD, 0xFE]

/-- The `OP` values whose `Rx` field is printed `0h` (30_encoding.md R68): Direct and Immediate of every
instruction that has them, and all Other forms. -/
def rxZeroOps : List Nat :=
  [0x08, 0x0A, 0x10, 0x18, 0x1A, 0x20, 0x22, 0x28, 0x2A, 0x30, 0x32, 0x38, 0x3A, 0x40, 0x42, 0x48, 0x4A,
   0x50, 0x52, 0x58, 0x5A, 0x60, 0x62, 0x68, 0x6A, 0x70, 0x72, 0x80, 0x82, 0x88, 0x8A, 0x90, 0x92, 0x98,
   0x9A, 0xA0, 0xA8, 0xB0, 0xB8] ++
  [0x00, 0x14, 0xC0, 0xC4, 0xD0, 0xD4, 0xE0, 0xE4, 0xF0, 0xFF]

/-- The `OP` values whose `Rd` field is printed `0h` (30_encoding.md R68): `CALL`, `RET`, `RETI`, `EI`, `DI`,
`SVC`, `HALT`, `NO`. -/
def rdZeroOps : List Nat := [0xA8, 0xA9, 0xAE, 0xD0, 0xD4, 0xE0, 0xE4, 0xF0, 0xFF, 0x00]

/-- The `OP` values of the jumps (44_jump_call.md R140). -/
def jumpOps : List Nat := [0xA0, 0xA1, 0xA6]

/-! ### What an instruction may write -/

/-- The numbered register that is `SP`, if one is (10_state.md R13). -/
def spRegs (c : Config) : List Reg :=
  match c.spLoc with
  | .reg i => [i]
  | .separate => []

/-- The numbered registers an instruction may write (10_state.md R15): its destination or pair, and `SP`
for the stack instructions. -/
def writtenRegs (c : Config) : Instr → List Reg
  | .ld rd _ | .ldFlag rd | .add rd _ | .sub rd _ | .and rd _ | .or rd _ | .xor rd _ | .adds rd _ => [rd]
  | .mul rd _ | .div rd _ | .mod rd _ | .shla rd _ | .shll rd _ | .shra rd _ | .shrl rd _ => [rd]
  | .mull rd _ | .divl rd _ => [rd, highReg rd]
  | .inp rd _ => [rd]
  | .pop rd => rd :: spRegs c
  | .call _ | .push _ | .ret | .reti | .svc => spRegs c
  | .no | .st _ _ | .cmp _ _ | .out _ _ | .ei | .di | .halt => []
  | .jz _ | .jc _ | .jm _ | .jo _ | .jgt _ | .jge _ | .jle _ | .jlt _ => []
  | .jnz _ | .jnc _ | .jnm _ | .jno _ | .jhi _ | .jls _ | .jmp _ => []

/-- The instruction moves `SP` (10_state.md R13, R15). -/
def movesSp : Instr → Bool
  | .call _ | .push _ | .pop _ | .ret | .reti | .svc => true
  | .no | .ld _ _ | .ldFlag _ | .st _ _ | .inp _ _ | .out _ _ | .ei | .di | .halt => false
  | .add _ _ | .sub _ _ | .cmp _ _ | .and _ _ | .or _ _ | .xor _ _ | .adds _ _ => false
  | .mul _ _ | .div _ _ | .mod _ _ | .mull _ _ | .divl _ _ => false
  | .shla _ _ | .shll _ _ | .shra _ _ | .shrl _ _ => false
  | .jz _ | .jc _ | .jm _ | .jo _ | .jgt _ | .jge _ | .jle _ | .jlt _ => false
  | .jnz _ | .jnc _ | .jnm _ | .jno _ | .jhi _ | .jls _ | .jmp _ => false

/-- The instruction changes the flags (10_state.md R20, the column "value used"; `RETI` restores them). -/
def changesFlags : Instr → Bool
  | .add _ _ | .sub _ _ | .cmp _ _ | .and _ _ | .or _ _ | .xor _ _ | .adds _ _ => true
  | .mul _ _ | .div _ _ | .mod _ _ | .mull _ _ | .divl _ _ => true
  | .shla _ _ | .shll _ _ | .shra _ _ | .shrl _ _ => true
  | .reti => true
  | .no | .ld _ _ | .ldFlag _ | .st _ _ => false
  | .jz _ | .jc _ | .jm _ | .jo _ | .jgt _ | .jge _ | .jle _ | .jlt _ => false
  | .jnz _ | .jnc _ | .jnm _ | .jno _ | .jhi _ | .jls _ | .jmp _ => false
  | .call _ | .inp _ _ | .out _ _ | .push _ | .pop _ | .ret | .ei | .di | .svc | .halt => false

/-- The instruction writes `pc` beyond its advance (10_state.md R15, R16). -/
def writesPc : Instr → Bool
  | .jz _ | .jc _ | .jm _ | .jo _ | .jgt _ | .jge _ | .jle _ | .jlt _ => true
  | .jnz _ | .jnc _ | .jnm _ | .jno _ | .jhi _ | .jls _ | .jmp _ | .call _ => true
  | .ret | .reti | .svc => true
  | .no | .ld _ _ | .ldFlag _ | .st _ _ => false
  | .add _ _ | .sub _ _ | .cmp _ _ | .and _ _ | .or _ _ | .xor _ _ | .adds _ _ => false
  | .mul _ _ | .div _ _ | .mod _ _ | .mull _ _ | .divl _ _ => false
  | .shla _ _ | .shll _ _ | .shra _ _ | .shrl _ _ => false
  | .inp _ _ | .out _ _ | .push _ | .pop _ | .ei | .di | .halt => false

/-- The addresses of the two bytes of the word at `a`. -/
def wordAddresses (c : Config) (a : Word) : List Word := [firstByte c a, firstByte c a + 1#16]

/-- The addresses an instruction stores to (20_memory.md R38; `SVC`: 60_exceptions.md R206). -/
def storedBytes (s : State) : Instr → List Word
  | .st _ (.bIndr rx) => [eaddr s (.bIndr rx)]
  | .st _ (.drct dsp) => wordAddresses s.cfg (eaddr s (.drct dsp))
  | .st _ (.index dsp rx) => wordAddresses s.cfg (eaddr s (.index dsp rx))
  | .st _ (.fpRlt d4) => wordAddresses s.cfg (eaddr s (.fpRlt d4))
  | .st _ (.indr rx) => wordAddresses s.cfg (eaddr s (.indr rx))
  | .call _ | .push _ => wordAddresses s.cfg (s.sp - 2#16)
  | .svc => wordAddresses s.cfg (s.sp - 2#16) ++ wordAddresses s.cfg (s.sp - 4#16)
  | .no | .ld _ _ | .ldFlag _ => []
  | .add _ _ | .sub _ _ | .cmp _ _ | .and _ _ | .or _ _ | .xor _ _ | .adds _ _ => []
  | .mul _ _ | .div _ _ | .mod _ _ | .mull _ _ | .divl _ _ => []
  | .shla _ _ | .shll _ _ | .shra _ _ | .shrl _ _ => []
  | .jz _ | .jc _ | .jm _ | .jo _ | .jgt _ | .jge _ | .jle _ | .jlt _ => []
  | .jnz _ | .jnc _ | .jnm _ | .jno _ | .jhi _ | .jls _ | .jmp _ => []
  | .inp _ _ | .out _ _ | .pop _ | .ret | .reti | .ei | .di | .halt => []

end Sys2Proof.Machine
end

