-- ==== Sys2Proof/Certificates/Slice0/Obligations.lean ====
section
/-! DEFINITION. The statements for the provers. `StateInv`, `writtenRegs`, `storedBytes` and the other terms they use
are defined in Sys2Proof/Safety.lean. A meaning runs on a state whose `pc` has been advanced past the
instruction (10_state.md R16), so "the following instruction" is `s.pc` below. Every statement about a
state holds for every setting of the OPEN parameters, which the state carries in `cfg`. -/

open Sys2Proof Sys2Proof.Machine

/-! ### Encoding -/

/-- The worked encodings of 30_encoding.md R76, in either byte order. -/
def Obligations.WorkedEncodingsDecode : Prop :=
  ∀ o : ByteOrder, ∀ p ∈ ([
    ([0x0000], .no),
    ([0x0810, 0x1234], .ld 1 (.mem (.drct 0x1234))),
    ([0x0912, 0x1234], .ld 1 (.mem (.index 0x1234 2))),
    ([0x0A10, 0x1234], .ld 1 (.imm 0x1234)),
    ([0x0B1F], .ld 1 (.mem (.fpRlt 0xF))),
    ([0x0C12], .ld 1 (.reg 2)),
    ([0x0D18], .ld 1 (.imm4 0x8)),
    ([0x0E12], .ld 1 (.mem (.indr 2))),
    ([0x0F12], .ld 1 (.mem (.bIndr 2))),
    ([0x1430], .ldFlag 3),
    ([0x1317], .st 1 (.fpRlt 7)),
    ([0xA080, 0x0100], .jnz (.drct 0x0100)),
    ([0xA6F5], .jmp (.indr 5)),
    ([0xA904, 0x2000], .call (.index 0x2000 4)),
    ([0xB723], .inp 2 (.bIndr 3)),
    ([0xB820, 0x0010], .out 2 (.drct 0x0010)),
    ([0xC070], .push 7),
    ([0xC470], .pop 7),
    ([0xD000], .ret),
    ([0xD400], .reti),
    ([0xE000], .ei),
    ([0xE400], .di),
    ([0xF000], .svc),
    ([0xFF00], .halt)] : List (List Word × Instr)),
    decodeBytes o (layWords o p.1) = .ok (p.2, [])

/-- Decoding an encoded well-formed instruction gives it back, whatever bytes follow, in either byte order. -/
def Obligations.EncodedInstructionDecodes : Prop :=
  ∀ (o : ByteOrder) (i : Instr) (rest : List Byte), i.wellFormed = true →
    decodeBytes o (encodeBytes o i ++ rest) = .ok (i, rest)

/-- Bytes that decode are the encoding of the instruction they decode to, which is well-formed: no bit of
an encoding is ignored. -/
def Obligations.DecodedBytesReencode : Prop :=
  ∀ (o : ByteOrder) (bs : List Byte) (i : Instr) (rest : List Byte), decodeBytes o bs = .ok (i, rest) →
    i.wellFormed = true ∧ bs = encodeBytes o i ++ rest

/-- 30_encoding.md R69: the 93 values listed are exactly the `OP` values no first word decodes with; jump
condition Dh and an odd `Rd` of `MULL` and `DIVL` are rejected too. -/
def Obligations.ReservedOpValuesRejected : Prop :=
  reservedOps.length = 93 ∧
  (∀ op : BitVec 8, op.toNat ∈ reservedOps ↔ ∀ w : Word, opField w = op → ∃ e, decodeFirst w = .error e) ∧
  (∀ w : Word, (opField w).toNat ∈ jumpOps → rdField w = 0xD#4 → ∃ e, decodeFirst w = .error e) ∧
  (∀ w : Word, 0x68 ≤ (opField w).toNat → (opField w).toNat ≤ 0x77 → (rdField w).toNat % 2 = 1 →
    ∃ e, decodeFirst w = .error e)

/-- 30_encoding.md R68: a non-zero value in a field printed `0h` is rejected. -/
def Obligations.NonzeroFixedFieldRejected : Prop :=
  ∀ w : Word,
    ((opField w).toNat ∈ rxZeroOps → rxField w ≠ 0#4 → ∃ e, decodeFirst w = .error e) ∧
    ((opField w).toNat ∈ rdZeroOps → rdField w ≠ 0#4 → ∃ e, decodeFirst w = .error e)

/-! ### Memory -/

/-- 20_memory.md R33, both sizes: what a read answers, in each byte order, and where it stops. The word at
`a` starts at `p`, which is `a` unless `MISALIGNED = mask`. -/
def Obligations.MemoryReadAsStated : Prop :=
  ∀ (s : State) (a : Word),
    (readable s.cfg a = true → readByte s a = .next (memGet s.mem a.toNat)) ∧
    (readable s.cfg a = false → readByte s a = .fault .unmapped) ∧
    (alignedFor s.cfg a = false → readWord s a = .refused .misaligned) ∧
    (alignedFor s.cfg a = true → ∀ p, p = firstByte s.cfg a →
      (readable s.cfg p = false ∨ readable s.cfg (p + 1#16) = false → readWord s a = .fault .unmapped) ∧
      (readable s.cfg p = true → readable s.cfg (p + 1#16) = true →
        (s.cfg.byteOrder = .big →
          readWord s a = .next (memGet s.mem p.toNat ++ memGet s.mem (p + 1#16).toNat)) ∧
        (s.cfg.byteOrder = .little →
          readWord s a = .next (memGet s.mem (p + 1#16).toNat ++ memGet s.mem p.toNat))))

/-- 20_memory.md R34, both sizes: the bytes a write sets, in each byte order, every other byte and the rest
of the state unchanged, and where it stops. -/
def Obligations.MemoryWriteAsStated : Prop :=
  ∀ (s : State) (a : Word), Memory.wf s.mem →
    (∀ v : Byte, writable s.cfg a = true → ∃ m, writeByte s a v = .next { s with mem := m } ∧
      memGet m a.toNat = v ∧ ∀ k, k ≠ a.toNat → memGet m k = memGet s.mem k) ∧
    (∀ v : Byte, writable s.cfg a = false → writeByte s a v = .fault .unmapped) ∧
    (∀ v : Word, alignedFor s.cfg a = false → writeWord s a v = .refused .misaligned) ∧
    (∀ v p : Word, alignedFor s.cfg a = true → p = firstByte s.cfg a →
      (writable s.cfg p = false ∨ writable s.cfg (p + 1#16) = false → writeWord s a v = .fault .unmapped) ∧
      (writable s.cfg p = true → writable s.cfg (p + 1#16) = true →
        ∃ m, writeWord s a v = .next { s with mem := m } ∧
          (s.cfg.byteOrder = .big →
            memGet m p.toNat = v.extractLsb' 8 8 ∧ memGet m (p + 1#16).toNat = v.extractLsb' 0 8) ∧
          (s.cfg.byteOrder = .little →
            memGet m p.toNat = v.extractLsb' 0 8 ∧ memGet m (p + 1#16).toNat = v.extractLsb' 8 8) ∧
          ∀ k, k ≠ p.toNat → k ≠ (p + 1#16).toNat → memGet m k = memGet s.mem k))

/-- 20_memory.md R32: word accesses at odd addresses under each value of `MISALIGNED`, the fetch among them.
Under `refuse` each is refused. Under `split` a word whose two bytes are mapped is read or written as the
bytes at `a` and `(a+1) mod 2^16`, and an instruction at an odd `pc` is fetched so. Under `mask` an access is
the one at the address without bit 0. Even addresses and byte accesses meet no alignment rule. (Which `pc`
an instruction fetched at an odd address leaves under `mask` is log 15's and not said here.) -/
def Obligations.MisalignedAccessByParameter : Prop :=
  ∀ (s : State) (a v : Word) (b : Byte),
    (s.cfg.misaligned = .refuse → a.toNat % 2 = 1 →
      readWord s a = .refused .misaligned ∧ writeWord s a v = .refused .misaligned) ∧
    (s.cfg.misaligned = .split →
      (readable s.cfg a = true → readable s.cfg (a + 1#16) = true →
        readWord s a = .next
          (bytesWord s.cfg.byteOrder (memGet s.mem a.toNat) (memGet s.mem ((a.toNat + 1) % 65536)))) ∧
      (readable s.cfg a = false ∨ readable s.cfg (a + 1#16) = false → readWord s a = .fault .unmapped) ∧
      (Memory.wf s.mem → writable s.cfg a = true → writable s.cfg (a + 1#16) = true →
        ∃ t, writeWord s a v = .next t ∧
          memGet t.mem a.toNat = (wordBytes s.cfg.byteOrder v).1 ∧
          memGet t.mem ((a.toNat + 1) % 65536) = (wordBytes s.cfg.byteOrder v).2) ∧
      (writable s.cfg a = false ∨ writable s.cfg (a + 1#16) = false → writeWord s a v = .fault .unmapped)) ∧
    (s.cfg.misaligned = .mask → a.toNat % 2 = 1 →
      readWord s a = readWord s (a - 1#16) ∧ writeWord s a v = writeWord s (a - 1#16) v) ∧
    (a.toNat % 2 = 0 → readWord s a ≠ .refused .misaligned ∧ writeWord s a v ≠ .refused .misaligned) ∧
    readByte s a ≠ .refused .misaligned ∧ writeByte s a b ≠ .refused .misaligned ∧
    (s.pc.toNat % 2 = 1 →
      (s.cfg.misaligned = .refuse → fetch s = .refused .misaligned) ∧
      (s.cfg.misaligned = .split → readable s.cfg s.pc = true → readable s.cfg (s.pc + 1#16) = true →
        ∀ w1, w1 = bytesWord s.cfg.byteOrder (memGet s.mem s.pc.toNat) (memGet s.mem ((s.pc.toNat + 1) % 65536)) →
          (∀ i, decodeFirst w1 = .ok (.one i) → fetch s = .next (i, { s with pc := s.pc + 2#16 })) ∧
          (∀ g, decodeFirst w1 = .ok (.two g) →
            readable s.cfg (s.pc + 2#16) = true → readable s.cfg (s.pc + 3#16) = true →
            fetch s = .next (g (bytesWord s.cfg.byteOrder (memGet s.mem ((s.pc.toNat + 2) % 65536))
              (memGet s.mem ((s.pc.toNat + 3) % 65536))), { s with pc := s.pc + 4#16 }))) ∧
      (s.cfg.misaligned = .mask → ∀ w1, readWord s (s.pc - 1#16) = .next w1 →
        (∀ i, decodeFirst w1 = .ok (.one i) → ∃ p, fetch s = .next (i, { s with pc := p })) ∧
        (∀ g w2, decodeFirst w1 = .ok (.two g) → readWord s (s.pc + 1#16) = .next w2 →
          ∃ p, fetch s = .next (g w2, { s with pc := p }))))

/-- A word written reads back, under every byte order and every `MISALIGNED`; a word two bytes away reads
as before. -/
def Obligations.WrittenWordReadsBack : Prop :=
  ∀ (s t : State) (a v : Word), Memory.wf s.mem → writeWord s a v = .next t →
    (wordReadable s.cfg a = true → readWord t a = .next v) ∧
    readWord t (a - 2#16) = readWord s (a - 2#16) ∧ readWord t (a + 2#16) = readWord s (a + 2#16)

/-- 20_memory.md R46: a word stored at `pc` is the word the next fetch reads. -/
def Obligations.StoredWordIsFetched : Prop :=
  ∀ (s t : State) (w : Word) (i : Instr), Memory.wf s.mem → writeWord s s.pc w = .next t →
    wordReadable s.cfg s.pc = true → decodeFirst w = .ok (.one i) →
    fetch t = .next (i, { t with pc := s.pc + 2#16 })

/-- Every step keeps the invariant: memory in its canonical form, no named flag's bit in `FLAG_REST`. -/
def Obligations.StepKeepsInvariant : Prop :=
  ∀ s t : State, StateInv s → step s = .next t → StateInv t

/-- After reset `pc` is `RESET_PC` and the CPU is not halted (70_reset_and_hazards.md R230), for every
setting of the parameters. The rule gives no other element a value: that the invariant holds rests on the
model's choices of log 3 and log 4, and that `State.reset` is such a state on log 2. -/
def Obligations.ResetState : Prop :=
  (∀ c : Config, (State.resetOf c).pc = c.resetPc ∧ (State.resetOf c).halted = false ∧
    (State.resetOf c).cfg = c ∧ StateInv (State.resetOf c)) ∧
  ∃ c, State.reset = State.resetOf c

/-! ### Operands -/

/-- 30_encoding.md R63: `eaddr` in its five modes, `opval` in all eight, each access of the mode's size. -/
def Obligations.OperandValues : Prop :=
  ∀ s : State,
    (∀ dsp, eaddr s (.drct dsp) = dsp) ∧
    (∀ dsp rx, eaddr s (.index dsp rx) = BitVec.ofNat 16 (dsp.toNat + s.regs[rx].toNat)) ∧
    (∀ d4 : BitVec 4, eaddr s (.fpRlt d4) =
      BitVec.ofInt 16 (2 * d4.toInt + s.regs[s.cfg.fpIdx].toNat)) ∧
    (∀ rx, eaddr s (.indr rx) = s.regs[rx] ∧ eaddr s (.bIndr rx) = s.regs[rx]) ∧
    (∀ dsp, opval s (.mem (.drct dsp)) = readWord s dsp) ∧
    (∀ dsp rx, opval s (.mem (.index dsp rx)) =
      readWord s (BitVec.ofNat 16 (dsp.toNat + s.regs[rx].toNat))) ∧
    (∀ w, opval s (.imm w) = .next w) ∧
    (∀ d4 : BitVec 4, opval s (.mem (.fpRlt d4)) =
      readWord s (BitVec.ofInt 16 (2 * d4.toInt + s.regs[s.cfg.fpIdx].toNat))) ∧
    (∀ rs, opval s (.reg rs) = .next s.regs[rs]) ∧
    (∀ i4 : BitVec 4, opval s (.imm4 i4) = .next (BitVec.ofInt 16 i4.toInt)) ∧
    (∀ rx, opval s (.mem (.indr rx)) = readWord s s.regs[rx]) ∧
    (∀ rx, readable s.cfg s.regs[rx] = true → ∀ b, b = memGet s.mem s.regs[rx].toNat →
      (s.cfg.byteExt = .zero → opval s (.mem (.bIndr rx)) = .next (BitVec.ofNat 16 b.toNat)) ∧
      (s.cfg.byteExt = .sign → opval s (.mem (.bIndr rx)) = .next (BitVec.ofInt 16 b.toInt))) ∧
    (∀ rx, readable s.cfg s.regs[rx] = false → opval s (.mem (.bIndr rx)) = .fault .unmapped)

/-- An access that stops stops the instruction that makes it, with the same reason (60_exceptions.md R200:
a raise anywhere abandons the step): the operand of the seventeen instructions that read one, the store of
`ST`, the push of `CALL`, `PUSH` and `SVC`, the pops of `POP`, `RET` and `RETI`. (`RETI`'s second word is aligned where its
first is, so only its fault is left to say.) -/
def Obligations.StoppedAccessStopsInstruction : Prop :=
  ∀ (s : State) (rd : Reg) (ea : Operand) (a : AddrMode) (j : JumpMode),
    (∀ i ∈ ([.ld rd ea, .add rd ea, .sub rd ea, .cmp rd ea, .and rd ea, .or rd ea, .xor rd ea, .adds rd ea,
        .mul rd ea, .div rd ea, .mod rd ea, .shla rd ea, .shll rd ea, .shra rd ea, .shrl rd ea] : List Instr),
      (∀ f, opval s ea = .fault f → exec i s = .fault f) ∧
      (∀ r, opval s ea = .refused r → exec i s = .refused r)) ∧
    (evenReg rd = true → ∀ i ∈ ([.mull rd ea, .divl rd ea] : List Instr),
      (∀ f, opval s ea = .fault f → exec i s = .fault f) ∧
      (∀ r, opval s ea = .refused r → exec i s = .refused r)) ∧
    ((∀ f, writeAt s a (s.reg rd) = .fault f → exec (.st rd a) s = .fault f) ∧
      ∀ r, writeAt s a (s.reg rd) = .refused r → exec (.st rd a) s = .refused r) ∧
    (∀ i ∈ ([.call j, .svc] : List Instr),
      (∀ f, writeWord s (s.sp - 2#16) s.pc = .fault f → exec i s = .fault f) ∧
      (∀ r, writeWord s (s.sp - 2#16) s.pc = .refused r → exec i s = .refused r)) ∧
    (s.cfg.spLoc ≠ .reg rd →
      (∀ f, writeWord s (s.sp - 2#16) (s.reg rd) = .fault f → exec (.push rd) s = .fault f) ∧
      (∀ r, writeWord s (s.sp - 2#16) (s.reg rd) = .refused r → exec (.push rd) s = .refused r) ∧
      (∀ f, readWord s s.sp = .fault f → exec (.pop rd) s = .fault f) ∧
      (∀ r, readWord s s.sp = .refused r → exec (.pop rd) s = .refused r)) ∧
    (∀ i ∈ ([.ret, .reti] : List Instr),
      (∀ f, readWord s s.sp = .fault f → exec i s = .fault f) ∧
      (∀ r, readWord s s.sp = .refused r → exec i s = .refused r)) ∧
    (∀ w f, readWord s s.sp = .next w → readWord s (s.sp + 2#16) = .fault f → exec .reti s = .fault f)

/-! ### No operation, load, store, interrupt enable, halt -/

/-- `NO` (R80), `EI` (R190), `DI` (R191) and `HALT` (R193) complete in every state; each changes at most
the one bit it is for. -/
def Obligations.NoEiDiHaltComplete : Prop :=
  ∀ s : State,
    exec .no s = .next s ∧
    exec .ei s = .next { s with ie := true } ∧
    exec .di s = .next { s with ie := false } ∧
    exec .halt s = .next { s with halted := true }

/-- `LD Rd,EA` (40_nop_load_store.md R81): the operand goes to `Rd`, no flag changes. -/
def Obligations.LoadWritesOperand : Prop :=
  ∀ (s : State) (rd : Reg) (ea : Operand) (v : Word), opval s ea = .next v →
    exec (.ld rd ea) s = .next { s with regs := s.regs.set rd v }

/-- `LD Rd,FLAG` (40_nop_load_store.md R82) completes in every state: `Rd` holds the `FLAG` word. Decoded by
the code of `FLAG_LAYOUT` (it is the word itself where the layout has none), it has each flag at its bit,
`IE` where the layout holds it, and `FLAG_REST` in the other bits. -/
def Obligations.LoadFlagWritesFlagWord : Prop :=
  ∀ (s : State) (rd : Reg), ∃ w g : Word,
    exec (.ldFlag rd) s = .next { s with regs := s.regs.set rd w } ∧
    g = decodeFlag s.cfg.flagLayout w ∧ (s.cfg.flagLayout.code = [] → g = w) ∧
    g.getLsbD s.cfg.flagLayout.z = s.flags.z ∧ g.getLsbD s.cfg.flagLayout.c = s.flags.c ∧
    g.getLsbD s.cfg.flagLayout.s = s.flags.s ∧ g.getLsbD s.cfg.flagLayout.v = s.flags.v ∧
    (∀ i, s.cfg.flagLayout.ie = some i → g.getLsbD i = s.ie) ∧
    (StateInv s → restOf s.cfg.flagLayout g = s.flagRest)

/-- `ST Rd,EA` (40_nop_load_store.md R83) completes where its location is writable (and aligned, in the
word modes): the word, or in mode 7 the low byte, reads back from the address `eaddr` names, every other
byte of memory and all other state unchanged. -/
def Obligations.StoreWritesRegister : Prop :=
  ∀ (s : State) (rd rx : Reg) (a : AddrMode), Memory.wf s.mem →
    ((∀ r, a ≠ .bIndr r) → alignedFor s.cfg (eaddr s a) = true → wordWritable s.cfg (eaddr s a) = true →
      ∃ m, exec (.st rd a) s = .next { s with mem := m } ∧
        loadWord s.cfg m (eaddr s a) = s.regs[rd] ∧
        ∀ k, k ≠ (firstByte s.cfg (eaddr s a)).toNat → k ≠ (firstByte s.cfg (eaddr s a) + 1#16).toNat →
          memGet m k = memGet s.mem k) ∧
    (writable s.cfg s.regs[rx] = true →
      ∃ m, exec (.st rd (.bIndr rx)) s = .next { s with mem := m } ∧
        memGet m s.regs[rx].toNat = s.regs[rd].extractLsb' 0 8 ∧
        ∀ k, k ≠ s.regs[rx].toNat → memGet m k = memGet s.mem k)

/-! ### Arithmetic and logic -/

/-- `ADD Rd,EA` (41_arithmetic_logic.md R90, R97) completes where its operand can be read: the sum modulo
2^16; `Z`, `S` from it, `C` the carry out of bit 15, `V` the signed sum outside -32768..32767. -/
def Obligations.AddSumAndFlags : Prop :=
  ∀ (s : State) (rd : Reg) (ea : Operand) (a b r : Word), a = s.regs[rd] → opval s ea = .next b →
    r = BitVec.ofNat 16 (a.toNat + b.toNat) →
    exec (.add rd ea) s = .next { s with
      regs := s.regs.set rd r
      flags := ⟨decide (r.toNat = 0), decide (2 ^ 16 ≤ a.toNat + b.toNat), r.getLsbD 15,
        decide (a.toInt + b.toInt < -32768 ∨ 32767 < a.toInt + b.toInt)⟩ }

/-- `SUB Rd,EA` and `CMP Rd,EA` (41_arithmetic_logic.md R91, R92, R97) complete where the operand can be
read: the difference modulo 2^16, which `CMP` discards; `C` the borrow, `V` the signed difference outside
-32768..32767. -/
def Obligations.SubtractAndCompareFlags : Prop :=
  ∀ (s : State) (rd : Reg) (ea : Operand) (a b r : Word) (f : Flags), a = s.regs[rd] → opval s ea = .next b →
    r = BitVec.ofInt 16 ((a.toNat : Int) - b.toNat) →
    f = ⟨decide (r.toNat = 0), decide (a.toNat < b.toNat), r.getLsbD 15,
      decide (a.toInt - b.toInt < -32768 ∨ 32767 < a.toInt - b.toInt)⟩ →
    exec (.sub rd ea) s = .next { s with regs := s.regs.set rd r, flags := f } ∧
    exec (.cmp rd ea) s = .next { s with flags := f }

/-- `AND`, `OR`, `XOR` (41_arithmetic_logic.md R93, R94, R95) complete where the operand can be read: `Z`
and `S` from the bitwise result, `C` and `V` some bits the rules leave open. -/
def Obligations.LogicalResults : Prop :=
  ∀ (s : State) (rd : Reg) (ea : Operand) (a b : Word), a = s.regs[rd] → opval s ea = .next b →
    ∀ p ∈ ([(.and rd ea, a &&& b), (.or rd ea, a ||| b), (.xor rd ea, a ^^^ b)] : List (Instr × Word)),
      ∃ c v n, exec p.1 s = .next { s with
        regs := s.regs.set rd p.2, flags := ⟨decide (p.2.toNat = 0), c, p.2.getLsbD 15, v⟩, draws := n }

/-- `ADDS Rd,EA` (41_arithmetic_logic.md R96) completes where the operand can be read: the operand is
doubled; `Z` and `S` from the result, `C` and `V` some bits the rule leaves open. -/
def Obligations.ScaledAddResult : Prop :=
  ∀ (s : State) (rd : Reg) (ea : Operand) (b r : Word), opval s ea = .next b →
    r = BitVec.ofNat 16 (s.regs[rd].toNat + 2 * b.toNat) →
    ∃ c v n, exec (.adds rd ea) s = .next { s with
      regs := s.regs.set rd r, flags := ⟨decide (r.toNat = 0), c, r.getLsbD 15, v⟩, draws := n }

/-! ### Multiply and divide -/

/-- `MUL Rd,EA` (42_multiply_divide.md R110) completes where the operand can be read: the low 16 bits of
the product, all four flags left open. -/
def Obligations.MultiplyLowHalf : Prop :=
  ∀ (s : State) (rd : Reg) (ea : Operand) (b : Word), opval s ea = .next b →
    ∃ f n, exec (.mul rd ea) s = .next { s with
      regs := s.regs.set rd (BitVec.ofNat 16 (s.regs[rd].toNat * b.toNat)), flags := f, draws := n }

/-- `DIV` and `MOD` (42_multiply_divide.md R111, R112, R116) complete for a non-zero operand whose quotient
fits: the quotient and the remainder under each value of `MULDIV_SIGNED`, the flags left open. -/
def Obligations.QuotientAndRemainder : Prop :=
  ∀ (s : State) (rd : Reg) (ea : Operand) (a b : Word), a = s.regs[rd] → opval s ea = .next b → b ≠ 0#16 →
    (s.cfg.mulDivSigned = .unsigned →
      (∃ f n, exec (.div rd ea) s = .next { s with
        regs := s.regs.set rd (BitVec.ofNat 16 (a.toNat / b.toNat)), flags := f, draws := n }) ∧
      ∃ f n, exec (.mod rd ea) s = .next { s with
        regs := s.regs.set rd (BitVec.ofNat 16 (a.toNat % b.toNat)), flags := f, draws := n }) ∧
    (s.cfg.mulDivSigned = .signedTrunc → ¬(a = 0x8000 ∧ b = 0xFFFF) →
      (∃ f n, exec (.div rd ea) s = .next { s with
        regs := s.regs.set rd (BitVec.ofInt 16 (a.toInt.tdiv b.toInt)), flags := f, draws := n }) ∧
      ∃ f n, exec (.mod rd ea) s = .next { s with
        regs := s.regs.set rd (BitVec.ofInt 16 (a.toInt.tmod b.toInt)), flags := f, draws := n }) ∧
    (s.cfg.mulDivSigned = .signedFloor → ¬(a = 0x8000 ∧ b = 0xFFFF) →
      (∃ f n, exec (.div rd ea) s = .next { s with
        regs := s.regs.set rd (BitVec.ofInt 16 (a.toInt.fdiv b.toInt)), flags := f, draws := n }) ∧
      ∃ f n, exec (.mod rd ea) s = .next { s with
        regs := s.regs.set rd (BitVec.ofInt 16 (a.toInt.fmod b.toInt)), flags := f, draws := n })

/-- `MULL Rd,EA` (42_multiply_divide.md R113) completes for an even `Rd` where the operand can be read: the
32-bit product, low half in `Rd`, high half in `Rd+1`, the flags left open. -/
def Obligations.LongProductInPair : Prop :=
  ∀ (s : State) (rd hi : Reg) (ea : Operand) (a b : Word) (p : BitVec 32), evenReg rd = true →
    hi.val = rd.val + 1 → a = s.regs[rd] → opval s ea = .next b →
    (s.cfg.mulDivSigned = .unsigned → p = BitVec.ofNat 32 (a.toNat * b.toNat)) →
    (s.cfg.mulDivSigned ≠ .unsigned → p = BitVec.ofInt 32 (a.toInt * b.toInt)) →
    ∃ f n, exec (.mull rd ea) s = .next { s with
      regs := (s.regs.set rd (p.extractLsb' 0 16)).set hi (p.extractLsb' 16 16), flags := f, draws := n }

/-- `DIVL Rd,EA` (42_multiply_divide.md R114, R116) completes for an even `Rd` and a non-zero operand whose
quotient fits 16 bits: the quotient of the pair in `Rd`, the remainder in `Rd+1`, the flags left open. -/
def Obligations.LongQuotientAndRemainder : Prop :=
  ∀ (s : State) (rd hi : Reg) (ea : Operand) (b : Word) (n : BitVec 32), evenReg rd = true →
    hi.val = rd.val + 1 → opval s ea = .next b → b ≠ 0#16 → n = s.regs[hi] ++ s.regs[rd] →
    (s.cfg.mulDivSigned = .unsigned → s.regs[hi].toNat < b.toNat →
      ∃ f d, exec (.divl rd ea) s = .next { s with
        regs := (s.regs.set rd (BitVec.ofNat 16 (n.toNat / b.toNat))).set hi
          (BitVec.ofNat 16 (n.toNat % b.toNat))
        flags := f, draws := d }) ∧
    (s.cfg.mulDivSigned = .signedTrunc → -32768 ≤ n.toInt.tdiv b.toInt → n.toInt.tdiv b.toInt ≤ 32767 →
      ∃ f d, exec (.divl rd ea) s = .next { s with
        regs := (s.regs.set rd (BitVec.ofInt 16 (n.toInt.tdiv b.toInt))).set hi
          (BitVec.ofInt 16 (n.toInt.tmod b.toInt))
        flags := f, draws := d }) ∧
    (s.cfg.mulDivSigned = .signedFloor → -32768 ≤ n.toInt.fdiv b.toInt → n.toInt.fdiv b.toInt ≤ 32767 →
      ∃ f d, exec (.divl rd ea) s = .next { s with
        regs := (s.regs.set rd (BitVec.ofInt 16 (n.toInt.fdiv b.toInt))).set hi
          (BitVec.ofInt 16 (n.toInt.fmod b.toInt))
        flags := f, draws := d })

/-- Under `DIV_FAULT = fault` (the default of 92_eei_decisions.md D17) `DIV`, `MOD` and `DIVL` fault on a
zero operand and on a quotient that does not fit (42_multiply_divide.md R111, R112, R114): -32768 / -1
under a signed setting; for `DIVL` a quotient outside the setting's range, which for `unsigned` is exactly
`x[rd+1] >= b`. -/
def Obligations.DivisionFaults : Prop :=
  ∀ (s : State) (rd : Reg) (ea : Operand) (b : Word), s.cfg.divFault = .fault → opval s ea = .next b →
    (b = 0#16 → exec (.div rd ea) s = .fault .divideByZero ∧ exec (.mod rd ea) s = .fault .divideByZero ∧
      (evenReg rd = true → exec (.divl rd ea) s = .fault .divideByZero)) ∧
    (s.cfg.mulDivSigned ≠ .unsigned → s.regs[rd] = 0x8000 → b = 0xFFFF →
      exec (.div rd ea) s = .fault .divideOverflow ∧ exec (.mod rd ea) s = .fault .divideOverflow) ∧
    (∀ (hi : Reg) (n : BitVec 32), evenReg rd = true → hi.val = rd.val + 1 → n = s.regs[hi] ++ s.regs[rd] →
      b ≠ 0#16 →
      (s.cfg.mulDivSigned = .unsigned → b.toNat ≤ s.regs[hi].toNat →
        exec (.divl rd ea) s = .fault .divideOverflow) ∧
      (s.cfg.mulDivSigned = .signedTrunc →
        n.toInt.tdiv b.toInt < -32768 ∨ 32767 < n.toInt.tdiv b.toInt →
        exec (.divl rd ea) s = .fault .divideOverflow) ∧
      (s.cfg.mulDivSigned = .signedFloor →
        n.toInt.fdiv b.toInt < -32768 ∨ 32767 < n.toInt.fdiv b.toInt →
        exec (.divl rd ea) s = .fault .divideOverflow))

/-- The model's choice (log 12): under `DIV_FAULT = result` no division stops on its operands' values;
`DIV`, `MOD` and, for an even `Rd`, `DIVL` complete wherever the operand can be read, with some values in
the registers they write and in the flags. -/
def Obligations.DivisionRunsUnderResult : Prop :=
  ∀ (s : State) (rd : Reg) (ea : Operand) (b : Word), s.cfg.divFault = .result → opval s ea = .next b →
    (∃ r f n, exec (.div rd ea) s = .next { s with regs := s.regs.set rd r, flags := f, draws := n }) ∧
    (∃ r f n, exec (.mod rd ea) s = .next { s with regs := s.regs.set rd r, flags := f, draws := n }) ∧
    (evenReg rd = true → ∃ q r f n, exec (.divl rd ea) s = .next { s with
      regs := (s.regs.set rd q).set (highReg rd) r, flags := f, draws := n })

/-- 42_multiply_divide.md R116: in the agreement zone `DIV`, `MOD`, `MULL` and `DIVL` give the same
registers under every value of `MULDIV_SIGNED`. -/
def Obligations.AgreementZone : Prop :=
  ∀ (s : State) (rd : Reg) (ea : Operand) (a b : Word), a = s.regs[rd] → opval s ea = .next b →
    b.toNat < 0x8000 → b ≠ 0#16 →
    (a.toNat < 0x8000 →
      (∃ f d, exec (.div rd ea) s = .next { s with
        regs := s.regs.set rd (BitVec.ofNat 16 (a.toNat / b.toNat)), flags := f, draws := d }) ∧
      (∃ f d, exec (.mod rd ea) s = .next { s with
        regs := s.regs.set rd (BitVec.ofNat 16 (a.toNat % b.toNat)), flags := f, draws := d })) ∧
    (∀ (hi : Reg) (n : BitVec 32), evenReg rd = true → hi.val = rd.val + 1 → n = s.regs[hi] ++ s.regs[rd] →
      (a.toNat < 0x8000 → ∃ f d, exec (.mull rd ea) s = .next { s with
        regs := (s.regs.set rd (BitVec.ofNat 16 (a.toNat * b.toNat))).set hi
          (BitVec.ofNat 16 (a.toNat * b.toNat / 65536))
        flags := f, draws := d }) ∧
      (n.toNat < 0x80000000 → n.toNat / b.toNat < 0x8000 → ∃ f d, exec (.divl rd ea) s = .next { s with
        regs := (s.regs.set rd (BitVec.ofNat 16 (n.toNat / b.toNat))).set hi
          (BitVec.ofNat 16 (n.toNat % b.toNat))
        flags := f, draws := d }))

/-- 42_multiply_divide.md R114: `DIVL` undoes `MULL` with the same non-zero operand in the zone: `Rd` is
back and `Rd+1` is 0. -/
def Obligations.DivlUndoesMull : Prop :=
  ∀ (s t : State) (rd hi : Reg) (ea : Operand) (b : Word), evenReg rd = true → hi.val = rd.val + 1 →
    s.regs[rd].toNat < 0x8000 → b.toNat < 0x8000 → b ≠ 0#16 → opval s ea = .next b → opval t ea = .next b →
    exec (.mull rd ea) s = .next t →
    ∃ u, exec (.divl rd ea) t = .next u ∧ u.regs[rd] = s.regs[rd] ∧ u.regs[hi] = 0#16

/-- Operands the rules refuse: `MULL` and `DIVL` with an odd `Rd` (42_multiply_divide.md R115), `PUSH` and
`POP` of the register that is `SP` (46_stack_return.md R180, R181). The model's
choice: no bytes decode to the first two, and their meanings refuse such a term (log 22); the last two are
refused with `spOperand` in every state, also where the access to the stack would stop (log 17). -/
def Obligations.RefusedRegisterOperands : Prop :=
  ∀ (s : State) (rd : Reg) (ea : Operand),
    (rd.val % 2 = 1 → exec (.mull rd ea) s = .refused .reservedEncoding ∧
      exec (.divl rd ea) s = .refused .reservedEncoding) ∧
    (s.cfg.spLoc = .reg rd → exec (.push rd) s = .refused .spOperand ∧
      exec (.pop rd) s = .refused .spOperand)

/-! ### Shifts -/

/-- Shifts by 0 to 15 (43_shift.md R130 to R133, R134) complete where the count can be read: `SHLA` and
`SHLL` multiply by 2^b, `SHRA` divides the signed value by 2^b rounding down, `SHRL` the unsigned one; `Z`
and `S` from the result, `C` and `V` some bits the rules leave open. -/
def Obligations.ShiftsUpToFifteen : Prop :=
  ∀ (s : State) (rd : Reg) (ea : Operand) (a b : Word), a = s.regs[rd] → opval s ea = .next b →
    b.toNat ≤ 15 →
    ∀ p ∈ ([(.shla rd ea, BitVec.ofNat 16 (a.toNat * 2 ^ b.toNat)),
        (.shll rd ea, BitVec.ofNat 16 (a.toNat * 2 ^ b.toNat)),
        (.shra rd ea, BitVec.ofInt 16 (a.toInt / 2 ^ b.toNat)),
        (.shrl rd ea, BitVec.ofNat 16 (a.toNat / 2 ^ b.toNat))] : List (Instr × Word)),
      ∃ c v n, exec p.1 s = .next { s with
        regs := s.regs.set rd p.2, flags := ⟨decide (p.2.toNat = 0), c, p.2.getLsbD 15, v⟩, draws := n }

/-- Shifts by 16 or more (43_shift.md R134) complete where the count can be read: `Rd` and all four flags
are left open, nothing else changes. -/
def Obligations.ShiftsBeyondFifteen : Prop :=
  ∀ (s : State) (rd : Reg) (ea : Operand) (b : Word), opval s ea = .next b → 16 ≤ b.toNat →
    ∀ i ∈ ([.shla rd ea, .shll rd ea, .shra rd ea, .shrl rd ea] : List Instr),
      ∃ r f n, exec i s = .next { s with regs := s.regs.set rd r, flags := f, draws := n }

/-! ### Jumps and call -/

/-- The 15 jumps (44_jump_call.md R140 to R155) complete in every state: where the source's formula holds
`pc` is the address the mode computes, else execution goes on with the following instruction; nothing else
changes. -/
def Obligations.JumpsTakenByFormula : Prop :=
  ∀ (s : State) (ea : JumpMode) (target : Word),
    target = (match ea with
      | .drct dsp => dsp
      | .index dsp rx => BitVec.ofNat 16 (dsp.toNat + s.regs[rx].toNat)
      | .indr rx => s.regs[rx]) →
    ∀ p ∈ ([(.jz ea, s.flags.z), (.jc ea, s.flags.c), (.jm ea, s.flags.s), (.jo ea, s.flags.v),
        (.jgt ea, !(s.flags.z || (s.flags.s ^^ s.flags.v))), (.jge ea, !(s.flags.s ^^ s.flags.v)),
        (.jle ea, s.flags.z || (s.flags.s ^^ s.flags.v)), (.jlt ea, s.flags.s ^^ s.flags.v),
        (.jnz ea, !s.flags.z), (.jnc ea, !s.flags.c), (.jnm ea, !s.flags.s), (.jno ea, !s.flags.v),
        (.jhi ea, !(s.flags.z || s.flags.c)), (.jls ea, s.flags.z || s.flags.c), (.jmp ea, true)]
        : List (Instr × Bool)),
      exec p.1 s = .next (if p.2 then { s with pc := target } else s)

/-- The table of 44_jump_call.md R140: after `CMP a,b` each conditional jump is taken exactly when the
relation of its row holds between `a` and `b`. -/
def Obligations.JumpsAfterCompare : Prop :=
  ∀ (s t : State) (rd : Reg) (ea : Operand) (j : JumpMode) (a b : Word), a = s.regs[rd] →
    opval s ea = .next b → exec (.cmp rd ea) s = .next t →
    ∀ p ∈ ([(.jz j, decide (a = b)), (.jc j, decide (a.toNat < b.toNat)),
        (.jm j, decide (0x8000 ≤ (a - b).toNat)),
        (.jo j, decide (a.toInt - b.toInt < -32768 ∨ 32767 < a.toInt - b.toInt)),
        (.jgt j, decide (b.toInt < a.toInt)), (.jge j, decide (b.toInt ≤ a.toInt)),
        (.jle j, decide (a.toInt ≤ b.toInt)), (.jlt j, decide (a.toInt < b.toInt)),
        (.jnz j, decide (a ≠ b)), (.jnc j, decide (b.toNat ≤ a.toNat)),
        (.jnm j, decide ((a - b).toNat < 0x8000)),
        (.jno j, decide (-32768 ≤ a.toInt - b.toInt ∧ a.toInt - b.toInt ≤ 32767)),
        (.jhi j, decide (b.toNat < a.toNat)), (.jls j, decide (a.toNat ≤ b.toNat))]
        : List (Instr × Bool)),
      exec p.1 t = .next (if p.2 then { t with pc := jumpTarget t j } else t)

/-- `CALL EA` (44_jump_call.md R156) completes where the word below `SP` can be written: that word is the
address of the following instruction, `SP` is two lower, `pc` is the address computed from the registers as
they were, and nothing else changes. -/
def Obligations.CallPushesReturnAddress : Prop :=
  ∀ (s : State) (ea : JumpMode), Memory.wf s.mem → alignedFor s.cfg (s.sp - 2#16) = true →
    wordWritable s.cfg (s.sp - 2#16) = true →
    ∃ m, exec (.call ea) s = .next { ({ s with mem := m } : State).setSp (s.sp - 2#16) with
        pc := jumpTarget s ea } ∧
      loadWord s.cfg m (s.sp - 2#16) = s.pc ∧
      ∀ k, k ≠ (firstByte s.cfg (s.sp - 2#16)).toNat → k ≠ (firstByte s.cfg (s.sp - 2#16) + 1#16).toNat →
        memGet m k = memGet s.mem k

/-! ### Input and output -/

/-- `IN Rd,EA` (45_io.md R170, 20_memory.md R41) completes in every state: `Rd` is the environment's
answer, in mode 7 a byte widened by `BYTE_EXT`; the input event is recorded. The model's choice (log 8): the
answer is the next one `ioIn` lists and uses it up, and is open after the list's end; a byte access takes
the low byte of a listed word. -/
def Obligations.InputWritesRegister : Prop :=
  ∀ (s : State) (rd : Reg) (ea : IoMode) (a : Word), a = portAddress s ea →
    ∃ v q n, (∀ x r, s.ioIn = x :: r → v = x ∧ q = r ∧ n = s.draws) ∧
      ((∀ r, ea ≠ .bIndr r) →
        exec (.inp rd ea) s = .next { s with
          regs := s.regs.set rd v, ioIn := q, draws := n, ioLog := s.ioLog ++ [.input a (.word v)] }) ∧
      (∀ r, ea = .bIndr r →
        exec (.inp rd ea) s = .next { s with
          regs := s.regs.set rd (match s.cfg.byteExt with
            | .zero => BitVec.ofNat 16 (v.toNat % 256)
            | .sign => BitVec.ofInt 16 (v.setWidth 8).toInt)
          ioIn := q, draws := n, ioLog := s.ioLog ++ [.input a (.byte (v.setWidth 8))] })

/-- `OUT Rd,EA` (45_io.md R171, 20_memory.md R41) completes in every state: the output event with `Rd`, in
mode 7 with its low byte, is recorded at the address of the mode, and nothing else changes. -/
def Obligations.OutputRecordsEvent : Prop :=
  ∀ (s : State) (rd : Reg),
    (∀ dsp, exec (.out rd (.drct dsp)) s =
      .next { s with ioLog := s.ioLog ++ [.output dsp (.word s.regs[rd])] }) ∧
    (∀ rx, exec (.out rd (.indr rx)) s =
      .next { s with ioLog := s.ioLog ++ [.output s.regs[rx] (.word s.regs[rd])] }) ∧
    (∀ rx, exec (.out rd (.bIndr rx)) s =
      .next { s with ioLog := s.ioLog ++ [.output s.regs[rx] (.byte (s.regs[rd].extractLsb' 0 8))] })

/-! ### Stack and return -/

/-- `PUSH Rd` (46_stack_return.md R180, R184), `Rd` not `SP`, completes where the word below `SP` can be
written: that word is `Rd`, `SP` is two lower, nothing else changes. -/
def Obligations.PushStoresRegister : Prop :=
  ∀ (s : State) (rd : Reg), Memory.wf s.mem → s.cfg.spLoc ≠ .reg rd →
    alignedFor s.cfg (s.sp - 2#16) = true → wordWritable s.cfg (s.sp - 2#16) = true →
    ∃ m, exec (.push rd) s = .next (({ s with mem := m } : State).setSp (s.sp - 2#16)) ∧
      loadWord s.cfg m (s.sp - 2#16) = s.regs[rd] ∧
      ∀ k, k ≠ (firstByte s.cfg (s.sp - 2#16)).toNat → k ≠ (firstByte s.cfg (s.sp - 2#16) + 1#16).toNat →
        memGet m k = memGet s.mem k

/-- `POP Rd` (46_stack_return.md R181, R184), `Rd` not `SP`, completes where the word at `SP` can be read:
it goes to `Rd`, `SP` is two higher, nothing else changes. -/
def Obligations.PopLoadsRegister : Prop :=
  ∀ (s : State) (rd : Reg) (v : Word), s.cfg.spLoc ≠ .reg rd → readWord s s.sp = .next v →
    ∃ t, exec (.pop rd) s = .next t ∧ t.reg rd = v ∧ t.sp = s.sp + 2#16 ∧
      t = { s with regs := t.regs, spOwn := t.spOwn } ∧
      ∀ i, i ≠ rd → s.cfg.spLoc ≠ .reg i → t.reg i = s.reg i

/-- `RET` (46_stack_return.md R182, R184) completes where the word at `SP` can be read: it goes to `pc`,
`SP` is two higher, nothing else changes. -/
def Obligations.ReturnLoadsPc : Prop :=
  ∀ (s : State) (v : Word), readWord s s.sp = .next v →
    exec .ret s = .next { s.setSp (s.sp + 2#16) with pc := v }

/-- `RETI` (46_stack_return.md R183) completes where the two words at `SP` and `SP + 2` can be read: the
first goes to `FLAG` (decoded by the code of `FLAG_LAYOUT`, each flag from its bit, `IE` where the layout
holds it), the second to `pc`, `SP` is four higher, nothing else changes. -/
def Obligations.ReturnFromInterruptRestores : Prop :=
  ∀ (s : State) (f v : Word), readWord s s.sp = .next f → readWord s (s.sp + 2#16) = .next v →
    ∃ g, g = decodeFlag s.cfg.flagLayout f ∧ (s.cfg.flagLayout.code = [] → g = f) ∧
      exec .reti s = .next { s.setSp (s.sp + 4#16) with
        pc := v
        flags := ⟨g.getLsbD s.cfg.flagLayout.z, g.getLsbD s.cfg.flagLayout.c, g.getLsbD s.cfg.flagLayout.s,
          g.getLsbD s.cfg.flagLayout.v⟩
        ie := (match s.cfg.flagLayout.ie with
          | some i => g.getLsbD i
          | none => s.ie)
        flagRest := restOf s.cfg.flagLayout g }

/-- `CALL` then `RET`, and `PUSH Ra` then `POP Rb`, each undo the other's `SP` (46_stack_return.md R184):
execution returns to the instruction after the call, and `Rb` is `Ra`. -/
def Obligations.PopsUndoPushes : Prop :=
  ∀ (s t : State) (ea : JumpMode) (ra rb : Reg), Memory.wf s.mem → wordReadable s.cfg (s.sp - 2#16) = true →
    (exec (.call ea) s = .next t → ∃ u, exec .ret t = .next u ∧ u.pc = s.pc ∧ u.sp = s.sp ∧
      (∀ i, u.reg i = s.reg i) ∧ u.flags = s.flags) ∧
    (exec (.push ra) s = .next t → s.cfg.spLoc ≠ .reg rb → ∃ u, exec (.pop rb) t = .next u ∧
      u.reg rb = s.reg ra ∧ u.sp = s.sp)

/-! ### Traps -/

/-- Trap entry (60_exceptions.md R206): where the two words below `SP` can be written and the handler's
address is there, `pc` and then the `FLAG` word, as they were, are on the stack, `SP` is four lower, `IE` is
cleared under `TRAP_IE = clear` and kept under `keep`, `pc` is the handler's address, and the flags, the
other registers, every other byte and all other state are unchanged. -/
def Obligations.TrapEntryAsStated : Prop :=
  ∀ (s : State) (h : Handler) (target : Word), Memory.wf s.mem → handlerAddress s h = .next target →
    alignedFor s.cfg (s.sp - 2#16) = true → wordWritable s.cfg (s.sp - 2#16) = true →
    alignedFor s.cfg (s.sp - 4#16) = true → wordWritable s.cfg (s.sp - 4#16) = true →
    ∃ m e, trapEntry h s = .next { ({ s with mem := m } : State).setSp (s.sp - 4#16) with
        pc := target, ie := e } ∧
      (s.cfg.trapIe = .clear → e = false) ∧ (s.cfg.trapIe = .keep → e = s.ie) ∧
      loadWord s.cfg m (s.sp - 2#16) = s.pc ∧
      loadWord s.cfg m (s.sp - 4#16) = flagPack s.cfg.flagLayout s.flags s.ie s.flagRest ∧
      ∀ k, k ≠ (firstByte s.cfg (s.sp - 2#16)).toNat → k ≠ (firstByte s.cfg (s.sp - 2#16) + 1#16).toNat →
        k ≠ (firstByte s.cfg (s.sp - 4#16)).toNat → k ≠ (firstByte s.cfg (s.sp - 4#16) + 1#16).toNat →
        memGet m k = memGet s.mem k

/-- `SVC` (47_system.md R192, 60_exceptions.md R206, R210) is trap entry with the handler `VECTOR(svc)`, and
completes, whatever `IE` is, where trap entry can push: the address of the following instruction and the
`FLAG` word as it was are on the stack, `SP` is four lower, `IE` is cleared under `TRAP_IE = clear` and kept
under `keep`, `pc` is the handler's address, the flags and the other registers are unchanged. -/
def Obligations.SupervisorCallEnters : Prop :=
  ∀ s : State, exec .svc s = trapEntry s.cfg.svcHandler s ∧
    ∀ target : Word, Memory.wf s.mem → handlerAddress s s.cfg.svcHandler = .next target →
      alignedFor s.cfg (s.sp - 2#16) = true → wordWritable s.cfg (s.sp - 2#16) = true →
      alignedFor s.cfg (s.sp - 4#16) = true → wordWritable s.cfg (s.sp - 4#16) = true →
      ∃ t, exec .svc s = .next t ∧ t.pc = target ∧ t.sp = s.sp - 4#16 ∧ t.flags = s.flags ∧
        (s.cfg.trapIe = .clear → t.ie = false) ∧ (s.cfg.trapIe = .keep → t.ie = s.ie) ∧
        loadWord t.cfg t.mem (s.sp - 2#16) = s.pc ∧
        loadWord t.cfg t.mem (s.sp - 4#16) = flagPack s.cfg.flagLayout s.flags s.ie s.flagRest ∧
        (∀ i, s.cfg.spLoc ≠ .reg i → t.reg i = s.reg i)

/-- A trap and the `RETI` that ends its handler (60_exceptions.md R206, R209): from any state in which `SP`
is as trap entry left it and the two words it pushed read as it left them, `RETI` restores `pc`, `SP`, the
flags, `FLAG_REST`, and `IE` where the layout holds it, whatever else the handler changed, the rest of
memory included. -/
def Obligations.ReturnUndoesTrapEntry : Prop :=
  ∀ (s t u : State) (h : Handler), StateInv s → trapEntry h s = .next t →
    wordReadable s.cfg (s.sp - 2#16) = true → wordReadable s.cfg (s.sp - 4#16) = true →
    u.cfg = t.cfg → u.sp = t.sp →
    loadWord u.cfg u.mem (s.sp - 2#16) = loadWord t.cfg t.mem (s.sp - 2#16) →
    loadWord u.cfg u.mem (s.sp - 4#16) = loadWord t.cfg t.mem (s.sp - 4#16) →
    ∃ r, exec .reti u = .next r ∧ r.pc = s.pc ∧ r.sp = s.sp ∧ r.flags = s.flags ∧
      r.flagRest = s.flagRest ∧ (s.cfg.flagLayout.ie ≠ none → r.ie = s.ie) ∧
      (s.cfg.flagLayout.ie = none → r.ie = u.ie)

/-- 10_state.md R17: `flag_unpack` undoes `flag_pack`, for every layout. -/
def Obligations.FlagUnpackUndoesPack : Prop :=
  ∀ (l : FlagLayout) (f : Flags) (ie old : Bool) (rest : Word), restOf l rest = rest →
    unpackFlags l (flagPack l f ie rest) = f ∧
    unpackRest l (flagPack l f ie rest) = rest ∧
    unpackIe l (flagPack l f ie rest) old = if l.ie = none then old else ie

/-! ### The step -/

/-- A step runs the decoded instruction (60_exceptions.md R200): with the CPU running and no request taken,
where the words at `pc` decode to `i`, the step is `exec` of `i` on the state with `pc` advanced past it. That
the boundary's request, if any was presented, is gone (`requests.tail`) is the model's choice (log 9). -/
def Obligations.StepRunsDecodedInstruction : Prop :=
  ∀ (s : State) (w1 : Word), s.halted = false → accepted s = none → readWord s s.pc = .next w1 →
    (∀ i, decodeFirst w1 = .ok (.one i) →
      step s = exec i { s with pc := s.pc + 2#16, requests := s.requests.tail }) ∧
    (∀ f w2, decodeFirst w1 = .ok (.two f) → readWord s (s.pc + 2#16) = .next w2 →
      step s = exec (f w2) { s with pc := s.pc + 4#16, requests := s.requests.tail })

/-- A fetch that cannot be made (60_exceptions.md R200, 30_encoding.md R70, 20_memory.md R37): a reserved
encoding is refused under `ILLEGAL = refuse`, an odd `pc` is refused under `MISALIGNED = refuse`, and the stop of a word's read is the
stop of the step. -/
def Obligations.StepStopsOnBadFetch : Prop :=
  ∀ s : State, s.halted = false → accepted s = none →
    (s.cfg.illegal = .refuse → ∀ w1 e, readWord s s.pc = .next w1 → decodeFirst w1 = .error e →
      step s = .refused .reservedEncoding) ∧
    (s.cfg.misaligned = .refuse → s.pc.toNat % 2 = 1 → step s = .refused .misaligned) ∧
    (∀ r, readWord s s.pc = .fault r → step s = .fault r) ∧
    (∀ w1 f r, readWord s s.pc = .next w1 → decodeFirst w1 = .ok (.two f) →
      readWord s (s.pc + 2#16) = .fault r → step s = .fault r)

/-- A request is taken at a boundary exactly when one with a cause of `CAUSES` is presented and `IE` is 1
(60_exceptions.md R200, R202, R204): then the step is trap entry, with the displaced instruction's address as
the `pc` that is saved. With `IE` 0 the step is as if none was presented. The model's choice (log 9): the
entry of `requests` is used up, taken or not, and a cause not in `CAUSES`, which R202 lets no environment
present, counts as none. -/
def Obligations.RequestTakenOnlyWhenEnabled : Prop :=
  ∀ (s : State) (n : Nat) (rest : List (Option Nat)), s.halted = false → s.requests = some n :: rest →
    (∀ h, s.ie = true → s.cfg.causes.lookup n = some h →
      step s = trapEntry h { s with requests := rest }) ∧
    (s.ie = false ∨ s.cfg.causes.lookup n = none → step s = step { s with requests := none :: rest })

/-- The halted condition (47_system.md R194). Under `HALT_WAKE = no` no number of steps changes the state or
faults. Under `yes` a request that is accepted clears `halted` and enters the trap with the `pc` after the
`HALT`; without one the CPU stays halted. R194 gives a halted state no further step: that the model's step
answers the same state there, and that under `yes` it uses up one boundary, is the model's choice (log 11,
log 9). -/
def Obligations.HaltedStays : Prop :=
  ∀ s : State, s.halted = true →
    (s.cfg.haltWake = .no → (∀ k, Sys2Proof.core.run k s = .next s) ∧ NeverFaults s) ∧
    (s.cfg.haltWake = .yes →
      (∀ h, accepted s = some h → step s = trapEntry h { s with halted := false, requests := s.requests.tail }) ∧
      (accepted s = none → step s = .next { s with requests := s.requests.tail }))

/-! ### What an instruction leaves unchanged -/

/-- 10_state.md R15: every numbered register but those an instruction writes (its destination or pair, and
`SP` for the stack instructions) is unchanged; a separate `SP` changes only by an instruction that moves
`SP`. -/
def Obligations.RegisterFrame : Prop :=
  ∀ (i : Instr) (s t : State), exec i s = .next t →
    (∀ r, r ∉ writtenRegs s.cfg i → t.reg r = s.reg r) ∧
    (movesSp i = false ∨ s.cfg.spLoc ≠ .separate → t.spOwn = s.spOwn)

/-- 10_state.md R20: the instructions of the column "unchanged" leave all four flags; `IE` is left by every
instruction but `EI`, `DI`, `SVC` and `RETI`, `FLAG_REST` by every one but `RETI`. -/
def Obligations.FlagFrame : Prop :=
  ∀ (i : Instr) (s t : State), exec i s = .next t →
    (changesFlags i = false → t.flags = s.flags) ∧
    (i ≠ .ei → i ≠ .di → i ≠ .svc → i ≠ .reti → t.ie = s.ie) ∧
    (i ≠ .reti → t.flagRest = s.flagRest)

/-- 20_memory.md R38: every byte an instruction does not store to reads as before. The stored bytes are
computed by `storedBytes` from the address the meaning itself uses; for an instruction that stores nothing
there are none. -/
def Obligations.MemoryFrame : Prop :=
  ∀ (i : Instr) (s t : State), exec i s = .next t →
    ∀ k : Nat, (∀ a ∈ storedBytes s i, a.toNat ≠ k) → memGet t.mem k = memGet s.mem k

/-- What else an instruction leaves: `pc` unless it is a jump, call, return or `SVC`; `halted` unless it is
`HALT`; the events and answers of the I/O space unless it is `IN` or `OUT` (10_state.md R24); the requests and
the parameters always. -/
def Obligations.ControlFrame : Prop :=
  ∀ (i : Instr) (s t : State), exec i s = .next t →
    (writesPc i = false → t.pc = s.pc) ∧
    (i ≠ .halt → t.halted = s.halted) ∧
    ((∀ rd ea, i ≠ .inp rd ea) → t.ioIn = s.ioIn ∧ ((∀ rd ea, i ≠ .out rd ea) → t.ioLog = s.ioLog)) ∧
    t.requests = s.requests ∧ t.cfg = s.cfg

/-- No step changes a parameter (00_scope.md R6) or takes back an I/O event (20_memory.md R41), and the
environment's lists only shrink, by one entry at most. That the parameters stand in `cfg`, draws are a count,
and answers and requests are lists of which a step uses up the first is the model's own bookkeeping (logs 1,
5, 8 and 9). -/
def Obligations.StepOnlyExtendsHistory : Prop :=
  ∀ s t : State, step s = .next t →
    t.cfg = s.cfg ∧ (∃ l, t.ioLog = s.ioLog ++ l) ∧ s.draws ≤ t.draws ∧
    (t.requests = s.requests ∨ t.requests = s.requests.tail) ∧ (t.ioIn = s.ioIn ∨ t.ioIn = s.ioIn.tail)

/-- The numbers of 70_reset_and_hazards.md R236, per row and mode: constants but for the shifts, whose number
grows by the shift count, and the conditional jumps, which have 4 where they are not taken and 5 where they
are; nothing else depends on data (R237). They are non-normative, and no step counts them (log 21). -/
def Obligations.StateCountDataDependence : Prop :=
  ∀ (s : State) (rd rx rs : Reg) (w : Word) (d4 i4 : BitVec 4) (j : JumpMode) (eight : List Operand),
    eight = [.mem (.drct w), .mem (.index w rx), .imm w, .mem (.fpRlt d4), .reg rs, .imm4 i4, .mem (.indr rx),
      .mem (.bIndr rx)] →
    (∀ p ∈ ([(.ld, [7, 7, 5, 7, 4, 4, 6, 6]), (.add, [7, 7, 5, 7, 5, 4, 6, 6]), (.sub, [7, 7, 5, 7, 5, 4, 6, 6]),
        (.cmp, [7, 7, 5, 7, 5, 4, 6, 6]), (.and, [7, 7, 5, 7, 5, 4, 6, 6]), (.or, [7, 7, 5, 7, 5, 4, 6, 6]),
        (.xor, [7, 7, 5, 7, 5, 4, 6, 6]), (.adds, [8, 8, 6, 8, 6, 5, 7, 7]),
        (.mul, [57, 57, 55, 57, 55, 54, 56, 56]), (.mull, [57, 57, 55, 57, 55, 54, 56, 56]),
        (.div, [73, 73, 71, 73, 71, 70, 72, 72]), (.mod, [73, 73, 71, 73, 71, 70, 72, 72]),
        (.divl, [73, 73, 71, 73, 71, 70, 72, 72])] : List ((Reg → Operand → Instr) × List Nat)),
      eight.map (fun ea => stateCount (p.1 rd ea) s) = p.2.map .next) ∧
    (∀ k ∈ ([.shla, .shll, .shra, .shrl] : List (Reg → Operand → Instr)),
      ∀ q ∈ eight.zip [8, 8, 6, 8, 6, 5, 7, 7], ∀ n : Word, opval s q.1 = .next n →
        stateCount (k rd q.1) s = .next (q.2 + n.toNat)) ∧
    ([.drct w, .index w rx, .fpRlt d4, .indr rx, .bIndr rx].map (fun a => stateCount (.st rd a) s) =
      [6, 6, 6, 5, 5].map .next) ∧
    (∀ p ∈ ([(.jz j, s.flags.z), (.jc j, s.flags.c), (.jm j, s.flags.s), (.jo j, s.flags.v),
        (.jgt j, !(s.flags.z || (s.flags.s ^^ s.flags.v))), (.jge j, !(s.flags.s ^^ s.flags.v)),
        (.jle j, s.flags.z || (s.flags.s ^^ s.flags.v)), (.jlt j, s.flags.s ^^ s.flags.v),
        (.jnz j, !s.flags.z), (.jnc j, !s.flags.c), (.jnm j, !s.flags.s), (.jno j, !s.flags.v),
        (.jhi j, !(s.flags.z || s.flags.c)), (.jls j, s.flags.z || s.flags.c)] : List (Instr × Bool)),
      stateCount p.1 s = .next (if p.2 then 5 else 4)) ∧
    ([.drct w, .indr rx, .bIndr rx].map (fun a => stateCount (.inp rd a) s) = [7, 6, 6].map .next) ∧
    ([.drct w, .indr rx, .bIndr rx].map (fun a => stateCount (.out rd a) s) = [6, 5, 5].map .next) ∧
    ∀ p ∈ ([(.no, 3), (.ldFlag rd, 4), (.jmp j, 5), (.call j, 6), (.push rd, 5), (.pop rd, 6), (.ret, 6),
        (.reti, 9), (.ei, 5), (.di, 5), (.svc, 12), (.halt, 5)] : List (Instr × Nat)),
      stateCount p.1 s = .next p.2

/-! ### Trap entries that stop, and reserved encodings -/

/-- Where trap entry stops (60_exceptions.md R206, R207; R200: a raise anywhere abandons the step), for the
entry itself, for `SVC`, and for a step that takes a request, running or halted: at the push of `pc`, at the
push of the `FLAG` word where the first can be made, at the read of a vector slot where both can (log 10: the
slot is read after the pushes are checked). That the request's entry is gone when the entry begins
(`requests.tail`) is the model's choice (log 9), as is that a woken CPU clears `halted` first (log 25). The
second push is aligned where the first is, so only its fault is left to say. -/
def Obligations.TrapEntryStops : Prop :=
  ∀ (s : State) (h : Handler) (x : Res State),
    (x = trapEntry h s ∨ (x = exec .svc s ∧ h = s.cfg.svcHandler) ∨
      (∃ u : State, u.halted = false ∧ accepted u = some h ∧ s = { u with requests := u.requests.tail } ∧
        x = step u) ∨
      ∃ u : State, u.halted = true ∧ u.cfg.haltWake = .yes ∧ accepted u = some h ∧
        s = { u with halted := false, requests := u.requests.tail } ∧ x = step u) →
    (∀ r, writeWord s (s.sp - 2#16) s.pc = .fault r → x = .fault r) ∧
    (∀ r, writeWord s (s.sp - 2#16) s.pc = .refused r → x = .refused r) ∧
    (∀ t r, writeWord s (s.sp - 2#16) s.pc = .next t → writeWord s (s.sp - 4#16) s.flagWord = .fault r →
      x = .fault r) ∧
    (∀ t t' a, writeWord s (s.sp - 2#16) s.pc = .next t → writeWord s (s.sp - 4#16) s.flagWord = .next t' →
      h = .slot a →
      (∀ r, readWord s a = .fault r → x = .fault r) ∧ (∀ r, readWord s a = .refused r → x = .refused r))

/-- A reserved encoding by the value of `ILLEGAL` (30_encoding.md R70, 92_eei_decisions.md D21), with the CPU
running and no request taken: refused under `refuse`. The model's choice for the trap that no document
describes (log 13): under `trap` the step is trap entry to the parameter's handler, with the address of the
encoding's first word, or the one after that word, as the `pc` that is saved; and the boundary's request, if
any was presented, is gone (`requests.tail`, log 9). -/
def Obligations.ReservedEncodingByParameter : Prop :=
  ∀ (s : State) (w1 : Word) (e : Reject), s.halted = false → accepted s = none →
    readWord s s.pc = .next w1 → decodeFirst w1 = .error e →
    (s.cfg.illegal = .refuse → step s = .refused .reservedEncoding) ∧
    (∀ h, s.cfg.illegal = .trap h .this → step s = trapEntry h { s with requests := s.requests.tail }) ∧
    (∀ h, s.cfg.illegal = .trap h .following →
      step s = trapEntry h { s with pc := s.pc + 2#16, requests := s.requests.tail })

/-- The parameter of the model gives every `FLAG_LAYOUT` of 10_state.md R17 (92_eei_decisions.md D24): for
places of the named flags, any pair of total functions with `flag_unpack(flag_pack(f)) = f` (over `IE` too
where the word holds it; where it does not, `flag_pack` ignores it, R19) is that of some code. That
`FLAG_REST` is a word with the named flags' bits 0 is log 7, that the layout is places and a code log 6. -/
def Obligations.FlagLayoutGivesEveryPair : Prop :=
  ∀ (l : FlagLayout) (pack : Flags → Bool → Word → Word) (unpack : Word → Flags × Bool × Word),
    (∀ f ie rest, restOf l rest = rest → (unpack (pack f ie rest)).1 = f ∧
      (l.ie ≠ none → (unpack (pack f ie rest)).2.1 = ie) ∧ (unpack (pack f ie rest)).2.2 = rest) →
    (l.ie = none → ∀ f ie ie' rest, pack f ie rest = pack f ie' rest) →
    ∃ c : List (Word × Word), ∀ k : FlagLayout, k = { l with code := c } →
      (∀ f ie rest, restOf l rest = rest → flagPack k f ie rest = pack f ie rest) ∧
      ∀ w old, unpackFlags k w = (unpack w).1 ∧ unpackRest k w = (unpack w).2.2 ∧
        (l.ie ≠ none → unpackIe k w old = (unpack w).2.1)
end

