-- ==== Sys2Proof/Laws/Memory.lean ====
section
/-! SUPPORT. The laws of bytes and words of memory: read after write, what a write leaves alone, and the
canonical form kept by every memory operation. -/

namespace Sys2Proof.Machine

/-! ### Bytes -/

@[simp] theorem memGet_nil (a : Nat) : memGet [] a = unlistedByte := rfl

theorem memGet_cons (k : Nat) (b : Byte) (m : Memory) (a : Nat) :
    memGet ((k, b) :: m) a = if k = a then b else memGet m a := rfl

/-- No address at or below a bound under which nothing is listed. -/
theorem memGet_of_forall_lt {m : Memory} {a : Nat} (h : ∀ x ∈ m, a < x.1) : memGet m a = unlistedByte := by
  induction m with
  | nil => rfl
  | cons x m ih =>
    obtain ⟨k, b⟩ := x
    have hk : a < k := h (k, b) (by simp)
    rw [memGet_cons, if_neg (by omega)]
    exact ih fun y hy => h y (by simp [hy])

theorem memGet_memCons_ne {a a' : Nat} (h : a' ≠ a) (v : Byte) (m : Memory) :
    memGet (memCons a v m) a' = memGet m a' := by
  unfold memCons
  split
  · rfl
  · rw [memGet_cons, if_neg (Ne.symm h)]

theorem memGet_memCons_same {a : Nat} (v : Byte) {m : Memory} (h : memGet m a = unlistedByte) :
    memGet (memCons a v m) a = v := by
  unfold memCons
  split
  · next hv => rw [h, hv]
  · rw [memGet_cons, if_pos rfl]

/-- A byte write leaves every other address alone. -/
theorem memGet_memSet_ne {a a' : Nat} (h : a' ≠ a) (m : Memory) (v : Byte) :
    memGet (memSet m a v) a' = memGet m a' := by
  induction m with
  | nil => exact memGet_memCons_ne h v []
  | cons x m ih =>
    obtain ⟨k, b⟩ := x
    unfold memSet
    split
    · exact memGet_memCons_ne h v _
    · split
      · next hk => rw [memGet_memCons_ne h, memGet_cons, if_neg (by omega)]
      · rw [memGet_cons, memGet_cons, ih]

/-- In a memory of canonical form a byte reads back as it was written. -/
theorem memGet_memSet_same {m : Memory} (h : m.Pairwise fun x y => x.1 < y.1) (a : Nat) (v : Byte) :
    memGet (memSet m a v) a = v := by
  induction m with
  | nil => exact memGet_memCons_same v rfl
  | cons x m ih =>
    obtain ⟨k, b⟩ := x
    rw [List.pairwise_cons] at h
    unfold memSet
    split
    · next hk =>
      refine memGet_memCons_same v (memGet_of_forall_lt fun y hy => ?_)
      rcases List.mem_cons.1 hy with rfl | hy
      · exact hk
      · have := h.1 y hy; simp at this; omega
    · split
      · next hk =>
        subst hk
        exact memGet_memCons_same v (memGet_of_forall_lt fun y hy => h.1 y hy)
      · next hk => rw [memGet_cons, if_neg (Ne.symm hk), ih h.2]

/-! ### The canonical form -/

/-- The canonical form: addresses strictly rising, in the address space, no entry an unlisted byte. -/
theorem memory_wf_iff {m : Memory} :
    Memory.wf m = true ↔
      m.Pairwise (fun x y => x.1 < y.1) ∧ ∀ x ∈ m, x.1 < 65536 ∧ x.2 ≠ unlistedByte := by
  simp [Memory.wf]

@[simp] theorem memory_wf_nil : Memory.wf [] = true := rfl

theorem memory_wf_pairwise {m : Memory} (h : Memory.wf m = true) : m.Pairwise fun x y => x.1 < y.1 :=
  (memory_wf_iff.1 h).1

theorem mem_memCons {x : Host.Cell} {a : Nat} {v : Byte} {m : Memory} (h : x ∈ memCons a v m) :
    x = (a, v) ∧ v ≠ unlistedByte ∨ x ∈ m := by
  unfold memCons at h
  split at h
  · exact .inr h
  · next hv =>
    rcases List.mem_cons.1 h with h | h
    · exact .inl ⟨h, hv⟩
    · exact .inr h

theorem memCons_wf {a : Nat} {v : Byte} {m : Memory} (ha : a < 65536) (hm : Memory.wf m = true)
    (hlt : ∀ x ∈ m, a < x.1) : Memory.wf (memCons a v m) = true := by
  rw [memory_wf_iff] at *
  unfold memCons
  split
  · exact hm
  · next hv =>
    refine ⟨List.pairwise_cons.2 ⟨fun y hy => hlt y hy, hm.1⟩, fun x hx => ?_⟩
    rcases List.mem_cons.1 hx with rfl | hx
    · exact ⟨ha, hv⟩
    · exact hm.2 x hx

theorem mem_memSet {x : Host.Cell} {a : Nat} {v : Byte} {m : Memory} (h : x ∈ memSet m a v) :
    x = (a, v) ∧ v ≠ unlistedByte ∨ x ∈ m := by
  induction m with
  | nil => exact mem_memCons h
  | cons y m ih =>
    obtain ⟨k, b⟩ := y
    unfold memSet at h
    split at h
    · exact mem_memCons h
    · split at h
      · exact (mem_memCons h).imp_right (List.mem_cons_of_mem _)
      · rcases List.mem_cons.1 h with rfl | h
        · exact .inr (by simp)
        · exact (ih h).imp_right (List.mem_cons_of_mem _)

/-- A byte write inside the address space keeps the canonical form. -/
theorem memSet_wf {a : Nat} {m : Memory} (ha : a < 65536) (v : Byte) (hm : Memory.wf m = true) :
    Memory.wf (memSet m a v) = true := by
  induction m with
  | nil => exact memCons_wf ha hm (by simp)
  | cons y m ih =>
    obtain ⟨k, b⟩ := y
    obtain ⟨hp, hb⟩ := memory_wf_iff.1 hm
    rw [List.pairwise_cons] at hp
    have htl : Memory.wf m = true :=
      memory_wf_iff.2 ⟨hp.2, fun x hx => hb x (List.mem_cons_of_mem _ hx)⟩
    unfold memSet
    split
    · next hk =>
      refine memCons_wf ha hm fun x hx => ?_
      rcases List.mem_cons.1 hx with rfl | hx
      · exact hk
      · have := hp.1 x hx; simp at this; omega
    · split
      · next hk => subst hk; exact memCons_wf ha htl fun x hx => hp.1 x hx
      · next h1 h2 =>
        have ih := memory_wf_iff.1 (ih htl)
        refine memory_wf_iff.2 ⟨List.pairwise_cons.2 ⟨fun x hx => ?_, ih.1⟩, fun x hx => ?_⟩
        · rcases mem_memSet hx with ⟨rfl, -⟩ | hx
          · simp; omega
          · exact hp.1 x hx
        · rcases List.mem_cons.1 hx with rfl | hx
          · exact hb _ (by simp)
          · exact ih.2 x hx

/-! ### Words -/

/-- The two bytes of a word give the word back, in either order. -/
@[simp] theorem bytesWord_wordBytes (o : ByteOrder) (w : Word) :
    bytesWord o (wordBytes o w).1 (wordBytes o w).2 = w := by
  cases o <;>
  · simp only [bytesWord, wordBytes]
    ext i hi
    simp
    grind

/-- Two bytes made a word give the bytes back, in either order. -/
@[simp] theorem wordBytes_bytesWord (o : ByteOrder) (b0 b1 : Byte) :
    wordBytes o (bytesWord o b0 b1) = (b0, b1) := by
  cases o <;> simp only [bytesWord, wordBytes, Prod.mk.injEq] <;> constructor <;>
  · ext i hi
    simp
    try grind

/-- The two bytes of a word lie at different addresses, at the top of memory too. -/
theorem toNat_add_one_ne (a : Word) : (a + 1#16).toNat ≠ a.toNat := by
  intro h
  have : a + 1 = a := BitVec.eq_of_toNat_eq h
  simp at this

theorem storeWord_wf {c : Config} {m : Memory} (a v : Word) (h : Memory.wf m = true) :
    Memory.wf (storeWord c m a v) = true :=
  memSet_wf (BitVec.isLt _) _ (memSet_wf (BitVec.isLt _) _ h)

/-- A word write leaves every byte but its two alone. -/
theorem memGet_storeWord_ne {c : Config} {a : Word} {k : Nat} (h0 : k ≠ (firstByte c a).toNat)
    (h1 : k ≠ (firstByte c a + 1#16).toNat) (m : Memory) (v : Word) :
    memGet (storeWord c m a v) k = memGet m k := by
  rw [storeWord, memGet_memSet_ne h1, memGet_memSet_ne h0]

/-- The byte at the lower address after a word write. -/
theorem memGet_storeWord_first {c : Config} {m : Memory} (h : Memory.wf m = true) (a v : Word) :
    memGet (storeWord c m a v) (firstByte c a).toNat = (wordBytes c.byteOrder v).1 := by
  rw [storeWord, memGet_memSet_ne (Ne.symm (toNat_add_one_ne _)), memGet_memSet_same (memory_wf_pairwise h)]

/-- The byte at the higher address after a word write. -/
theorem memGet_storeWord_second {c : Config} {m : Memory} (h : Memory.wf m = true) (a v : Word) :
    memGet (storeWord c m a v) (firstByte c a + 1#16).toNat = (wordBytes c.byteOrder v).2 := by
  rw [storeWord, memGet_memSet_same (memory_wf_pairwise (memSet_wf (BitVec.isLt _) _ h))]

/-- A word reads back as it was written, in either byte order and under every `MISALIGNED`. -/
theorem loadWord_storeWord {c : Config} {m : Memory} (h : Memory.wf m = true) (a v : Word) :
    loadWord c (storeWord c m a v) a = v := by
  rw [loadWord, memGet_storeWord_first h, memGet_storeWord_second h, bytesWord_wordBytes]

/-- A word reads as before after a word write to two other bytes. -/
theorem loadWord_storeWord_ne {c : Config} {a b : Word} (h00 : firstByte c b ≠ firstByte c a)
    (h01 : firstByte c b ≠ firstByte c a + 1#16) (h10 : firstByte c b + 1#16 ≠ firstByte c a)
    (m : Memory) (v : Word) : loadWord c (storeWord c m a v) b = loadWord c m b := by
  have ne {x y : Word} (h : x ≠ y) : x.toNat ≠ y.toNat := fun e => h (BitVec.eq_of_toNat_eq e)
  have h11 : firstByte c b + 1#16 ≠ firstByte c a + 1#16 := fun e => h00 (by simpa using e)
  rw [loadWord, loadWord, memGet_storeWord_ne (ne h00) (ne h01), memGet_storeWord_ne (ne h10) (ne h11)]

/-- Clearing bit 0 rounds an address down to an even one. -/
theorem toNat_mask (a : Word) : (a &&& 0xFFFE#16).toNat = a.toNat / 2 * 2 := by
  have h : a &&& 0xFFFE#16 = (a >>> 1) <<< 1 := by
    ext i hi
    interval_cases i <;> simp
  rw [h, BitVec.toNat_shiftLeft, BitVec.toNat_ushiftRight, Nat.shiftRight_one, Nat.shiftLeft_eq]
  have := a.isLt
  omega

/-- The word two bytes below `a` starts two bytes below the word at `a`, under every `MISALIGNED`. -/
theorem firstByte_sub_two (c : Config) (a : Word) : firstByte c (a - 2#16) = firstByte c a - 2#16 := by
  unfold firstByte
  split
  · rfl
  · rfl
  · apply BitVec.eq_of_toNat_eq
    rw [toNat_mask, BitVec.toNat_sub, BitVec.toNat_sub, toNat_mask]
    have := a.isLt
    simp
    omega

end Sys2Proof.Machine
end

