-- ==== Sys2Proof/Laws/State.lean ====
section
/-! SUPPORT. What each update of a state does to each field: one lemma per field per update, so that no later
proof unfolds a record update; then the register, `SP` and `FLAG` accessors over the updates. -/

namespace Sys2Proof.Machine

variable (s : State)

/-! ### setReg -/

@[simp] theorem State.setReg_regs (i : Reg) (v : Word) :
    (s.setReg i v).regs = s.regs.set i v := rfl
@[simp] theorem State.setReg_spOwn (i : Reg) (v : Word) : (s.setReg i v).spOwn = s.spOwn := rfl
@[simp] theorem State.setReg_pc (i : Reg) (v : Word) : (s.setReg i v).pc = s.pc := rfl
@[simp] theorem State.setReg_flags (i : Reg) (v : Word) : (s.setReg i v).flags = s.flags := rfl
@[simp] theorem State.setReg_ie (i : Reg) (v : Word) : (s.setReg i v).ie = s.ie := rfl
@[simp] theorem State.setReg_flagRest (i : Reg) (v : Word) : (s.setReg i v).flagRest = s.flagRest := rfl
@[simp] theorem State.setReg_halted (i : Reg) (v : Word) : (s.setReg i v).halted = s.halted := rfl
@[simp] theorem State.setReg_mem (i : Reg) (v : Word) : (s.setReg i v).mem = s.mem := rfl
@[simp] theorem State.setReg_requests (i : Reg) (v : Word) : (s.setReg i v).requests = s.requests := rfl
@[simp] theorem State.setReg_ioIn (i : Reg) (v : Word) : (s.setReg i v).ioIn = s.ioIn := rfl
@[simp] theorem State.setReg_ioLog (i : Reg) (v : Word) : (s.setReg i v).ioLog = s.ioLog := rfl
@[simp] theorem State.setReg_draws (i : Reg) (v : Word) : (s.setReg i v).draws = s.draws := rfl
@[simp] theorem State.setReg_cfg (i : Reg) (v : Word) : (s.setReg i v).cfg = s.cfg := rfl

/-! ### setPc -/

@[simp] theorem State.setPc_regs (v : Word) : (s.setPc v).regs = s.regs := rfl
@[simp] theorem State.setPc_spOwn (v : Word) : (s.setPc v).spOwn = s.spOwn := rfl
@[simp] theorem State.setPc_pc (v : Word) :
    (s.setPc v).pc = v := rfl
@[simp] theorem State.setPc_flags (v : Word) : (s.setPc v).flags = s.flags := rfl
@[simp] theorem State.setPc_ie (v : Word) : (s.setPc v).ie = s.ie := rfl
@[simp] theorem State.setPc_flagRest (v : Word) : (s.setPc v).flagRest = s.flagRest := rfl
@[simp] theorem State.setPc_halted (v : Word) : (s.setPc v).halted = s.halted := rfl
@[simp] theorem State.setPc_mem (v : Word) : (s.setPc v).mem = s.mem := rfl
@[simp] theorem State.setPc_requests (v : Word) : (s.setPc v).requests = s.requests := rfl
@[simp] theorem State.setPc_ioIn (v : Word) : (s.setPc v).ioIn = s.ioIn := rfl
@[simp] theorem State.setPc_ioLog (v : Word) : (s.setPc v).ioLog = s.ioLog := rfl
@[simp] theorem State.setPc_draws (v : Word) : (s.setPc v).draws = s.draws := rfl
@[simp] theorem State.setPc_cfg (v : Word) : (s.setPc v).cfg = s.cfg := rfl

/-! ### setFlags -/

@[simp] theorem State.setFlags_regs (f : Flags) : (s.setFlags f).regs = s.regs := rfl
@[simp] theorem State.setFlags_spOwn (f : Flags) : (s.setFlags f).spOwn = s.spOwn := rfl
@[simp] theorem State.setFlags_pc (f : Flags) : (s.setFlags f).pc = s.pc := rfl
@[simp] theorem State.setFlags_flags (f : Flags) :
    (s.setFlags f).flags = f := rfl
@[simp] theorem State.setFlags_ie (f : Flags) : (s.setFlags f).ie = s.ie := rfl
@[simp] theorem State.setFlags_flagRest (f : Flags) : (s.setFlags f).flagRest = s.flagRest := rfl
@[simp] theorem State.setFlags_halted (f : Flags) : (s.setFlags f).halted = s.halted := rfl
@[simp] theorem State.setFlags_mem (f : Flags) : (s.setFlags f).mem = s.mem := rfl
@[simp] theorem State.setFlags_requests (f : Flags) : (s.setFlags f).requests = s.requests := rfl
@[simp] theorem State.setFlags_ioIn (f : Flags) : (s.setFlags f).ioIn = s.ioIn := rfl
@[simp] theorem State.setFlags_ioLog (f : Flags) : (s.setFlags f).ioLog = s.ioLog := rfl
@[simp] theorem State.setFlags_draws (f : Flags) : (s.setFlags f).draws = s.draws := rfl
@[simp] theorem State.setFlags_cfg (f : Flags) : (s.setFlags f).cfg = s.cfg := rfl

/-! ### setResultFlags -/

@[simp] theorem State.setResultFlags_regs (r : Word) : (s.setResultFlags r).regs = s.regs := rfl
@[simp] theorem State.setResultFlags_spOwn (r : Word) : (s.setResultFlags r).spOwn = s.spOwn := rfl
@[simp] theorem State.setResultFlags_pc (r : Word) : (s.setResultFlags r).pc = s.pc := rfl
@[simp] theorem State.setResultFlags_flags (r : Word) :
    (s.setResultFlags r).flags = ⟨r == 0#16, Config.freeBit s.draws, r.msb, Config.freeBit (s.draws + 1)⟩ := rfl
@[simp] theorem State.setResultFlags_ie (r : Word) : (s.setResultFlags r).ie = s.ie := rfl
@[simp] theorem State.setResultFlags_flagRest (r : Word) : (s.setResultFlags r).flagRest = s.flagRest := rfl
@[simp] theorem State.setResultFlags_halted (r : Word) : (s.setResultFlags r).halted = s.halted := rfl
@[simp] theorem State.setResultFlags_mem (r : Word) : (s.setResultFlags r).mem = s.mem := rfl
@[simp] theorem State.setResultFlags_requests (r : Word) : (s.setResultFlags r).requests = s.requests := rfl
@[simp] theorem State.setResultFlags_ioIn (r : Word) : (s.setResultFlags r).ioIn = s.ioIn := rfl
@[simp] theorem State.setResultFlags_ioLog (r : Word) : (s.setResultFlags r).ioLog = s.ioLog := rfl
@[simp] theorem State.setResultFlags_draws (r : Word) :
    (s.setResultFlags r).draws = s.draws + 2 := rfl
@[simp] theorem State.setResultFlags_cfg (r : Word) : (s.setResultFlags r).cfg = s.cfg := rfl

/-! ### drawFlags -/

@[simp] theorem State.drawFlags_regs : (s.drawFlags).regs = s.regs := rfl
@[simp] theorem State.drawFlags_spOwn : (s.drawFlags).spOwn = s.spOwn := rfl
@[simp] theorem State.drawFlags_pc : (s.drawFlags).pc = s.pc := rfl
@[simp] theorem State.drawFlags_flags :
    (s.drawFlags).flags = ⟨Config.freeBit s.draws, Config.freeBit (s.draws + 2), Config.freeBit (s.draws + 1),
      Config.freeBit (s.draws + 3)⟩ := rfl
@[simp] theorem State.drawFlags_ie : (s.drawFlags).ie = s.ie := rfl
@[simp] theorem State.drawFlags_flagRest : (s.drawFlags).flagRest = s.flagRest := rfl
@[simp] theorem State.drawFlags_halted : (s.drawFlags).halted = s.halted := rfl
@[simp] theorem State.drawFlags_mem : (s.drawFlags).mem = s.mem := rfl
@[simp] theorem State.drawFlags_requests : (s.drawFlags).requests = s.requests := rfl
@[simp] theorem State.drawFlags_ioIn : (s.drawFlags).ioIn = s.ioIn := rfl
@[simp] theorem State.drawFlags_ioLog : (s.drawFlags).ioLog = s.ioLog := rfl
@[simp] theorem State.drawFlags_draws :
    (s.drawFlags).draws = s.draws + 4 := rfl
@[simp] theorem State.drawFlags_cfg : (s.drawFlags).cfg = s.cfg := rfl

/-! ### setFlagWord -/

@[simp] theorem State.setFlagWord_regs (w : Word) : (s.setFlagWord w).regs = s.regs := rfl
@[simp] theorem State.setFlagWord_spOwn (w : Word) : (s.setFlagWord w).spOwn = s.spOwn := rfl
@[simp] theorem State.setFlagWord_pc (w : Word) : (s.setFlagWord w).pc = s.pc := rfl
@[simp] theorem State.setFlagWord_flags (w : Word) :
    (s.setFlagWord w).flags = unpackFlags s.cfg.flagLayout w := rfl
@[simp] theorem State.setFlagWord_ie (w : Word) :
    (s.setFlagWord w).ie = unpackIe s.cfg.flagLayout w s.ie := rfl
@[simp] theorem State.setFlagWord_flagRest (w : Word) :
    (s.setFlagWord w).flagRest = unpackRest s.cfg.flagLayout w := rfl
@[simp] theorem State.setFlagWord_halted (w : Word) : (s.setFlagWord w).halted = s.halted := rfl
@[simp] theorem State.setFlagWord_mem (w : Word) : (s.setFlagWord w).mem = s.mem := rfl
@[simp] theorem State.setFlagWord_requests (w : Word) : (s.setFlagWord w).requests = s.requests := rfl
@[simp] theorem State.setFlagWord_ioIn (w : Word) : (s.setFlagWord w).ioIn = s.ioIn := rfl
@[simp] theorem State.setFlagWord_ioLog (w : Word) : (s.setFlagWord w).ioLog = s.ioLog := rfl
@[simp] theorem State.setFlagWord_draws (w : Word) : (s.setFlagWord w).draws = s.draws := rfl
@[simp] theorem State.setFlagWord_cfg (w : Word) : (s.setFlagWord w).cfg = s.cfg := rfl

/-! ### setPair -/

@[simp] theorem State.setPair_regs (i : Reg) (hi lo : Word) :
    (s.setPair i hi lo).regs = (s.regs.set i lo).set (highReg i) hi := rfl
@[simp] theorem State.setPair_spOwn (i : Reg) (hi lo : Word) : (s.setPair i hi lo).spOwn = s.spOwn := rfl
@[simp] theorem State.setPair_pc (i : Reg) (hi lo : Word) : (s.setPair i hi lo).pc = s.pc := rfl
@[simp] theorem State.setPair_flags (i : Reg) (hi lo : Word) : (s.setPair i hi lo).flags = s.flags := rfl
@[simp] theorem State.setPair_ie (i : Reg) (hi lo : Word) : (s.setPair i hi lo).ie = s.ie := rfl
@[simp] theorem State.setPair_flagRest (i : Reg) (hi lo : Word) : (s.setPair i hi lo).flagRest = s.flagRest := rfl
@[simp] theorem State.setPair_halted (i : Reg) (hi lo : Word) : (s.setPair i hi lo).halted = s.halted := rfl
@[simp] theorem State.setPair_mem (i : Reg) (hi lo : Word) : (s.setPair i hi lo).mem = s.mem := rfl
@[simp] theorem State.setPair_requests (i : Reg) (hi lo : Word) : (s.setPair i hi lo).requests = s.requests := rfl
@[simp] theorem State.setPair_ioIn (i : Reg) (hi lo : Word) : (s.setPair i hi lo).ioIn = s.ioIn := rfl
@[simp] theorem State.setPair_ioLog (i : Reg) (hi lo : Word) : (s.setPair i hi lo).ioLog = s.ioLog := rfl
@[simp] theorem State.setPair_draws (i : Reg) (hi lo : Word) : (s.setPair i hi lo).draws = s.draws := rfl
@[simp] theorem State.setPair_cfg (i : Reg) (hi lo : Word) : (s.setPair i hi lo).cfg = s.cfg := rfl

/-! ### setSp -/

@[simp] theorem State.setSp_pc (v : Word) : (s.setSp v).pc = s.pc := by
  unfold State.setSp; split <;> rfl
@[simp] theorem State.setSp_flags (v : Word) : (s.setSp v).flags = s.flags := by
  unfold State.setSp; split <;> rfl
@[simp] theorem State.setSp_ie (v : Word) : (s.setSp v).ie = s.ie := by
  unfold State.setSp; split <;> rfl
@[simp] theorem State.setSp_flagRest (v : Word) : (s.setSp v).flagRest = s.flagRest := by
  unfold State.setSp; split <;> rfl
@[simp] theorem State.setSp_halted (v : Word) : (s.setSp v).halted = s.halted := by
  unfold State.setSp; split <;> rfl
@[simp] theorem State.setSp_mem (v : Word) : (s.setSp v).mem = s.mem := by
  unfold State.setSp; split <;> rfl
@[simp] theorem State.setSp_requests (v : Word) : (s.setSp v).requests = s.requests := by
  unfold State.setSp; split <;> rfl
@[simp] theorem State.setSp_ioIn (v : Word) : (s.setSp v).ioIn = s.ioIn := by
  unfold State.setSp; split <;> rfl
@[simp] theorem State.setSp_ioLog (v : Word) : (s.setSp v).ioLog = s.ioLog := by
  unfold State.setSp; split <;> rfl
@[simp] theorem State.setSp_draws (v : Word) : (s.setSp v).draws = s.draws := by
  unfold State.setSp; split <;> rfl
@[simp] theorem State.setSp_cfg (v : Word) : (s.setSp v).cfg = s.cfg := by
  unfold State.setSp; split <;> rfl

/-! ### record -/

@[simp] theorem State.record_regs (e : IoEvent) : (s.record e).regs = s.regs := rfl
@[simp] theorem State.record_spOwn (e : IoEvent) : (s.record e).spOwn = s.spOwn := rfl
@[simp] theorem State.record_pc (e : IoEvent) : (s.record e).pc = s.pc := rfl
@[simp] theorem State.record_flags (e : IoEvent) : (s.record e).flags = s.flags := rfl
@[simp] theorem State.record_ie (e : IoEvent) : (s.record e).ie = s.ie := rfl
@[simp] theorem State.record_flagRest (e : IoEvent) : (s.record e).flagRest = s.flagRest := rfl
@[simp] theorem State.record_halted (e : IoEvent) : (s.record e).halted = s.halted := rfl
@[simp] theorem State.record_mem (e : IoEvent) : (s.record e).mem = s.mem := rfl
@[simp] theorem State.record_requests (e : IoEvent) : (s.record e).requests = s.requests := rfl
@[simp] theorem State.record_ioIn (e : IoEvent) : (s.record e).ioIn = s.ioIn := rfl
@[simp] theorem State.record_ioLog (e : IoEvent) :
    (s.record e).ioLog = s.ioLog ++ [e] := rfl
@[simp] theorem State.record_draws (e : IoEvent) : (s.record e).draws = s.draws := rfl
@[simp] theorem State.record_cfg (e : IoEvent) : (s.record e).cfg = s.cfg := rfl

/-! ### ioConsume -/

@[simp] theorem State.ioConsume_regs : (s.ioConsume).regs = s.regs := by
  unfold State.ioConsume; split <;> rfl
@[simp] theorem State.ioConsume_spOwn : (s.ioConsume).spOwn = s.spOwn := by
  unfold State.ioConsume; split <;> rfl
@[simp] theorem State.ioConsume_pc : (s.ioConsume).pc = s.pc := by
  unfold State.ioConsume; split <;> rfl
@[simp] theorem State.ioConsume_flags : (s.ioConsume).flags = s.flags := by
  unfold State.ioConsume; split <;> rfl
@[simp] theorem State.ioConsume_ie : (s.ioConsume).ie = s.ie := by
  unfold State.ioConsume; split <;> rfl
@[simp] theorem State.ioConsume_flagRest : (s.ioConsume).flagRest = s.flagRest := by
  unfold State.ioConsume; split <;> rfl
@[simp] theorem State.ioConsume_halted : (s.ioConsume).halted = s.halted := by
  unfold State.ioConsume; split <;> rfl
@[simp] theorem State.ioConsume_mem : (s.ioConsume).mem = s.mem := by
  unfold State.ioConsume; split <;> rfl
@[simp] theorem State.ioConsume_requests : (s.ioConsume).requests = s.requests := by
  unfold State.ioConsume; split <;> rfl
@[simp] theorem State.ioConsume_ioIn :
    (s.ioConsume).ioIn = s.ioIn.tail := by
  unfold State.ioConsume; split <;> simp_all [State.useDraw]
@[simp] theorem State.ioConsume_ioLog : (s.ioConsume).ioLog = s.ioLog := by
  unfold State.ioConsume; split <;> rfl
@[simp] theorem State.ioConsume_cfg : (s.ioConsume).cfg = s.cfg := by
  unfold State.ioConsume; split <;> rfl

/-! ### passBoundary -/

@[simp] theorem State.passBoundary_regs : (s.passBoundary).regs = s.regs := rfl
@[simp] theorem State.passBoundary_spOwn : (s.passBoundary).spOwn = s.spOwn := rfl
@[simp] theorem State.passBoundary_pc : (s.passBoundary).pc = s.pc := rfl
@[simp] theorem State.passBoundary_flags : (s.passBoundary).flags = s.flags := rfl
@[simp] theorem State.passBoundary_ie : (s.passBoundary).ie = s.ie := rfl
@[simp] theorem State.passBoundary_flagRest : (s.passBoundary).flagRest = s.flagRest := rfl
@[simp] theorem State.passBoundary_halted : (s.passBoundary).halted = s.halted := rfl
@[simp] theorem State.passBoundary_mem : (s.passBoundary).mem = s.mem := rfl
@[simp] theorem State.passBoundary_requests :
    (s.passBoundary).requests = s.requests.tail := rfl
@[simp] theorem State.passBoundary_ioIn : (s.passBoundary).ioIn = s.ioIn := rfl
@[simp] theorem State.passBoundary_ioLog : (s.passBoundary).ioLog = s.ioLog := rfl
@[simp] theorem State.passBoundary_draws : (s.passBoundary).draws = s.draws := rfl
@[simp] theorem State.passBoundary_cfg : (s.passBoundary).cfg = s.cfg := rfl

/-! ### placeWords -/

@[simp] theorem State.placeWords_regs (w w' : Word) : (s.placeWords w w').regs = s.regs := rfl
@[simp] theorem State.placeWords_spOwn (w w' : Word) : (s.placeWords w w').spOwn = s.spOwn := rfl
@[simp] theorem State.placeWords_pc (w w' : Word) : (s.placeWords w w').pc = s.pc := rfl
@[simp] theorem State.placeWords_flags (w w' : Word) : (s.placeWords w w').flags = s.flags := rfl
@[simp] theorem State.placeWords_ie (w w' : Word) : (s.placeWords w w').ie = s.ie := rfl
@[simp] theorem State.placeWords_flagRest (w w' : Word) : (s.placeWords w w').flagRest = s.flagRest := rfl
@[simp] theorem State.placeWords_halted (w w' : Word) : (s.placeWords w w').halted = s.halted := rfl
@[simp] theorem State.placeWords_mem (w w' : Word) :
    (s.placeWords w w').mem = storeWord s.cfg (storeWord s.cfg s.mem s.pc w) (s.pc + 2#16) w' := rfl
@[simp] theorem State.placeWords_requests (w w' : Word) : (s.placeWords w w').requests = s.requests := rfl
@[simp] theorem State.placeWords_ioIn (w w' : Word) : (s.placeWords w w').ioIn = s.ioIn := rfl
@[simp] theorem State.placeWords_ioLog (w w' : Word) : (s.placeWords w w').ioLog = s.ioLog := rfl
@[simp] theorem State.placeWords_draws (w w' : Word) : (s.placeWords w w').draws = s.draws := rfl
@[simp] theorem State.placeWords_cfg (w w' : Word) : (s.placeWords w w').cfg = s.cfg := rfl

/-! ### setIe -/

@[simp] theorem State.setIe_regs (b : Bool) : (s.setIe b).regs = s.regs := rfl
@[simp] theorem State.setIe_spOwn (b : Bool) : (s.setIe b).spOwn = s.spOwn := rfl
@[simp] theorem State.setIe_pc (b : Bool) : (s.setIe b).pc = s.pc := rfl
@[simp] theorem State.setIe_flags (b : Bool) : (s.setIe b).flags = s.flags := rfl
@[simp] theorem State.setIe_ie (b : Bool) : (s.setIe b).ie = b := rfl
@[simp] theorem State.setIe_flagRest (b : Bool) : (s.setIe b).flagRest = s.flagRest := rfl
@[simp] theorem State.setIe_halted (b : Bool) : (s.setIe b).halted = s.halted := rfl
@[simp] theorem State.setIe_mem (b : Bool) : (s.setIe b).mem = s.mem := rfl
@[simp] theorem State.setIe_requests (b : Bool) : (s.setIe b).requests = s.requests := rfl
@[simp] theorem State.setIe_ioIn (b : Bool) : (s.setIe b).ioIn = s.ioIn := rfl
@[simp] theorem State.setIe_ioLog (b : Bool) : (s.setIe b).ioLog = s.ioLog := rfl
@[simp] theorem State.setIe_draws (b : Bool) : (s.setIe b).draws = s.draws := rfl
@[simp] theorem State.setIe_cfg (b : Bool) : (s.setIe b).cfg = s.cfg := rfl

/-! ### setHalted -/

@[simp] theorem State.setHalted_regs (b : Bool) : (s.setHalted b).regs = s.regs := rfl
@[simp] theorem State.setHalted_spOwn (b : Bool) : (s.setHalted b).spOwn = s.spOwn := rfl
@[simp] theorem State.setHalted_pc (b : Bool) : (s.setHalted b).pc = s.pc := rfl
@[simp] theorem State.setHalted_flags (b : Bool) : (s.setHalted b).flags = s.flags := rfl
@[simp] theorem State.setHalted_ie (b : Bool) : (s.setHalted b).ie = s.ie := rfl
@[simp] theorem State.setHalted_flagRest (b : Bool) : (s.setHalted b).flagRest = s.flagRest := rfl
@[simp] theorem State.setHalted_halted (b : Bool) : (s.setHalted b).halted = b := rfl
@[simp] theorem State.setHalted_mem (b : Bool) : (s.setHalted b).mem = s.mem := rfl
@[simp] theorem State.setHalted_requests (b : Bool) : (s.setHalted b).requests = s.requests := rfl
@[simp] theorem State.setHalted_ioIn (b : Bool) : (s.setHalted b).ioIn = s.ioIn := rfl
@[simp] theorem State.setHalted_ioLog (b : Bool) : (s.setHalted b).ioLog = s.ioLog := rfl
@[simp] theorem State.setHalted_draws (b : Bool) : (s.setHalted b).draws = s.draws := rfl
@[simp] theorem State.setHalted_cfg (b : Bool) : (s.setHalted b).cfg = s.cfg := rfl

/-! ### setMem -/

@[simp] theorem State.setMem_regs (m : Memory) : (s.setMem m).regs = s.regs := rfl
@[simp] theorem State.setMem_spOwn (m : Memory) : (s.setMem m).spOwn = s.spOwn := rfl
@[simp] theorem State.setMem_pc (m : Memory) : (s.setMem m).pc = s.pc := rfl
@[simp] theorem State.setMem_flags (m : Memory) : (s.setMem m).flags = s.flags := rfl
@[simp] theorem State.setMem_ie (m : Memory) : (s.setMem m).ie = s.ie := rfl
@[simp] theorem State.setMem_flagRest (m : Memory) : (s.setMem m).flagRest = s.flagRest := rfl
@[simp] theorem State.setMem_halted (m : Memory) : (s.setMem m).halted = s.halted := rfl
@[simp] theorem State.setMem_mem (m : Memory) : (s.setMem m).mem = m := rfl
@[simp] theorem State.setMem_requests (m : Memory) : (s.setMem m).requests = s.requests := rfl
@[simp] theorem State.setMem_ioIn (m : Memory) : (s.setMem m).ioIn = s.ioIn := rfl
@[simp] theorem State.setMem_ioLog (m : Memory) : (s.setMem m).ioLog = s.ioLog := rfl
@[simp] theorem State.setMem_draws (m : Memory) : (s.setMem m).draws = s.draws := rfl
@[simp] theorem State.setMem_cfg (m : Memory) : (s.setMem m).cfg = s.cfg := rfl

/-! ### useDraw -/

@[simp] theorem State.useDraw_regs : (s.useDraw).regs = s.regs := rfl
@[simp] theorem State.useDraw_spOwn : (s.useDraw).spOwn = s.spOwn := rfl
@[simp] theorem State.useDraw_pc : (s.useDraw).pc = s.pc := rfl
@[simp] theorem State.useDraw_flags : (s.useDraw).flags = s.flags := rfl
@[simp] theorem State.useDraw_ie : (s.useDraw).ie = s.ie := rfl
@[simp] theorem State.useDraw_flagRest : (s.useDraw).flagRest = s.flagRest := rfl
@[simp] theorem State.useDraw_halted : (s.useDraw).halted = s.halted := rfl
@[simp] theorem State.useDraw_mem : (s.useDraw).mem = s.mem := rfl
@[simp] theorem State.useDraw_requests : (s.useDraw).requests = s.requests := rfl
@[simp] theorem State.useDraw_ioIn : (s.useDraw).ioIn = s.ioIn := rfl
@[simp] theorem State.useDraw_ioLog : (s.useDraw).ioLog = s.ioLog := rfl
@[simp] theorem State.useDraw_draws : (s.useDraw).draws = s.draws + 1 := rfl
@[simp] theorem State.useDraw_cfg : (s.useDraw).cfg = s.cfg := rfl

/-! ### Registers over the updates -/

theorem State.reg_congr {s t : State} (h : t.regs = s.regs) (j : Reg) : t.reg j = s.reg j := by
  simp [State.reg, h]

@[simp] theorem State.reg_setReg_same (i : Reg) (v : Word) : (s.setReg i v).reg i = v := by
  simp [State.reg, State.setReg]

theorem State.reg_setReg_ne {i j : Reg} (h : j ≠ i) (v : Word) : (s.setReg i v).reg j = s.reg j := by
  have h' : (i : Nat) ≠ j := fun e => h (Fin.ext e.symm)
  simp [State.reg, State.setReg, Vector.getElem_set_ne _ _ h']

theorem State.reg_setReg (i j : Reg) (v : Word) :
    (s.setReg i v).reg j = if j = i then v else s.reg j := by
  split
  · next h => subst h; simp
  · next h => exact s.reg_setReg_ne h v

@[simp] theorem State.reg_setPc (v : Word) (j : Reg) : (s.setPc v).reg j = s.reg j := rfl
@[simp] theorem State.reg_setIe (b : Bool) (j : Reg) : (s.setIe b).reg j = s.reg j := rfl
@[simp] theorem State.reg_setHalted (b : Bool) (j : Reg) : (s.setHalted b).reg j = s.reg j := rfl
@[simp] theorem State.reg_setMem (m : Memory) (j : Reg) : (s.setMem m).reg j = s.reg j := rfl
@[simp] theorem State.reg_useDraw (j : Reg) : s.useDraw.reg j = s.reg j := rfl
@[simp] theorem State.reg_setFlags (f : Flags) (j : Reg) : (s.setFlags f).reg j = s.reg j := rfl
@[simp] theorem State.reg_setResultFlags (r : Word) (j : Reg) : (s.setResultFlags r).reg j = s.reg j := rfl
@[simp] theorem State.reg_drawFlags (j : Reg) : s.drawFlags.reg j = s.reg j := rfl
@[simp] theorem State.reg_setFlagWord (w : Word) (j : Reg) : (s.setFlagWord w).reg j = s.reg j := rfl
@[simp] theorem State.reg_record (e : IoEvent) (j : Reg) : (s.record e).reg j = s.reg j := rfl
@[simp] theorem State.reg_passBoundary (j : Reg) : s.passBoundary.reg j = s.reg j := rfl
@[simp] theorem State.reg_ioConsume (j : Reg) : s.ioConsume.reg j = s.reg j :=
  State.reg_congr (by simp) j

/-! ### The stack pointer -/

@[simp] theorem State.sp_setSp (v : Word) : (s.setSp v).sp = v := by
  cases h : s.cfg.spLoc <;> simp [State.sp, State.setSp, h, State.reg, State.setReg]

theorem State.reg_setSp_ne {i : Reg} (h : s.cfg.spLoc ≠ .reg i) (v : Word) : (s.setSp v).reg i = s.reg i := by
  cases h' : s.cfg.spLoc with
  | reg j =>
    have : i ≠ j := by rintro rfl; exact h h'
    simp [State.setSp, h', s.reg_setReg_ne this]
  | separate => simp [State.setSp, h', State.reg]

theorem State.sp_setReg_ne {i : Reg} (h : s.cfg.spLoc ≠ .reg i) (v : Word) : (s.setReg i v).sp = s.sp := by
  cases h' : s.cfg.spLoc with
  | reg j =>
    have : j ≠ i := by rintro rfl; exact h h'
    simp [State.sp, h', s.reg_setReg_ne this]
  | separate => simp [State.sp, h']

theorem State.sp_congr {s t : State} (hr : t.regs = s.regs) (ho : t.spOwn = s.spOwn) (hc : t.cfg = s.cfg) :
    t.sp = s.sp := by
  unfold State.sp; rw [hc, ho]
  cases s.cfg.spLoc <;> simp [State.reg, hr]

@[simp] theorem State.sp_setMem (m : Memory) : (s.setMem m).sp = s.sp := State.sp_congr rfl rfl rfl
@[simp] theorem State.sp_setPc (v : Word) : (s.setPc v).sp = s.sp := State.sp_congr rfl rfl rfl
@[simp] theorem State.sp_setIe (b : Bool) : (s.setIe b).sp = s.sp := State.sp_congr rfl rfl rfl
@[simp] theorem State.sp_setHalted (b : Bool) : (s.setHalted b).sp = s.sp := State.sp_congr rfl rfl rfl
@[simp] theorem State.sp_setFlagWord (w : Word) : (s.setFlagWord w).sp = s.sp := State.sp_congr rfl rfl rfl
@[simp] theorem State.sp_passBoundary : s.passBoundary.sp = s.sp := State.sp_congr rfl rfl rfl

theorem State.setSp_spOwn_of_reg {i : Reg} (h : s.cfg.spLoc = .reg i) (v : Word) :
    (s.setSp v).spOwn = s.spOwn := by
  simp [State.setSp, h]

@[simp] theorem State.setMem_setMem (m m' : Memory) : (s.setMem m).setMem m' = s.setMem m' := rfl

/-- Two pushes or pops in a row leave the last `SP`. -/
@[simp] theorem State.setSp_setSp (v w : Word) : (s.setSp v).setSp w = s.setSp w := by
  cases h : s.cfg.spLoc with
  | reg i => simp [State.setSp, h, State.setReg]
  | separate => simp [State.setSp, h]

end Sys2Proof.Machine
end

