-- ==== Sys2Proof/Laws/Ops.lean ====
section
/-! SUPPORT. One lemma for each shared operation that says once everything it can do: if it answers a next
value, then these cases hold. The lemmas after it cite it and do not unfold the operation. -/

namespace Sys2Proof.Machine

variable {α β : Type}

/-! ### Sequencing -/

@[simp] theorem andThen_next (a : α) (f : α → Res β) : andThen (.next a) f = f a := rfl
@[simp] theorem andThen_fault (r : Fault) (f : α → Res β) : andThen (.fault r) f = .fault r := rfl
@[simp] theorem andThen_refused (r : Refusal) (f : α → Res β) : andThen (.refused r) f = .refused r := rfl

theorem andThen_eq_next {x : Res α} {f : α → Res β} {b : β} :
    andThen x f = .next b ↔ ∃ a, x = .next a ∧ f a = .next b := by
  cases x <;> simp [andThen]

/-! ### Memory -/

theorem readByte_eq_next {s : State} {a : Word} {b : Byte} :
    readByte s a = .next b ↔ readable s.cfg a = true ∧ memGet s.mem a.toNat = b := by
  unfold readByte; split <;> simp_all

theorem readWord_eq_next {s : State} {a v : Word} :
    readWord s a = .next v ↔
      alignedFor s.cfg a = true ∧ wordReadable s.cfg a = true ∧ loadWord s.cfg s.mem a = v := by
  unfold readWord; repeat' split
  all_goals simp_all

theorem writeByte_eq_next {s t : State} {a : Word} {v : Byte} :
    writeByte s a v = .next t ↔
      writable s.cfg a = true ∧ t = s.setMem (memSet s.mem a.toNat v) := by
  unfold writeByte; split <;> simp [*, eq_comm (a := t)]

theorem writeWord_eq_next {s t : State} {a v : Word} :
    writeWord s a v = .next t ↔
      alignedFor s.cfg a = true ∧ wordWritable s.cfg a = true ∧
        t = s.setMem (storeWord s.cfg s.mem a v) := by
  unfold writeWord; repeat' split
  all_goals simp [*, eq_comm (a := t)]

/-! ### The stack -/

theorem pushWord_eq_next {s t : State} {v : Word} :
    pushWord s v = .next t ↔
      alignedFor s.cfg (s.sp - 2#16) = true ∧ wordWritable s.cfg (s.sp - 2#16) = true ∧
        t = (s.setMem (storeWord s.cfg s.mem (s.sp - 2#16) v)).setSp (s.sp - 2#16) := by
  unfold pushWord
  rw [andThen_eq_next]
  constructor
  · rintro ⟨u, hu, ht⟩
    obtain ⟨h1, h2, rfl⟩ := writeWord_eq_next.1 hu
    exact ⟨h1, h2, by simpa [eq_comm (a := t)] using ht⟩
  · rintro ⟨h1, h2, rfl⟩
    exact ⟨_, writeWord_eq_next.2 ⟨h1, h2, rfl⟩, rfl⟩

theorem popWord_eq_next {s : State} {p : Word × State} :
    popWord s = .next p ↔
      alignedFor s.cfg s.sp = true ∧ wordReadable s.cfg s.sp = true ∧
        p = (loadWord s.cfg s.mem s.sp, s.setSp (s.sp + 2#16)) := by
  unfold popWord
  rw [andThen_eq_next]
  constructor
  · rintro ⟨v, hv, hp⟩
    obtain ⟨h1, h2, rfl⟩ := readWord_eq_next.1 hv
    exact ⟨h1, h2, by simpa [eq_comm (a := p)] using hp⟩
  · rintro ⟨h1, h2, rfl⟩
    exact ⟨_, readWord_eq_next.2 ⟨h1, h2, rfl⟩, rfl⟩

/-! ### Trap entry and return -/

/-- Trap entry: two words on the stack, `SP` four lower, `IE` by `TRAP_IE`, `pc` at the handler. -/
theorem trapEntry_eq_next {h : Handler} {s t : State} :
    trapEntry h s = .next t ↔
      alignedFor s.cfg (s.sp - 2#16) = true ∧ wordWritable s.cfg (s.sp - 2#16) = true ∧
      alignedFor s.cfg (s.sp - 4#16) = true ∧ wordWritable s.cfg (s.sp - 4#16) = true ∧
      ∃ target, handlerAddress s h = .next target ∧
        t = (((s.setMem (storeWord s.cfg (storeWord s.cfg s.mem (s.sp - 2#16) s.pc) (s.sp - 4#16) s.flagWord)).setSp
              (s.sp - 4#16)).setIe (trapIeAfter s)).setPc target := by
  unfold trapEntry
  simp only [andThen_eq_next, writeWord_eq_next]
  constructor
  · rintro ⟨u, ⟨h1, h2, rfl⟩, w, ⟨h3, h4, rfl⟩, target, ht, hn⟩
    refine ⟨h1, h2, h3, h4, target, ht, ?_⟩
    simpa [eq_comm (a := t)] using hn
  · rintro ⟨h1, h2, h3, h4, target, ht, rfl⟩
    exact ⟨_, ⟨h1, h2, rfl⟩, _, ⟨h3, h4, rfl⟩, target, ht, rfl⟩

theorem trapReturn_eq_next {s t : State} :
    trapReturn s = .next t ↔
      alignedFor s.cfg s.sp = true ∧ wordReadable s.cfg s.sp = true ∧
      alignedFor s.cfg (s.sp + 2#16) = true ∧ wordReadable s.cfg (s.sp + 2#16) = true ∧
        t = ((s.setSp (s.sp + 4#16)).setFlagWord (loadWord s.cfg s.mem s.sp)).setPc
              (loadWord s.cfg s.mem (s.sp + 2#16)) := by
  unfold trapReturn
  simp only [andThen_eq_next, readWord_eq_next]
  constructor
  · rintro ⟨f, ⟨h1, h2, rfl⟩, target, ⟨h3, h4, rfl⟩, hn⟩
    exact ⟨h1, h2, h3, h4, by simpa [eq_comm (a := t)] using hn⟩
  · rintro ⟨h1, h2, h3, h4, rfl⟩
    exact ⟨_, ⟨h1, h2, rfl⟩, _, ⟨h3, h4, rfl⟩, rfl⟩

/-! ### Operands -/

/-- The checks of the read a mode makes: the byte at its address in mode 7, the word in the others. -/
def addrReadable (s : State) (a : AddrMode) : Bool :=
  match a with
  | .drct _ | .index _ _ | .fpRlt _ | .indr _ =>
    alignedFor s.cfg (eaddr s a) && wordReadable s.cfg (eaddr s a)
  | .bIndr _ => readable s.cfg (eaddr s a)

/-- The value of the read a mode makes. -/
def addrValue (s : State) (a : AddrMode) : Word :=
  match a with
  | .drct _ | .index _ _ | .fpRlt _ | .indr _ => loadWord s.cfg s.mem (eaddr s a)
  | .bIndr _ => ext8 s.cfg (memGet s.mem (eaddr s a).toNat)

theorem readAt_eq_next {s : State} {a : AddrMode} {v : Word} :
    readAt s a = .next v ↔ addrReadable s a = true ∧ addrValue s a = v := by
  cases a <;> simp [readAt, addrReadable, addrValue, readWord_eq_next, readByte_eq_next, andThen_eq_next,
    and_assoc]

/-- The memory after the write a mode makes. -/
def addrStore (s : State) (a : AddrMode) (v : Word) : Memory :=
  match a with
  | .drct _ | .index _ _ | .fpRlt _ | .indr _ => storeWord s.cfg s.mem (eaddr s a) v
  | .bIndr _ => memSet s.mem (eaddr s a).toNat (v.setWidth 8)

/-- The checks of the write a mode makes. -/
def addrWritable (s : State) (a : AddrMode) : Bool :=
  match a with
  | .drct _ | .index _ _ | .fpRlt _ | .indr _ =>
    alignedFor s.cfg (eaddr s a) && wordWritable s.cfg (eaddr s a)
  | .bIndr _ => writable s.cfg (eaddr s a)

theorem writeAt_eq_next {s t : State} {a : AddrMode} {v : Word} :
    writeAt s a v = .next t ↔ addrWritable s a = true ∧ t = s.setMem (addrStore s a v) := by
  cases a <;> simp [writeAt, addrWritable, addrStore, writeWord_eq_next, writeByte_eq_next, and_assoc]

/-- Every operand that reads no memory is there. -/
theorem opval_eq_next {s : State} {ea : Operand} {v : Word} :
    opval s ea = .next v ↔
      match ea with
      | .mem a => addrReadable s a = true ∧ addrValue s a = v
      | .imm w => w = v
      | .reg rs => s.reg rs = v
      | .imm4 i4 => sext4 i4 = v := by
  cases ea <;> simp [opval, readAt_eq_next]

end Sys2Proof.Machine
end

