-- ==== Sys2Proof/Laws/Exec.lean ====
section
/-! SUPPORT. What the shared operations of the instruction families can do, and the flag facts behind the
conditional jumps. -/

namespace Sys2Proof.Machine

theorem logicOp_eq_next {f : Word → Word → Word} {rd : Reg} {ea : Operand} {s t : State} :
    logicOp f rd ea s = .next t ↔
      ∃ b, opval s ea = .next b ∧
        t = (s.setReg rd (f (s.reg rd) b)).setResultFlags (f (s.reg rd) b) := by
  simp [logicOp, andThen_eq_next, eq_comm (a := t)]

/-- A shift: a result for a count of 0 to 15, draws beyond. -/
theorem shiftOp_eq_next {f : Word → Nat → Word} {rd : Reg} {ea : Operand} {s t : State} :
    shiftOp f rd ea s = .next t ↔
      ∃ b, opval s ea = .next b ∧
        (b.toNat ≤ 15 ∧ t = (s.setReg rd (f (s.reg rd) b.toNat)).setResultFlags (f (s.reg rd) b.toNat) ∨
          15 < b.toNat ∧ t = (s.setReg rd (Config.freeWord s.draws)).useDraw.drawFlags) := by
  simp only [shiftOp, andThen_eq_next]
  constructor
  · rintro ⟨b, hb, h⟩
    refine ⟨b, hb, ?_⟩
    split at h
    · next hl => exact .inl ⟨hl, by simpa [eq_comm (a := t)] using h⟩
    · next hl => exact .inr ⟨by omega, by simpa [eq_comm (a := t)] using h⟩
  · rintro ⟨b, hb, ⟨hl, rfl⟩ | ⟨hl, rfl⟩⟩
    · exact ⟨b, hb, by rw [if_pos hl]⟩
    · exact ⟨b, hb, by rw [if_neg (by omega)]⟩

/-- A division answers a quotient exactly where the rules state one; where they state none it answers
`none`, and only under `DIV_FAULT = result`. -/
theorem divide_eq_next {c : Config} {p : Int} {b : Word} {q : Option Int} :
    divide c p b = .next q ↔
      (b ≠ 0#16 ∧ fits16 c (quotOf c p (val16 c b)) = true ∧ q = some (quotOf c p (val16 c b))) ∨
      ((b = 0#16 ∨ fits16 c (quotOf c p (val16 c b)) = false) ∧ c.divFault = .result ∧ q = none) := by
  unfold divide
  by_cases hb : b = 0#16
  · cases hd : c.divFault <;> simp [hb, eq_comm (a := q)]
  · by_cases hf : fits16 c (quotOf c p (val16 c b)) = true
    · simp [hb, hf, eq_comm (a := q)]
    · cases hd : c.divFault <;> simp [hb, hf, eq_comm (a := q)]

theorem jumpIf_eq_next {taken : Bool} {ea : JumpMode} {s t : State} :
    jumpIf taken ea s = .next t ↔ t = if taken then s.setPc (jumpTarget s ea) else s := by
  simp [jumpIf, eq_comm (a := t)]

/-! ### What the flags of a subtraction say (10_state.md R18) -/

theorem sub16Flags_z (a b : Word) : (sub16Flags a b).z = decide (a = b) := by
  have h : a - b = 0#16 ↔ a = b := by
    rw [BitVec.sub_eq_iff_eq_add]; simp
  simp only [sub16Flags, BEq.beq]
  exact decide_eq_decide.2 h

@[simp] theorem sub16Flags_c (a b : Word) : (sub16Flags a b).c = decide (a.toNat < b.toNat) := rfl

end Sys2Proof.Machine
end

