-- ==== Sys2Proof/Laws/Flags.lean ====
section
/-! SUPPORT. The bits of the `FLAG` word: what setting a bit, clearing the named bits and placing the flags do
to each bit; and what the code of a layout does. -/

namespace Sys2Proof.Machine

/-- Two words with the same bits, the bits numbered as a layout numbers them. -/
theorem word_ext {a b : Word} (h : ∀ j : Fin 16, a[j.val] = b[j.val]) : a = b :=
  BitVec.eq_of_getElem_eq fun i hi => h ⟨i, hi⟩

/-- Setting a bit sets that bit and no other. -/
@[simp] theorem setBit_getElem (w : Word) (i j : Fin 16) (b : Bool) :
    (setBit w i b)[j.val] = if i = j then b else w[j.val] := by
  unfold setBit
  by_cases h : i = j
  · subst h; cases b <;> simp
  · have h' : ¬ (j.val = i.val) := fun e => h (Fin.ext e.symm)
    cases b <;> simp [h, h']

/-- `restOf` keeps every bit but those of the named flags, which it clears. -/
theorem restOf_getElem (l : FlagLayout) (w : Word) (j : Fin 16) :
    (restOf l w)[j.val] =
      (w[j.val] && decide (j ∉ [l.z, l.c, l.s, l.v] ++ l.ie.toList)) := by
  unfold restOf
  cases l.ie <;> simp <;> grind

/-- Clearing the named bits twice is clearing them once. -/
@[simp] theorem restOf_restOf (l : FlagLayout) (w : Word) : restOf l (restOf l w) = restOf l w :=
  word_ext fun j => by simp [restOf_getElem]

/-- What is unpacked as `FLAG_REST` holds no named bit. -/
@[simp] theorem restOf_unpackRest (l : FlagLayout) (w : Word) : restOf l (unpackRest l w) = unpackRest l w :=
  restOf_restOf l _

/-- Each bit of the word before it is coded: the flag whose place it is, else the bit of `FLAG_REST`. -/
theorem placeFlags_getElem (l : FlagLayout) (f : Flags) (ie : Bool) (rest : Word) (j : Fin 16) :
    (placeFlags l f ie rest)[j.val] =
      if l.ie = some j then ie
      else if l.v = j then f.v
      else if l.s = j then f.s
      else if l.c = j then f.c
      else if l.z = j then f.z
      else rest[j.val] := by
  unfold placeFlags
  cases l.ie <;> simp

/-! ### The code of a layout -/

@[simp] theorem swapWord_swapWord (p : Word × Word) (w : Word) : swapWord p (swapWord p w) = w := by
  unfold swapWord; grind

/-- Decoding undoes encoding. -/
@[simp] theorem decodeFlag_encodeFlag (l : FlagLayout) (w : Word) : decodeFlag l (encodeFlag l w) = w := by
  unfold decodeFlag encodeFlag
  induction l.code generalizing w with
  | nil => rfl
  | cons p c ih => simp [ih]

/-- Encoding undoes decoding: every word is a `FLAG` word. -/
@[simp] theorem encodeFlag_decodeFlag (l : FlagLayout) (w : Word) : encodeFlag l (decodeFlag l w) = w := by
  unfold decodeFlag encodeFlag
  induction l.code generalizing w with
  | nil => rfl
  | cons p c ih => simp [ih]

@[simp] theorem decodeFlag_flagPack (l : FlagLayout) (f : Flags) (ie : Bool) (rest : Word) :
    decodeFlag l (flagPack l f ie rest) = placeFlags l f ie rest :=
  decodeFlag_encodeFlag l _

/-- Without a code the word is the bits as placed. -/
theorem decodeFlag_of_code_nil {l : FlagLayout} (h : l.code = []) (w : Word) : decodeFlag l w = w := by
  simp [decodeFlag, h]

/-- Every one-to-one map of words is the code of a layout, with the same places. -/
theorem exists_code (l : FlagLayout) (e : Equiv.Perm Word) :
    ∃ c, ∀ w, encodeFlag { l with code := c } w = e w := by
  induction e using Equiv.Perm.swap_induction_on with
  | one => exact ⟨[], fun _ => rfl⟩
  | swap_mul e a b _ ih =>
    obtain ⟨c, hc⟩ := ih
    refine ⟨c ++ [(a, b)], fun w => ?_⟩
    have hs : ∀ v, swapWord (a, b) v = Equiv.swap a b v := fun v => (Equiv.swap_apply_def a b v).symm
    simpa [encodeFlag, hs] using congrArg (Equiv.swap a b) (hc w)

end Sys2Proof.Machine
end

