-- ==== Sys2Proof/Laws/PerInstr.lean ====
section
/-! SUPPORT. Statements made per instruction: one lemma per constructor of `Instr`. -/

namespace Sys2Proof.Laws

theorem encodeOperand_length (base : Nat) (rd : BitVec 4) (ea : Operand) :
    (encodeOperand base rd ea).length = ea.words := by
  cases ea with
  | mem a => cases a <;> rfl
  | imm w => rfl
  | reg rs => rfl
  | imm4 i4 => rfl

theorem encodeAddr_length (base : Nat) (rd : BitVec 4) (a : AddrMode) :
    (encodeAddr base rd a).length = (Operand.mem a).words := by
  cases a <;> rfl

theorem encodeJump_length (base : Nat) (rd : BitVec 4) (ea : JumpMode) :
    (encodeJump base rd ea).length = ea.words := by
  cases ea <;> rfl

theorem encodeIo_length (base : Nat) (rd : BitVec 4) (ea : IoMode) :
    (encodeIo base rd ea).length = ea.words := by
  cases ea <;> rfl

namespace EncodeLength

/-- An instruction's encoding has as many words as 30_encoding.md R53 gives it. -/
def Statement (i : Instr) : Prop := (encode i).length = i.words

theorem no : Statement .no := rfl
theorem ld (rd : Reg) (ea : Operand) : Statement (.ld rd ea) := encodeOperand_length _ _ _
theorem ldFlag (rd : Reg) : Statement (.ldFlag rd) := rfl
theorem st (rd : Reg) (ea : AddrMode) : Statement (.st rd ea) := encodeAddr_length _ _ _
theorem add (rd : Reg) (ea : Operand) : Statement (.add rd ea) := encodeOperand_length _ _ _
theorem sub (rd : Reg) (ea : Operand) : Statement (.sub rd ea) := encodeOperand_length _ _ _
theorem cmp (rd : Reg) (ea : Operand) : Statement (.cmp rd ea) := encodeOperand_length _ _ _
theorem and (rd : Reg) (ea : Operand) : Statement (.and rd ea) := encodeOperand_length _ _ _
theorem or (rd : Reg) (ea : Operand) : Statement (.or rd ea) := encodeOperand_length _ _ _
theorem xor (rd : Reg) (ea : Operand) : Statement (.xor rd ea) := encodeOperand_length _ _ _
theorem adds (rd : Reg) (ea : Operand) : Statement (.adds rd ea) := encodeOperand_length _ _ _
theorem mul (rd : Reg) (ea : Operand) : Statement (.mul rd ea) := encodeOperand_length _ _ _
theorem div (rd : Reg) (ea : Operand) : Statement (.div rd ea) := encodeOperand_length _ _ _
theorem mod (rd : Reg) (ea : Operand) : Statement (.mod rd ea) := encodeOperand_length _ _ _
theorem mull (rd : Reg) (ea : Operand) : Statement (.mull rd ea) := encodeOperand_length _ _ _
theorem divl (rd : Reg) (ea : Operand) : Statement (.divl rd ea) := encodeOperand_length _ _ _
theorem shla (rd : Reg) (ea : Operand) : Statement (.shla rd ea) := encodeOperand_length _ _ _
theorem shll (rd : Reg) (ea : Operand) : Statement (.shll rd ea) := encodeOperand_length _ _ _
theorem shra (rd : Reg) (ea : Operand) : Statement (.shra rd ea) := encodeOperand_length _ _ _
theorem shrl (rd : Reg) (ea : Operand) : Statement (.shrl rd ea) := encodeOperand_length _ _ _
theorem jz (ea : JumpMode) : Statement (.jz ea) := encodeJump_length _ _ _
theorem jc (ea : JumpMode) : Statement (.jc ea) := encodeJump_length _ _ _
theorem jm (ea : JumpMode) : Statement (.jm ea) := encodeJump_length _ _ _
theorem jo (ea : JumpMode) : Statement (.jo ea) := encodeJump_length _ _ _
theorem jgt (ea : JumpMode) : Statement (.jgt ea) := encodeJump_length _ _ _
theorem jge (ea : JumpMode) : Statement (.jge ea) := encodeJump_length _ _ _
theorem jle (ea : JumpMode) : Statement (.jle ea) := encodeJump_length _ _ _
theorem jlt (ea : JumpMode) : Statement (.jlt ea) := encodeJump_length _ _ _
theorem jnz (ea : JumpMode) : Statement (.jnz ea) := encodeJump_length _ _ _
theorem jnc (ea : JumpMode) : Statement (.jnc ea) := encodeJump_length _ _ _
theorem jnm (ea : JumpMode) : Statement (.jnm ea) := encodeJump_length _ _ _
theorem jno (ea : JumpMode) : Statement (.jno ea) := encodeJump_length _ _ _
theorem jhi (ea : JumpMode) : Statement (.jhi ea) := encodeJump_length _ _ _
theorem jls (ea : JumpMode) : Statement (.jls ea) := encodeJump_length _ _ _
theorem jmp (ea : JumpMode) : Statement (.jmp ea) := encodeJump_length _ _ _
theorem call (ea : JumpMode) : Statement (.call ea) := encodeJump_length _ _ _
theorem inp (rd : Reg) (ea : IoMode) : Statement (.inp rd ea) := encodeIo_length _ _ _
theorem out (rd : Reg) (ea : IoMode) : Statement (.out rd ea) := encodeIo_length _ _ _
theorem push (rd : Reg) : Statement (.push rd) := rfl
theorem pop (rd : Reg) : Statement (.pop rd) := rfl
theorem ret : Statement .ret := rfl
theorem reti : Statement .reti := rfl
theorem ei : Statement .ei := rfl
theorem di : Statement .di := rfl
theorem svc : Statement .svc := rfl
theorem halt : Statement .halt := rfl

end EncodeLength

end Sys2Proof.Laws
end

