-- ==== Sys2Proof/Laws/Step.lean ====
section
/-! SUPPORT. What one step can do. -/

namespace Sys2Proof.Machine

/-- The fetch: a one-word instruction, or a two-word one with its second word two bytes on. -/
theorem fetch_eq_next {s : State} {p : Instr × State} :
    fetch s = .next p ↔
      ∃ w1, readWord s s.pc = .next w1 ∧
        ((∃ i, decodeFirst w1 = .ok (.one i) ∧ p = (i, s.setPc (s.pc + 2#16))) ∨
         ∃ f w2, decodeFirst w1 = .ok (.two f) ∧ readWord s (s.pc + 2#16) = .next w2 ∧
           p = (f w2, s.setPc (s.pc + 4#16))) := by
  unfold fetch
  rw [andThen_eq_next]
  refine exists_congr fun w1 => and_congr_right fun _ => ?_
  cases hd : decodeFirst w1 with
  | error e => simp
  | ok d =>
    cases d with
    | one i => simp [eq_comm (a := p)]
    | two f => simp [andThen_eq_next, eq_comm (a := p)]

/-- Where a boundary leads: a halted CPU stays or is woken, a running one takes a request or fetches. -/
theorem boundary_cases (s : State) :
    (s.halted = true ∧ s.cfg.haltWake = .no ∧ boundary s = .stay s) ∨
    (s.halted = true ∧ s.cfg.haltWake = .yes ∧ accepted s = none ∧ boundary s = .stay s.passBoundary) ∨
    (∃ h, s.halted = true ∧ s.cfg.haltWake = .yes ∧ accepted s = some h ∧
      boundary s = .trap h (s.passBoundary.setHalted false)) ∨
    (∃ h, s.halted = false ∧ accepted s = some h ∧ boundary s = .trap h s.passBoundary) ∨
    (s.halted = false ∧ accepted s = none ∧ boundary s = .fetch s.passBoundary) := by
  unfold boundary
  cases hh : s.halted <;> cases hw : s.cfg.haltWake <;> cases ha : accepted s <;> simp

/-- What a reserved encoding leads to, where it leads on: trap entry, under `ILLEGAL = trap`. -/
theorem illegalEncoding_eq_next {s t : State} :
    illegalEncoding s = .next t ↔
      ∃ h k, s.cfg.illegal = .trap h k ∧ trapEntry h (s.setPc (savedPcOf k s.pc)) = .next t := by
  unfold illegalEncoding
  cases s.cfg.illegal <;> simp

/-- What follows a fetch: the instruction runs, or a reserved encoding is trapped. -/
theorem fetchThen_eq_next {s t : State} {run : Instr → State → Res State} :
    fetchThen s run = .next t ↔
      (∃ i u, fetch s = .next (i, u) ∧ run i u = .next t) ∨
      (fetch s = .refused .reservedEncoding ∧ illegalEncoding s = .next t) := by
  unfold fetchThen
  cases hf : fetch s with
  | next p => obtain ⟨i, u⟩ := p; simp [eq_comm (a := i), eq_comm (a := u)]
  | fault r => simp
  | refused r => by_cases hr : r = .reservedEncoding <;> simp [hr]

/-- What a step that answers a next state did: stay halted, enter a trap, run one instruction, or trap a
reserved encoding. -/
theorem step_cases {s t : State} (h : step s = .next t) :
    (s.halted = true ∧ s.cfg.haltWake = .no ∧ t = s) ∨
    (s.halted = true ∧ s.cfg.haltWake = .yes ∧ accepted s = none ∧ t = s.passBoundary) ∨
    (∃ hd, s.halted = true ∧ s.cfg.haltWake = .yes ∧ accepted s = some hd ∧
      trapEntry hd (s.passBoundary.setHalted false) = .next t) ∨
    (∃ hd, s.halted = false ∧ accepted s = some hd ∧ trapEntry hd s.passBoundary = .next t) ∨
    (∃ i u, s.halted = false ∧ accepted s = none ∧ fetch s.passBoundary = .next (i, u) ∧
      exec i u = .next t) ∨
    (∃ hd k, s.halted = false ∧ accepted s = none ∧
      fetch s.passBoundary = .refused .reservedEncoding ∧ s.cfg.illegal = .trap hd k ∧
      trapEntry hd (s.passBoundary.setPc (savedPcOf k s.pc)) = .next t) := by
  unfold step at h
  rcases boundary_cases s with ⟨h1, h2, hb⟩ | ⟨h1, h2, h3, hb⟩ | ⟨hd, h1, h2, h3, hb⟩ | ⟨hd, h1, h2, hb⟩ |
    ⟨h1, h2, hb⟩ <;> rw [hb] at h
  · exact .inl ⟨h1, h2, by simpa [eq_comm (a := t)] using h⟩
  · exact .inr (.inl ⟨h1, h2, h3, by simpa [eq_comm (a := t)] using h⟩)
  · exact .inr (.inr (.inl ⟨hd, h1, h2, h3, h⟩))
  · exact .inr (.inr (.inr (.inl ⟨hd, h1, h2, h⟩)))
  · rcases fetchThen_eq_next.1 h with ⟨i, u, hf, he⟩ | ⟨hf, hi⟩
    · exact .inr (.inr (.inr (.inr (.inl ⟨i, u, h1, h2, hf, he⟩))))
    · obtain ⟨hd, k, hc, ht⟩ := illegalEncoding_eq_next.1 hi
      exact .inr (.inr (.inr (.inr (.inr ⟨hd, k, h1, h2, hf, hc, ht⟩))))

end Sys2Proof.Machine
end

