-- ==== Sys2Proof/Tests/Slice0.lean ====
section
/-! SUPPORT. The model's own tests. Expected values come from the spec: the opcode table's rows with their field
places (spec/opcode_table.json, 30_encoding.md R51), and the vectors V1 to V10 of 95_test_vectors.md. The last
part holds, for each statement with hypotheses, a concrete state and operands that meet them. -/

namespace Sys2Proof.Tests

set_option Elab.async false

open Sys2Proof Sys2Proof.Machine

/-! ### Well-formedness: the one check, and terms it refuses (42_multiply_divide.md R115) -/

theorem test_wf_mull_odd_refused : Instr.wellFormed (.mull 3 (.imm4 3)) = false := rfl
theorem test_wf_divl_odd_refused : Instr.wellFormed (.divl 15 (.reg 2)) = false := rfl
theorem test_wf_mull_even_accepted : Instr.wellFormed (.mull 14 (.reg 2)) = true := rfl
theorem test_wf_mul_odd_accepted : Instr.wellFormed (.mul 3 (.imm4 3)) = true := rfl

/-! ### Decoding: every row of the opcode table, one word each, in both byte orders -/

/-- In either byte order the words are exactly the instruction beside them. -/
def decodesAll (l : List (List Word × Instr)) : Bool :=
  [ByteOrder.big, .little].all fun o => l.all fun p =>
    match decodeBytes o (layWords o p.1) with
    | .ok (i, []) => decide (i = p.2)
    | .ok (_, _ :: _) => false
    | .error _ => false

/-- The first word is rejected for the reason beside it. -/
def rejectsAll (l : List (Word × Reject)) : Bool :=
  l.all fun p =>
    match decodeFirst p.1 with
    | .ok _ => false
    | .error e => decide (e = p.2)

theorem test_decode_no : decodesAll [
    ([0x0000], .no)] = true := by decide +kernel

theorem test_decode_ld : decodesAll [
    ([0x0860, 0x1234], .ld 6 (.mem (.drct 0x1234))),
    ([0x0984, 0x1234], .ld 8 (.mem (.index 0x1234 4))), ([0x0A10, 0x1234], .ld 1 (.imm 0x1234)),
    ([0x0BE2], .ld 14 (.mem (.fpRlt 2))), ([0x0C6F], .ld 6 (.reg 15)), ([0x0D89], .ld 8 (.imm4 9)),
    ([0x0E14], .ld 1 (.mem (.indr 4))), ([0x0FE7], .ld 14 (.mem (.bIndr 7)))] = true := by decide +kernel

theorem test_decode_ldFlag : decodesAll [
    ([0x1460], .ldFlag 6)] = true := by decide +kernel

theorem test_decode_st : decodesAll [
    ([0x1080, 0x1234], .st 8 (.drct 0x1234)), ([0x1119, 0x1234], .st 1 (.index 0x1234 9)),
    ([0x13E4], .st 14 (.fpRlt 4)), ([0x1667], .st 6 (.indr 7)), ([0x1782], .st 8 (.bIndr 2))] = true := by decide +kernel

theorem test_decode_add : decodesAll [
    ([0x1810, 0x1234], .add 1 (.mem (.drct 0x1234))),
    ([0x19E9, 0x1234], .add 14 (.mem (.index 0x1234 9))), ([0x1A60, 0x1234], .add 6 (.imm 0x1234)),
    ([0x1B87], .add 8 (.mem (.fpRlt 7))), ([0x1C12], .add 1 (.reg 2)), ([0x1DEF], .add 14 (.imm4 15)),
    ([0x1E69], .add 6 (.mem (.indr 9))), ([0x1F84], .add 8 (.mem (.bIndr 4)))] = true := by decide +kernel

theorem test_decode_sub : decodesAll [
    ([0x2010, 0x1234], .sub 1 (.mem (.drct 0x1234))),
    ([0x21E2, 0x1234], .sub 14 (.mem (.index 0x1234 2))), ([0x2260, 0x1234], .sub 6 (.imm 0x1234)),
    ([0x2389], .sub 8 (.mem (.fpRlt 9))), ([0x2414], .sub 1 (.reg 4)), ([0x25E7], .sub 14 (.imm4 7)),
    ([0x2662], .sub 6 (.mem (.indr 2))), ([0x278F], .sub 8 (.mem (.bIndr 15)))] = true := by decide +kernel

theorem test_decode_cmp : decodesAll [
    ([0x2810, 0x1234], .cmp 1 (.mem (.drct 0x1234))),
    ([0x29E4, 0x1234], .cmp 14 (.mem (.index 0x1234 4))), ([0x2A60, 0x1234], .cmp 6 (.imm 0x1234)),
    ([0x2B82], .cmp 8 (.mem (.fpRlt 2))), ([0x2C1F], .cmp 1 (.reg 15)), ([0x2DE9], .cmp 14 (.imm4 9)),
    ([0x2E64], .cmp 6 (.mem (.indr 4))), ([0x2F87], .cmp 8 (.mem (.bIndr 7)))] = true := by decide +kernel

theorem test_decode_and : decodesAll [
    ([0x3010, 0x1234], .and 1 (.mem (.drct 0x1234))),
    ([0x31EF, 0x1234], .and 14 (.mem (.index 0x1234 15))), ([0x3260, 0x1234], .and 6 (.imm 0x1234)),
    ([0x3384], .and 8 (.mem (.fpRlt 4))), ([0x3417], .and 1 (.reg 7)), ([0x35E2], .and 14 (.imm4 2)),
    ([0x366F], .and 6 (.mem (.indr 15))), ([0x3789], .and 8 (.mem (.bIndr 9)))] = true := by decide +kernel

theorem test_decode_or : decodesAll [
    ([0x3810, 0x1234], .or 1 (.mem (.drct 0x1234))),
    ([0x39E7, 0x1234], .or 14 (.mem (.index 0x1234 7))), ([0x3A60, 0x1234], .or 6 (.imm 0x1234)),
    ([0x3B8F], .or 8 (.mem (.fpRlt 15))), ([0x3C19], .or 1 (.reg 9)), ([0x3DE4], .or 14 (.imm4 4)),
    ([0x3E67], .or 6 (.mem (.indr 7))), ([0x3F82], .or 8 (.mem (.bIndr 2)))] = true := by decide +kernel

theorem test_decode_xor : decodesAll [
    ([0x4010, 0x1234], .xor 1 (.mem (.drct 0x1234))),
    ([0x41E9, 0x1234], .xor 14 (.mem (.index 0x1234 9))), ([0x4260, 0x1234], .xor 6 (.imm 0x1234)),
    ([0x4387], .xor 8 (.mem (.fpRlt 7))), ([0x4412], .xor 1 (.reg 2)), ([0x45EF], .xor 14 (.imm4 15)),
    ([0x4669], .xor 6 (.mem (.indr 9))), ([0x4784], .xor 8 (.mem (.bIndr 4)))] = true := by decide +kernel

theorem test_decode_adds : decodesAll [
    ([0x4810, 0x1234], .adds 1 (.mem (.drct 0x1234))),
    ([0x49E2, 0x1234], .adds 14 (.mem (.index 0x1234 2))), ([0x4A60, 0x1234], .adds 6 (.imm 0x1234)),
    ([0x4B89], .adds 8 (.mem (.fpRlt 9))), ([0x4C14], .adds 1 (.reg 4)),
    ([0x4DE7], .adds 14 (.imm4 7)), ([0x4E62], .adds 6 (.mem (.indr 2))),
    ([0x4F8F], .adds 8 (.mem (.bIndr 15)))] = true := by decide +kernel

theorem test_decode_mul : decodesAll [
    ([0x5010, 0x1234], .mul 1 (.mem (.drct 0x1234))),
    ([0x51E4, 0x1234], .mul 14 (.mem (.index 0x1234 4))), ([0x5260, 0x1234], .mul 6 (.imm 0x1234)),
    ([0x5382], .mul 8 (.mem (.fpRlt 2))), ([0x541F], .mul 1 (.reg 15)), ([0x55E9], .mul 14 (.imm4 9)),
    ([0x5664], .mul 6 (.mem (.indr 4))), ([0x5787], .mul 8 (.mem (.bIndr 7)))] = true := by decide +kernel

theorem test_decode_div : decodesAll [
    ([0x5810, 0x1234], .div 1 (.mem (.drct 0x1234))),
    ([0x59EF, 0x1234], .div 14 (.mem (.index 0x1234 15))), ([0x5A60, 0x1234], .div 6 (.imm 0x1234)),
    ([0x5B84], .div 8 (.mem (.fpRlt 4))), ([0x5C17], .div 1 (.reg 7)), ([0x5DE2], .div 14 (.imm4 2)),
    ([0x5E6F], .div 6 (.mem (.indr 15))), ([0x5F89], .div 8 (.mem (.bIndr 9)))] = true := by decide +kernel

theorem test_decode_mod : decodesAll [
    ([0x6010, 0x1234], .mod 1 (.mem (.drct 0x1234))),
    ([0x61E7, 0x1234], .mod 14 (.mem (.index 0x1234 7))), ([0x6260, 0x1234], .mod 6 (.imm 0x1234)),
    ([0x638F], .mod 8 (.mem (.fpRlt 15))), ([0x6419], .mod 1 (.reg 9)), ([0x65E4], .mod 14 (.imm4 4)),
    ([0x6667], .mod 6 (.mem (.indr 7))), ([0x6782], .mod 8 (.mem (.bIndr 2)))] = true := by decide +kernel

theorem test_decode_mull : decodesAll [
    ([0x6820, 0x1234], .mull 2 (.mem (.drct 0x1234))),
    ([0x69E9, 0x1234], .mull 14 (.mem (.index 0x1234 9))), ([0x6A60, 0x1234], .mull 6 (.imm 0x1234)),
    ([0x6B87], .mull 8 (.mem (.fpRlt 7))), ([0x6C22], .mull 2 (.reg 2)),
    ([0x6DEF], .mull 14 (.imm4 15)), ([0x6E69], .mull 6 (.mem (.indr 9))),
    ([0x6F84], .mull 8 (.mem (.bIndr 4)))] = true := by decide +kernel

theorem test_decode_divl : decodesAll [
    ([0x7020, 0x1234], .divl 2 (.mem (.drct 0x1234))),
    ([0x71E2, 0x1234], .divl 14 (.mem (.index 0x1234 2))), ([0x7260, 0x1234], .divl 6 (.imm 0x1234)),
    ([0x7389], .divl 8 (.mem (.fpRlt 9))), ([0x7424], .divl 2 (.reg 4)),
    ([0x75E7], .divl 14 (.imm4 7)), ([0x7662], .divl 6 (.mem (.indr 2))),
    ([0x778F], .divl 8 (.mem (.bIndr 15)))] = true := by decide +kernel

theorem test_decode_shla : decodesAll [
    ([0x8010, 0x1234], .shla 1 (.mem (.drct 0x1234))),
    ([0x81E4, 0x1234], .shla 14 (.mem (.index 0x1234 4))), ([0x8260, 0x1234], .shla 6 (.imm 0x1234)),
    ([0x8382], .shla 8 (.mem (.fpRlt 2))), ([0x841F], .shla 1 (.reg 15)),
    ([0x85E9], .shla 14 (.imm4 9)), ([0x8664], .shla 6 (.mem (.indr 4))),
    ([0x8787], .shla 8 (.mem (.bIndr 7)))] = true := by decide +kernel

theorem test_decode_shll : decodesAll [
    ([0x8810, 0x1234], .shll 1 (.mem (.drct 0x1234))),
    ([0x89EF, 0x1234], .shll 14 (.mem (.index 0x1234 15))), ([0x8A60, 0x1234], .shll 6 (.imm 0x1234)),
    ([0x8B84], .shll 8 (.mem (.fpRlt 4))), ([0x8C17], .shll 1 (.reg 7)),
    ([0x8DE2], .shll 14 (.imm4 2)), ([0x8E6F], .shll 6 (.mem (.indr 15))),
    ([0x8F89], .shll 8 (.mem (.bIndr 9)))] = true := by decide +kernel

theorem test_decode_shra : decodesAll [
    ([0x9010, 0x1234], .shra 1 (.mem (.drct 0x1234))),
    ([0x91E7, 0x1234], .shra 14 (.mem (.index 0x1234 7))), ([0x9260, 0x1234], .shra 6 (.imm 0x1234)),
    ([0x938F], .shra 8 (.mem (.fpRlt 15))), ([0x9419], .shra 1 (.reg 9)),
    ([0x95E4], .shra 14 (.imm4 4)), ([0x9667], .shra 6 (.mem (.indr 7))),
    ([0x9782], .shra 8 (.mem (.bIndr 2)))] = true := by decide +kernel

theorem test_decode_shrl : decodesAll [
    ([0x9810, 0x1234], .shrl 1 (.mem (.drct 0x1234))),
    ([0x99E9, 0x1234], .shrl 14 (.mem (.index 0x1234 9))), ([0x9A60, 0x1234], .shrl 6 (.imm 0x1234)),
    ([0x9B87], .shrl 8 (.mem (.fpRlt 7))), ([0x9C12], .shrl 1 (.reg 2)),
    ([0x9DEF], .shrl 14 (.imm4 15)), ([0x9E69], .shrl 6 (.mem (.indr 9))),
    ([0x9F84], .shrl 8 (.mem (.bIndr 4)))] = true := by decide +kernel

theorem test_decode_jz : decodesAll [
    ([0xA000, 0x1234], .jz (.drct 0x1234)), ([0xA102, 0x1234], .jz (.index 0x1234 2)),
    ([0xA60F], .jz (.indr 15))] = true := by decide +kernel

theorem test_decode_jc : decodesAll [
    ([0xA010, 0x1234], .jc (.drct 0x1234)), ([0xA114, 0x1234], .jc (.index 0x1234 4)),
    ([0xA617], .jc (.indr 7))] = true := by decide +kernel

theorem test_decode_jm : decodesAll [
    ([0xA020, 0x1234], .jm (.drct 0x1234)), ([0xA12F, 0x1234], .jm (.index 0x1234 15)),
    ([0xA629], .jm (.indr 9))] = true := by decide +kernel

theorem test_decode_jo : decodesAll [
    ([0xA030, 0x1234], .jo (.drct 0x1234)), ([0xA137, 0x1234], .jo (.index 0x1234 7)),
    ([0xA632], .jo (.indr 2))] = true := by decide +kernel

theorem test_decode_jgt : decodesAll [
    ([0xA040, 0x1234], .jgt (.drct 0x1234)), ([0xA149, 0x1234], .jgt (.index 0x1234 9)),
    ([0xA644], .jgt (.indr 4))] = true := by decide +kernel

theorem test_decode_jge : decodesAll [
    ([0xA050, 0x1234], .jge (.drct 0x1234)), ([0xA152, 0x1234], .jge (.index 0x1234 2)),
    ([0xA65F], .jge (.indr 15))] = true := by decide +kernel

theorem test_decode_jle : decodesAll [
    ([0xA060, 0x1234], .jle (.drct 0x1234)), ([0xA164, 0x1234], .jle (.index 0x1234 4)),
    ([0xA667], .jle (.indr 7))] = true := by decide +kernel

theorem test_decode_jlt : decodesAll [
    ([0xA070, 0x1234], .jlt (.drct 0x1234)), ([0xA17F, 0x1234], .jlt (.index 0x1234 15)),
    ([0xA679], .jlt (.indr 9))] = true := by decide +kernel

theorem test_decode_jnz : decodesAll [
    ([0xA080, 0x1234], .jnz (.drct 0x1234)), ([0xA187, 0x1234], .jnz (.index 0x1234 7)),
    ([0xA682], .jnz (.indr 2))] = true := by decide +kernel

theorem test_decode_jnc : decodesAll [
    ([0xA090, 0x1234], .jnc (.drct 0x1234)), ([0xA199, 0x1234], .jnc (.index 0x1234 9)),
    ([0xA694], .jnc (.indr 4))] = true := by decide +kernel

theorem test_decode_jnm : decodesAll [
    ([0xA0A0, 0x1234], .jnm (.drct 0x1234)), ([0xA1A2, 0x1234], .jnm (.index 0x1234 2)),
    ([0xA6AF], .jnm (.indr 15))] = true := by decide +kernel

theorem test_decode_jno : decodesAll [
    ([0xA0B0, 0x1234], .jno (.drct 0x1234)), ([0xA1B4, 0x1234], .jno (.index 0x1234 4)),
    ([0xA6B7], .jno (.indr 7))] = true := by decide +kernel

theorem test_decode_jhi : decodesAll [
    ([0xA0C0, 0x1234], .jhi (.drct 0x1234)), ([0xA1CF, 0x1234], .jhi (.index 0x1234 15)),
    ([0xA6C9], .jhi (.indr 9))] = true := by decide +kernel

theorem test_decode_jls : decodesAll [
    ([0xA0E0, 0x1234], .jls (.drct 0x1234)), ([0xA1E7, 0x1234], .jls (.index 0x1234 7)),
    ([0xA6E2], .jls (.indr 2))] = true := by decide +kernel

theorem test_decode_jmp : decodesAll [
    ([0xA0F0, 0x1234], .jmp (.drct 0x1234)), ([0xA1F9, 0x1234], .jmp (.index 0x1234 9)),
    ([0xA6F4], .jmp (.indr 4))] = true := by decide +kernel

theorem test_decode_call : decodesAll [
    ([0xA800, 0x1234], .call (.drct 0x1234)), ([0xA902, 0x1234], .call (.index 0x1234 2)),
    ([0xAE0F], .call (.indr 15))] = true := by decide +kernel

theorem test_decode_inp : decodesAll [
    ([0xB010, 0x1234], .inp 1 (.drct 0x1234)), ([0xB6E4], .inp 14 (.indr 4)),
    ([0xB767], .inp 6 (.bIndr 7))] = true := by decide +kernel

theorem test_decode_out : decodesAll [
    ([0xB880, 0x1234], .out 8 (.drct 0x1234)), ([0xBE1F], .out 1 (.indr 15)),
    ([0xBFE9], .out 14 (.bIndr 9))] = true := by decide +kernel

theorem test_decode_push : decodesAll [
    ([0xC060], .push 6)] = true := by decide +kernel

theorem test_decode_pop : decodesAll [
    ([0xC480], .pop 8)] = true := by decide +kernel

theorem test_decode_ret : decodesAll [
    ([0xD000], .ret)] = true := by decide +kernel

theorem test_decode_reti : decodesAll [
    ([0xD400], .reti)] = true := by decide +kernel

theorem test_decode_ei : decodesAll [
    ([0xE000], .ei)] = true := by decide +kernel

theorem test_decode_di : decodesAll [
    ([0xE400], .di)] = true := by decide +kernel

theorem test_decode_svc : decodesAll [
    ([0xF000], .svc)] = true := by decide +kernel

theorem test_decode_halt : decodesAll [
    ([0xFF00], .halt)] = true := by decide +kernel

/-- The reserved words of V1, V5 to V8 and V10. -/
theorem test_decode_rejects : rejectsAll [
    (0x0812, .reservedField), (0x1412, .reservedField), (0x0010, .reservedField), (0xA0F1, .reservedField),
    (0xA810, .reservedField), (0xC071, .reservedField), (0xD010, .reservedField), (0xD401, .reservedField),
    (0xFF10, .reservedField), (0x1210, .reservedOp), (0x1530, .reservedOp), (0x7800, .reservedOp),
    (0xA2F0, .reservedOp), (0xA7F5, .reservedOp), (0xAF04, .reservedOp), (0xB123, .reservedOp),
    (0xBA20, .reservedOp), (0xC170, .reservedOp), (0xC870, .reservedOp), (0xF100, .reservedOp),
    (0xF800, .reservedOp), (0xFE00, .reservedOp), (0x6D33, .oddPair), (0x7552, .oddPair),
    (0xA0D0, .reservedCondition)] = true := by decide +kernel

/-- The numbering of the opcode table: the first word in the low bits, an operand word beyond them 0. -/
theorem test_table_word : decodeTableWord 16 0xA0F0 = some (.jmp (.drct 0)) ∧
    decodeTableWord 32 0x12340A10 = some (.ld 1 (.imm 0x1234)) ∧ decodeTableWord 16 0xA0D0 = none :=
  ⟨rfl, rfl, rfl⟩

/-! ### One step (V1 to V9) -/

/-- The instruction at 0100h right after a reset under the parameters `c`. -/
def vecOf (c : Config) (w1 w2 : Word) : State :=
  ({ State.resetOf c with pc := 0x0100 } : State).placeWords w1 w2

/-- The same under the illustrative setting: `FP` is `R12`, `SP` is `R13`, all memory mapped. -/
def vec (w1 w2 : Word) : State := vecOf Config.reference w1 w2

/-- `MULDIV_SIGNED` as given. -/
def vecSigned (m : MulDivSigned) (w1 w2 : Word) : State :=
  vecOf { Config.reference with mulDivSigned := m } w1 w2

/-- `word[a] = v`. -/
def withWord (s : State) (a v : Word) : State := s.setMem (storeWord s.cfg s.mem a v)

/-- `byte[a] = v`. -/
def withByte (s : State) (a : Word) (v : Byte) : State := s.setMem (memSet s.mem a.toNat v)

/-- One step answers a next state, and `p` holds of it. -/
def steps (s : State) (p : State → Bool) : Bool :=
  match step s with
  | .next t => p t
  | .fault _ => false
  | .refused _ => false

/-- `x[i]` and `pc` are as given. -/
def shows (i : Reg) (v pc : Word) (t : State) : Bool := t.reg i == v && t.pc == pc

/-- `Z`, `C`, `S`, `V` are as given. -/
def zcsv (z c s v : Bool) (t : State) : Bool := decide (t.flags = ⟨z, c, s, v⟩)

/-- `Z` and `S` are as given; `C` and `V` are free. -/
def zs (z s : Bool) (t : State) : Bool := t.flags.z == z && t.flags.s == s

theorem test_no : steps ((vec 0x0000 0).setFlags ⟨true, false, false, true⟩) (fun t =>
    t.pc == 0x0102 && zcsv true false false true t) = true := by decide +kernel
theorem test_ld_index_wraps : steps (withWord ((vec 0x0912 0xFFFE).setReg 2 4) 0x0002 0x1111)
    (shows 1 0x1111 0x0104) = true := by decide +kernel
theorem test_ld_byte_sign : steps
    (withByte ((vecOf { Config.reference with byteExt := .sign } 0x0F12 0).setReg 2 0x0301) 0x0301 0x80)
    (shows 1 0xFF80 0x0102) = true := by decide +kernel
/-- The bits are those of `Config.reference`'s layout: `Z` bit 0, `V` bit 3. -/
theorem test_ld_flag : steps ((vec 0x1430 0).setFlags ⟨true, false, false, true⟩)
    (shows 3 0x0009 0x0102) = true := by decide +kernel
theorem test_st_fp_relative_wraps : steps ((vec 0x131F 0).setReg 1 0xBEEF) (fun t =>
    memGet t.mem 0xFFFE == 0xBE && memGet t.mem 0xFFFF == 0xEF) = true := by decide +kernel
theorem test_st_low_byte : steps (((vec 0x1712 0).setReg 1 0x1234).setReg 2 0x0301) (fun t =>
    memGet t.mem 0x0301 == 0x34 && memGet t.mem 0x0300 == 0 && memGet t.mem 0x0302 == 0) = true := by
  decide +kernel
theorem test_add_signed_overflow : steps ((vec 0x1D11 0).setReg 1 0x7FFF) (fun t =>
    shows 1 0x8000 0x0102 t && zcsv false false true true t) = true := by decide +kernel
theorem test_add_carry : steps (((vec 0x1C12 0).setReg 1 0x8000).setReg 2 0x8000) (fun t =>
    shows 1 0 0x0102 t && zcsv true true false true t) = true := by decide +kernel
theorem test_sub_borrow : steps (vec 0x2511 0) (fun t =>
    shows 1 0xFFFF 0x0102 t && zcsv false true true false t) = true := by decide +kernel
theorem test_sub_overflow : steps (((vec 0x2412 0).setReg 1 0x7FFF).setReg 2 0xFFFF) (fun t =>
    shows 1 0x8000 0x0102 t && zcsv false true true true t) = true := by decide +kernel
theorem test_cmp_overflow : steps (((vec 0x2C12 0).setReg 1 0x8000).setReg 2 1) (fun t =>
    shows 1 0x8000 0x0102 t && zcsv false false false true t) = true := by decide +kernel
theorem test_cmp_equal : steps ((vec 0x2D10 0).setFlags ⟨false, true, true, true⟩)
    (zcsv true false false false) = true := by decide +kernel
theorem test_and : steps (((vec 0x3412 0).setReg 1 0xF0F0).setReg 2 0x0FF0) (fun t =>
    shows 1 0x00F0 0x0102 t && zs false false t) = true := by decide +kernel
theorem test_or : steps (vec 0x3D1F 0) (fun t => shows 1 0xFFFF 0x0102 t && zs false true t) = true := by
  decide +kernel
theorem test_xor : steps ((vec 0x451F 0).setReg 1 0x00FF) (fun t =>
    shows 1 0xFF00 0x0102 t && zs false true t) = true := by decide +kernel
theorem test_xor_self : steps ((vec 0x4411 0).setReg 1 0x1234) (fun t =>
    shows 1 0 0x0102 t && zs true false t) = true := by decide +kernel
theorem test_adds : steps ((vec 0x4D13 0).setReg 1 0x0100) (fun t =>
    shows 1 0x0106 0x0102 t && zs false false t) = true := by decide +kernel
theorem test_adds_self : steps ((vec 0x4C00 0).setReg 0 7) (shows 0 0x0015 0x0102) = true := by
  decide +kernel
theorem test_mul_low_half : steps (((vec 0x5412 0).setReg 1 0xFFFF).setReg 2 0xFFFF)
    (shows 1 1 0x0102) = true := by decide +kernel
theorem test_div_floor : steps ((vecSigned .signedFloor 0x5D02 0).setReg 0 0xFFF9)
    (shows 0 0xFFFC 0x0102) = true := by decide +kernel
theorem test_div_trunc : steps ((vecSigned .signedTrunc 0x5D02 0).setReg 0 0xFFF9)
    (shows 0 0xFFFD 0x0102) = true := by decide +kernel
theorem test_mod_trunc : steps ((vecSigned .signedTrunc 0x6502 0).setReg 0 0xFFFF)
    (shows 0 0xFFFF 0x0102) = true := by decide +kernel
theorem test_mod_floor : steps ((vecSigned .signedFloor 0x6502 0).setReg 0 0xFFFF)
    (shows 0 1 0x0102) = true := by decide +kernel
theorem test_mull_signed : steps ((vecSigned .signedTrunc 0x6D22 0).setReg 2 0xFFFF) (fun t =>
    shows 2 0xFFFE 0x0102 t && t.reg 3 == 0xFFFF) = true := by decide +kernel
theorem test_mull_top_pair : steps (((vec 0x6DE2 0).setReg 14 0x4000).setReg 15 0xFFFF) (fun t =>
    shows 14 0x8000 0x0102 t && t.reg 15 == 0) = true := by decide +kernel
theorem test_divl : steps ((vec 0x7527 0).setReg 2 0x369C) (fun t =>
    shows 2 0x07CD 0x0102 t && t.reg 3 == 1) = true := by decide +kernel
theorem test_divl_floor : steps (((vecSigned .signedFloor 0x7522 0).setReg 2 0xFFF9).setReg 3 0xFFFF) (fun t =>
    shows 2 0xFFFC 0x0102 t && t.reg 3 == 1) = true := by decide +kernel
theorem test_shla : steps ((vec 0x8504 0).setReg 0 0x005A) (fun t =>
    shows 0 0x05A0 0x0102 t && zs false false t) = true := by decide +kernel
theorem test_shll : steps ((vec 0x8A00 8).setReg 0 0xFFFF) (fun t =>
    shows 0 0xFF00 0x0104 t && zs false true t) = true := by decide +kernel
theorem test_shra_copies_sign : steps (((vec 0x9402 0).setReg 0 0x8000).setReg 2 15) (fun t =>
    shows 0 0xFFFF 0x0102 t && zs false true t) = true := by decide +kernel
theorem test_shra_positive : steps ((vec 0x9501 0).setReg 0 0x7FFF) (shows 0 0x3FFF 0x0102) = true := by
  decide +kernel
theorem test_shrl_fills_zero : steps ((vec 0x9D04 0).setReg 0 0xF000) (fun t =>
    shows 0 0x0F00 0x0102 t && zs false false t) = true := by decide +kernel

/-! ### The jumps under the seven flag settings of V5 -/

/-- Whether the jump with condition number `cc` goes to its target 0200h, under each setting of V5. -/
def jumpsTaken (cc : Nat) : List Bool :=
  ([⟨true, false, false, false⟩, ⟨false, true, true, false⟩, ⟨false, false, false, false⟩,
    ⟨false, false, false, true⟩, ⟨false, true, true, true⟩, ⟨false, false, true, false⟩,
    ⟨false, true, false, false⟩] : List Flags).map fun f =>
    steps ((vec (BitVec.ofNat 16 (0xA000 + 16 * cc)) 0x0200).setFlags f) fun t => t.pc == 0x0200

theorem test_jz : jumpsTaken 0x0 =
    [true, false, false, false, false, false, false] := by decide +kernel
theorem test_jc : jumpsTaken 0x1 =
    [false, true, false, false, true, false, true] := by decide +kernel
theorem test_jm : jumpsTaken 0x2 =
    [false, true, false, false, true, true, false] := by decide +kernel
theorem test_jo : jumpsTaken 0x3 =
    [false, false, false, true, true, false, false] := by decide +kernel
theorem test_jgt : jumpsTaken 0x4 =
    [false, false, true, false, true, false, true] := by decide +kernel
theorem test_jge : jumpsTaken 0x5 =
    [true, false, true, false, true, false, true] := by decide +kernel
theorem test_jle : jumpsTaken 0x6 =
    [true, true, false, true, false, true, false] := by decide +kernel
theorem test_jlt : jumpsTaken 0x7 =
    [false, true, false, true, false, true, false] := by decide +kernel
theorem test_jnz : jumpsTaken 0x8 =
    [false, true, true, true, true, true, true] := by decide +kernel
theorem test_jnc : jumpsTaken 0x9 =
    [true, false, true, true, false, true, false] := by decide +kernel
theorem test_jnm : jumpsTaken 0xA =
    [true, false, true, true, false, false, true] := by decide +kernel
theorem test_jno : jumpsTaken 0xB =
    [true, true, true, false, false, true, true] := by decide +kernel
theorem test_jhi : jumpsTaken 0xC =
    [false, false, true, true, false, true, false] := by decide +kernel
theorem test_jls : jumpsTaken 0xE =
    [true, true, false, false, true, false, true] := by decide +kernel
theorem test_jmp : jumpsTaken 0xF =
    [true, true, true, true, true, true, true] := by decide +kernel
/-- Not taken is the following instruction, not merely another address than the target. -/
theorem test_jz_not_taken : steps (vec 0xA000 0x0200) (fun t => t.pc == 0x0104) = true := by decide +kernel
theorem test_jmp_index_wraps : steps ((vec 0xA1F5 0xFFF0).setReg 5 0x0020) (fun t => t.pc == 0x0010) = true := by
  decide +kernel

/-! ### Call, input and output, stack, system -/

theorem test_call_index : steps (((vec 0xA904 0x2000).setReg 13 0x0200).setReg 4 0x0010) (fun t =>
    shows 13 0x01FE 0x2010 t && loadWord t.cfg t.mem 0x01FE == 0x0104) = true := by decide +kernel
theorem test_call_wraps : steps (vec 0xA800 0x0010) (fun t =>
    shows 13 0xFFFE 0x0010 t && loadWord t.cfg t.mem 0xFFFE == 0x0104) = true := by decide +kernel
theorem test_in_word : steps { vec 0xB020 0x0010 with ioIn := [0xABCD, 7] } (fun t =>
    shows 2 0xABCD 0x0104 t && decide (t.ioLog = [.input 0x0010 (.word 0xABCD)] ∧ t.ioIn = [7])) = true := by
  decide +kernel
theorem test_in_byte_sign : steps
    { (vecOf { Config.reference with byteExt := .sign } 0xB723 0).setReg 3 0x0012 with ioIn := [0xC1] }
    (fun t => shows 2 0xFFC1 0x0102 t && decide (t.ioLog = [.input 0x0012 (.byte 0xC1)])) = true := by
  decide +kernel
theorem test_out_word : steps (((vec 0xBE23 0).setReg 2 0x1234).setReg 3 0x0013) (fun t =>
    t.pc == 0x0102 && decide (t.ioLog = [.output 0x0013 (.word 0x1234)])) = true := by decide +kernel
theorem test_out_low_byte : steps (((vec 0xBF23 0).setReg 2 0x1234).setReg 3 0x0013) (fun t =>
    decide (t.ioLog = [.output 0x0013 (.byte 0x34)])) = true := by decide +kernel
theorem test_push_wraps : steps ((vec 0xC070 0).setReg 7 0xABCD) (fun t =>
    shows 13 0xFFFE 0x0102 t && loadWord t.cfg t.mem 0xFFFE == 0xABCD) = true := by decide +kernel
theorem test_push_sp_refused : step ((vec 0xC0D0 0).setReg 13 0x0100) = .refused .spOperand := rfl
theorem test_pop_wraps : steps (withWord ((vec 0xC470 0).setReg 13 0xFFFE) 0xFFFE 1) (fun t =>
    shows 7 1 0x0102 t && t.reg 13 == 0) = true := by decide +kernel
theorem test_pop_misaligned : step ((vec 0xC470 0).setReg 13 0x00FF) = .refused .misaligned := rfl
theorem test_ret : steps (withWord ((vec 0xD000 0).setReg 13 0x00FE) 0x00FE 8)
    (shows 13 0x0100 0x0008) = true := by decide +kernel
/-- The flags' bits are those of `Config.reference`'s layout: `Z` bit 0, `IE` bit 7. -/
theorem test_reti : steps
    (withWord (withWord (((vec 0xD400 0).setReg 13 0x01FC).setFlags ⟨false, true, true, false⟩)
      0x01FC 0x0081) 0x01FE 0x0104) (fun t =>
    shows 13 0x0200 0x0104 t && zcsv true false false false t && t.ie) = true := by decide +kernel
theorem test_reti_wraps : steps (withWord ((vec 0xD400 0).setReg 13 0xFFFC) 0xFFFE 8)
    (shows 13 0 0x0008) = true := by decide +kernel
theorem test_ei : steps (vec 0xE000 0) (fun t => t.ie && t.pc == 0x0102) = true := by decide +kernel
theorem test_di : steps ((vec 0xE400 0).setIe true) (fun t => !t.ie && t.pc == 0x0102) = true := by decide +kernel
theorem test_halt : steps (vec 0xFF00 0) (fun t => t.halted && t.pc == 0x0102) = true := by decide +kernel

/-! ### Traps (V9) -/

/-- The parameters of V9: `VECTOR(svc)` = 0800h, one cause, number 5, with `VECTOR` = 0900h. -/
def trapCfg : Config :=
  { Config.reference with svcHandler := .fixed 0x0800, causes := [(5, .fixed 0x0900)] }

/-- What trap entry leaves: `SP`, the two words above it, `IE`, `pc`. -/
def trapped (saved flag : Word) (ie : Bool) (pc : Word) (t : State) : Bool :=
  shows 13 0x01FC pc t && loadWord t.cfg t.mem 0x01FE == saved && loadWord t.cfg t.mem 0x01FC == flag &&
    t.ie == ie

theorem test_svc_clears_ie : steps
    ((((vecOf trapCfg 0xF000 0).setReg 13 0x0200).setIe true).setFlags ⟨true, false, false, true⟩) (fun t =>
    trapped 0x0102 0x0089 false 0x0800 t && zcsv true false false true t) = true := by decide +kernel
theorem test_svc_keeps_ie : steps
    (((vecOf { trapCfg with trapIe := .keep } 0xF000 0).setReg 13 0x0200).setIe true)
    (trapped 0x0102 0x0080 true 0x0800) = true := by decide +kernel
theorem test_interrupt_taken : steps
    { ((vecOf trapCfg 0 0).setReg 13 0x0200).setFlags ⟨true, false, false, false⟩ with
      pc := 0x0104, ie := true, requests := [some 5] } (fun t =>
    trapped 0x0104 0x0081 false 0x0900 t && decide (t.requests = [])) = true := by decide +kernel
theorem test_interrupt_masked : steps { vecOf trapCfg 0x0D17 0 with requests := [some 5] }
    (shows 1 7 0x0102) = true := by decide +kernel
theorem test_halt_woken : steps
    { ((vecOf { trapCfg with haltWake := .yes } 0 0).setReg 13 0x0200) with
      pc := 0x0102, ie := true, halted := true, requests := [some 5] } (fun t =>
    trapped 0x0102 0x0080 false 0x0900 t && !t.halted) = true := by decide +kernel
theorem test_handler_from_memory : steps
    (withWord ((vecOf { trapCfg with svcHandler := .slot 0xFFE0 } 0xF000 0).setReg 13 0x0200) 0xFFE0 0x0A00)
    (trapped 0x0102 0 false 0x0A00) = true := by decide +kernel

/-- `ILLEGAL` as a trap to 0B00h: the reserved word of V1 at 0100h, saving its address or the next one. -/
def illegalState (k : SavedPc) (w1 w2 : Word) : State :=
  (vecOf { trapCfg with illegal := .trap (.fixed 0x0B00) k } w1 w2).setReg 13 0x0200

theorem test_illegal_trapped : steps ((illegalState .this 0x7800 0).setIe true)
    (trapped 0x0100 0x0080 false 0x0B00) = true := by decide +kernel
theorem test_odd_pair_trapped : steps (illegalState .following 0x6D33 0)
    (trapped 0x0102 0 false 0x0B00) = true := by decide +kernel

/-- A layout with a code: the words 0009h and 1234h are exchanged. -/
def codedCfg : Config :=
  { Config.reference with flagLayout := { Config.reference.flagLayout with code := [(0x0009, 0x1234)] } }

theorem test_ld_flag_coded : steps ((vecOf codedCfg 0x1430 0).setFlags ⟨true, false, false, true⟩)
    (shows 3 0x1234 0x0102) = true := by decide +kernel
theorem test_reti_coded : steps (withWord ((vecOf codedCfg 0xD400 0).setReg 13 0x01FC) 0x01FC 0x1234)
    (fun t => zcsv true false false true t && decide (t.flagRest = 0)) = true := by decide +kernel

/-! ### Stops -/

theorem test_div_by_zero : step ((vec 0x5D00 0).setReg 0 1) = .fault .divideByZero := rfl
theorem test_divl_overflow : step ((vec 0x7522 0).setReg 3 2) = .fault .divideOverflow := rfl
theorem test_odd_pair_refused : step (vec 0x6D33 0) = .refused .reservedEncoding := rfl
theorem test_ld_odd_address : step ((vec 0x0E12 0).setReg 2 0x0301) = .refused .misaligned := rfl
theorem test_odd_pc : step { vec 0 0 with pc := 0x0101 } = .refused .misaligned := rfl

/-! ### The fetch word of the host -/

theorem test_fetch_word_runs : steps (State.reset.withFetchWord 32 0x12340A10)
    (shows 1 0x1234 0x0004) = true := by decide +kernel
theorem test_memory_of_fetch_word_wf : Memory.wf (State.reset.withFetchWord 32 0x00340A10).mem = true := by
  decide +kernel

/-! ### Witnesses: for each statement with hypotheses, a state and operands that meet them -/

/-- Memory in three ranges: writable, read-only, write-only; nothing in between. -/
def partCfg : Config :=
  { Config.reference with
    memMap := [⟨0x0000, 0x7FFF, true, true⟩, ⟨0x8000, 0x80FF, true, false⟩, ⟨0xFFFE, 0xFFFF, false, true⟩] }

/-- A state with that memory map: `R1` = 0300h with 00FFh there, `R2` outside the map, `SP` = 0200h. -/
def partState : State :=
  withWord ((((vecOf partCfg 0x1810 0x0300).setReg 1 0x0300).setReg 2 0x9000).setReg 13 0x0200) 0x0300 0x00FF

/-- `State.reset`'s parameters with the given `MISALIGNED`. -/
def misalignedCfg (m : Misaligned) : Config := { Config.reference with misaligned := m }

/-- A state under the given `MISALIGNED`, `SP` = 0200h. -/
def misalignedState (m : Misaligned) : State := (vecOf (misalignedCfg m) 0 0).setReg 13 0x0200

/-- Two words at `pc` = FFFFh under the given `MISALIGNED`. -/
def oddFetch (m : Misaligned) (w1 w2 : Word) : State :=
  ({ State.resetOf (misalignedCfg m) with pc := 0xFFFF } : State).placeWords w1 w2

theorem witness_EncodedInstructionDecodes :
    Instr.wellFormed (.mull 14 (.mem (.index 0xFFFF 15))) = true ∧ Instr.wellFormed (.divl 0 (.imm4 8)) = true :=
  ⟨rfl, rfl⟩
theorem witness_DecodedBytesReencode :
    decodeBytes .little [0x10, 0x0A, 0x34, 0x12, 0xFF] = .ok (.ld 1 (.imm 0x1234), [0xFF]) := rfl
theorem witness_ReservedOpValuesRejected :
    (0x01 ∈ reservedOps ∧ 0xFE ∈ reservedOps ∧ opField 0x01FF = 0x01) ∧
    ((opField 0xA0D0).toNat ∈ jumpOps ∧ rdField 0xA0D0 = 0xD#4 ∧ (opField 0xA6DF).toNat ∈ jumpOps ∧
      rdField 0xA6DF = 0xD#4) ∧
    (0x68 ≤ (opField 0x6810).toNat ∧ (opField 0x77F0).toNat ≤ 0x77 ∧ (rdField 0x6810).toNat % 2 = 1 ∧
      (rdField 0x77F0).toNat % 2 = 1) := by decide +kernel
theorem witness_NonzeroFixedFieldRejected :
    (0x00 ∈ rxZeroOps ∧ opField 0x0001 = 0x00 ∧ rxField 0x0001 ≠ 0#4 ∧ (opField 0xFF0F).toNat ∈ rxZeroOps ∧
      rxField 0xFF0F ≠ 0#4) ∧
    ((opField 0x00F0).toNat ∈ rdZeroOps ∧ rdField 0x00F0 ≠ 0#4 ∧ (opField 0xFF10).toNat ∈ rdZeroOps ∧
      rdField 0xFF10 ≠ 0#4) := by decide +kernel
theorem witness_MemoryReadAsStated :
    readable partState.cfg 0x80FF = true ∧ readable partState.cfg 0x8100 = false ∧
    alignedFor partState.cfg 0x0301 = false ∧
    (alignedFor partState.cfg 0x8100 = true ∧ readable partState.cfg (firstByte partState.cfg 0x8100) = false) ∧
    (alignedFor partState.cfg 0x80FE = true ∧ readable partState.cfg (firstByte partState.cfg 0x80FE) = true ∧
      readable partState.cfg (firstByte partState.cfg 0x80FE + 1#16) = true ∧ partState.cfg.byteOrder = .big) ∧
    (let c : Config := { misalignedCfg .split with byteOrder := .little }
     alignedFor c 0xFFFF = true ∧ readable c (firstByte c 0xFFFF) = true ∧
      readable c (firstByte c 0xFFFF + 1#16) = true ∧ c.byteOrder = .little) := by decide +kernel
theorem witness_MemoryWriteAsStated :
    Memory.wf partState.mem = true ∧ writable partState.cfg 0xFFFF = true ∧ writable partState.cfg 0x8000 = false ∧
    alignedFor partState.cfg 0xFFFF = false ∧
    (alignedFor partState.cfg 0x80FE = true ∧ writable partState.cfg (firstByte partState.cfg 0x80FE) = false) ∧
    (alignedFor partState.cfg 0xFFFE = true ∧ writable partState.cfg (firstByte partState.cfg 0xFFFE) = true ∧
      writable partState.cfg (firstByte partState.cfg 0xFFFE + 1#16) = true ∧ partState.cfg.byteOrder = .big) ∧
    (let s : State := vecOf { misalignedCfg .mask with byteOrder := .little } 0 0
     Memory.wf s.mem = true ∧ alignedFor s.cfg 0xFFFF = true ∧ writable s.cfg (firstByte s.cfg 0xFFFF) = true ∧
      writable s.cfg (firstByte s.cfg 0xFFFF + 1#16) = true ∧ s.cfg.byteOrder = .little) := by decide +kernel
/-- Word accesses at the top of memory; fetches at `pc` = FFFFh, of one word and of two. -/
theorem witness_MisalignedAccessByParameter :
    ((misalignedState .refuse).cfg.misaligned = .refuse ∧ (0xFFFF : Word).toNat % 2 = 1) ∧
    (let s := misalignedState .split
     s.cfg.misaligned = .split ∧ readable s.cfg 0xFFFF = true ∧ readable s.cfg (0xFFFF + 1#16) = true ∧
      Memory.wf s.mem = true ∧ writable s.cfg 0xFFFF = true ∧ writable s.cfg (0xFFFF + 1#16) = true) ∧
    (let c : Config := { partCfg with misaligned := .split }
     c.misaligned = .split ∧ readable c 0x80FF = true ∧ readable c (0x80FF + 1#16) = false ∧
      writable c 0x7FFF = true ∧ writable c (0x7FFF + 1#16) = false) ∧
    ((misalignedState .mask).cfg.misaligned = .mask ∧ (0x0001 : Word).toNat % 2 = 1) ∧
    (0xFFFE : Word).toNat % 2 = 0 := by decide +kernel
theorem witness_MisalignedFetch :
    (oddFetch .refuse 0 0).pc.toNat % 2 = 1 ∧
    (let s := oddFetch .split 0x0C12 0
     s.cfg.misaligned = .split ∧ readable s.cfg s.pc = true ∧ readable s.cfg (s.pc + 1#16) = true ∧
      (0x0C12 : Word) = bytesWord s.cfg.byteOrder (memGet s.mem s.pc.toNat)
        (memGet s.mem ((s.pc.toNat + 1) % 65536)) ∧
      decodeFirst 0x0C12 = .ok (.one (.ld 1 (.reg 2)))) ∧
    (let s := oddFetch .split 0xA0F0 0x1234
     (0xA0F0 : Word) = bytesWord s.cfg.byteOrder (memGet s.mem s.pc.toNat)
        (memGet s.mem ((s.pc.toNat + 1) % 65536)) ∧
      decodeFirst 0xA0F0 = .ok (.two fun w => .jmp (.drct w)) ∧
      readable s.cfg (s.pc + 2#16) = true ∧ readable s.cfg (s.pc + 3#16) = true) ∧
    (let s := oddFetch .mask 0x0C12 0
     s.cfg.misaligned = .mask ∧ readWord s (s.pc - 1#16) = .next 0x0C12) ∧
    (let s := oddFetch .mask 0xA0F0 0x1234
     readWord s (s.pc - 1#16) = .next 0xA0F0 ∧ readWord s (s.pc + 1#16) = .next 0x1234) :=
  ⟨rfl, ⟨rfl, rfl, rfl, rfl, rfl⟩, ⟨rfl, rfl, rfl, rfl⟩, ⟨rfl, rfl⟩, rfl, rfl⟩
theorem witness_WrittenWordReadsBack :
    (∃ t, writeWord (misalignedState .split) 0xFFFF 0x1234 = .next t) ∧
    Memory.wf (misalignedState .split).mem = true ∧ wordReadable (misalignedState .split).cfg 0xFFFF = true ∧
    (∃ t, writeWord partState 0xFFFE 0x1234 = .next t) ∧ Memory.wf partState.mem = true ∧
    wordReadable partState.cfg 0xFFFE = false := ⟨⟨_, rfl⟩, rfl, rfl, ⟨_, rfl⟩, rfl, rfl⟩
theorem witness_StoredWordIsFetched :
    Memory.wf partState.mem = true ∧ (∃ t, writeWord partState partState.pc 0x0C12 = .next t) ∧
    wordReadable partState.cfg partState.pc = true ∧ decodeFirst 0x0C12 = .ok (.one (.ld 1 (.reg 2))) :=
  ⟨rfl, ⟨_, rfl⟩, rfl, rfl⟩
theorem witness_StepKeepsInvariant :
    StateInv (vec 0x1D11 0) ∧ ∃ t, step (vec 0x1D11 0) = .next t := ⟨⟨rfl, rfl⟩, _, rfl⟩
theorem witness_OperandValues :
    (readable partState.cfg partState.regs[(1 : Reg)] = true ∧ partState.cfg.byteExt = .zero) ∧
    readable partState.cfg partState.regs[(2 : Reg)] = false ∧
    (let s := vecOf { Config.reference with byteExt := .sign } 0 0
     readable s.cfg s.regs[(0 : Reg)] = true ∧ s.cfg.byteExt = .sign) := by decide +kernel
theorem witness_StoppedAccessStopsInstruction :
    opval partState (.mem (.indr 2)) = .fault .unmapped ∧
    opval partState (.mem (.drct 0x0301)) = .refused .misaligned ∧ evenReg 14 = true ∧
    writeAt partState (.drct 0x8000) (partState.reg 1) = .fault .unmapped ∧
    writeAt partState (.drct 0x0301) (partState.reg 1) = .refused .misaligned ∧
    (let s := partState.setReg 13 0x8002
     writeWord s (s.sp - 2#16) s.pc = .fault .unmapped ∧
      writeWord s (s.sp - 2#16) (s.reg 7) = .fault .unmapped ∧ s.cfg.spLoc ≠ .reg 7) ∧
    (let s := partState.setReg 13 0x0003
     writeWord s (s.sp - 2#16) s.pc = .refused .misaligned ∧
      writeWord s (s.sp - 2#16) (s.reg 7) = .refused .misaligned ∧ readWord s s.sp = .refused .misaligned) ∧
    readWord (partState.setReg 13 0xFFFE) (partState.setReg 13 0xFFFE).sp = .fault .unmapped ∧
    (let s := partState.setReg 13 0x80FE
     readWord s s.sp = .next 0 ∧ readWord s (s.sp + 2#16) = .fault .unmapped) :=
  ⟨rfl, rfl, rfl, rfl, rfl, ⟨rfl, rfl, by decide⟩, ⟨rfl, rfl, rfl⟩, rfl, rfl, rfl⟩
theorem witness_LoadWritesOperand : opval partState (.mem (.drct 0x0300)) = .next 0x00FF := rfl
theorem witness_LoadFlagWritesFlagWord :
    (vec 0x1430 0).cfg.flagLayout.ie = some 7 ∧ (vec 0x1430 0).cfg.flagLayout.code = [] ∧
    StateInv (vec 0x1430 0) ∧ codedCfg.flagLayout.code ≠ [] ∧ StateInv (vecOf codedCfg 0x1430 0) :=
  ⟨rfl, rfl, ⟨rfl, rfl⟩, by decide, rfl, rfl⟩
theorem witness_StoreWritesRegister :
    Memory.wf partState.mem = true ∧ (∀ r, AddrMode.drct 0xFFFE ≠ .bIndr r) ∧
    alignedFor partState.cfg (eaddr partState (.drct 0xFFFE)) = true ∧
    wordWritable partState.cfg (eaddr partState (.drct 0xFFFE)) = true ∧
    writable partState.cfg partState.regs[(1 : Reg)] = true := ⟨rfl, by simp, rfl, rfl, rfl⟩
theorem witness_AddSumAndFlags :
    (partState.setReg 4 0xFFFF).regs[(4 : Reg)] = 0xFFFF ∧
    opval (partState.setReg 4 0xFFFF) (.mem (.drct 0x0300)) = .next 0x00FF ∧
    (0x00FE : Word) = BitVec.ofNat 16 ((0xFFFF : Word).toNat + (0x00FF : Word).toNat) := ⟨rfl, rfl, rfl⟩
theorem witness_SubtractAndCompareFlags :
    partState.regs[(4 : Reg)] = 0 ∧ opval partState (.mem (.drct 0x0300)) = .next 0x00FF ∧
    (0xFF01 : Word) = BitVec.ofInt 16 (((0 : Word).toNat : Int) - (0x00FF : Word).toNat) ∧
    (⟨false, true, true, false⟩ : Flags) =
      ⟨decide ((0xFF01 : Word).toNat = 0), decide ((0 : Word).toNat < (0x00FF : Word).toNat),
        (0xFF01 : Word).getLsbD 15,
        decide ((0 : Word).toInt - (0x00FF : Word).toInt < -32768 ∨
          32767 < (0 : Word).toInt - (0x00FF : Word).toInt)⟩ := ⟨rfl, rfl, rfl, rfl⟩
theorem witness_LogicalResults :
    partState.regs[(1 : Reg)] = 0x0300 ∧ opval partState (.mem (.bIndr 1)) = .next 0 := ⟨rfl, rfl⟩
theorem witness_ScaledAddResult :
    opval partState (.imm 0x8000) = .next 0x8000 ∧
    (0x0300 : Word) = BitVec.ofNat 16 (partState.regs[(1 : Reg)].toNat + 2 * (0x8000 : Word).toNat) := ⟨rfl, rfl⟩
theorem witness_MultiplyLowHalf : opval partState (.mem (.drct 0x0300)) = .next 0x00FF := rfl
/-- One setting each, at the operands next to the excluded pair: 8000h by FFFEh, and 8001h by FFFFh. -/
theorem witness_QuotientAndRemainder :
    (vecSigned .unsigned 0 0).cfg.mulDivSigned = .unsigned ∧
    opval (vecSigned .unsigned 0 0) (.imm 0xFFFF) = .next 0xFFFF ∧ (0xFFFF : Word) ≠ 0#16 ∧
    (vecSigned .signedTrunc 0 0).cfg.mulDivSigned = .signedTrunc ∧
    ¬((0x8000 : Word) = 0x8000 ∧ (0xFFFE : Word) = 0xFFFF) ∧
    ((vecSigned .signedTrunc 0 0).setReg 0 0x8000).regs[(0 : Reg)] = 0x8000 ∧
    opval ((vecSigned .signedTrunc 0 0).setReg 0 0x8000) (.imm4 0xE) = .next 0xFFFE ∧
    (vecSigned .signedFloor 0 0).cfg.mulDivSigned = .signedFloor ∧
    ¬((0x8001 : Word) = 0x8000 ∧ (0xFFFF : Word) = 0xFFFF) ∧
    ((vecSigned .signedFloor 0 0).setReg 0 0x8001).regs[(0 : Reg)] = 0x8001 ∧
    opval ((vecSigned .signedFloor 0 0).setReg 0 0x8001) (.imm4 0xF) = .next 0xFFFF :=
  ⟨rfl, rfl, by decide, rfl, by decide, rfl, rfl, rfl, by decide, rfl, rfl⟩
/-- Both premises about the product hold: one by its conclusion, the other because it is about other settings. -/
theorem witness_LongProductInPair :
    let s := (vecSigned .signedFloor 0 0).setReg 14 0x8000
    evenReg 14 = true ∧ (15 : Reg).val = (14 : Reg).val + 1 ∧ (0x8000 : Word) = s.regs[(14 : Reg)] ∧
    opval s (.imm4 0x8) = .next 0xFFF8 ∧
    (s.cfg.mulDivSigned = .unsigned →
      (0x00040000 : BitVec 32) = BitVec.ofNat 32 ((0x8000 : Word).toNat * (0xFFF8 : Word).toNat)) ∧
    (s.cfg.mulDivSigned ≠ .unsigned →
      (0x00040000 : BitVec 32) = BitVec.ofInt 32 ((0x8000 : Word).toInt * (0xFFF8 : Word).toInt)) :=
  ⟨rfl, rfl, rfl, rfl, by decide +kernel, by decide +kernel⟩
/-- Quotients at the ends of the ranges: 65535 unsigned, -32768 truncated, 32767 rounded down. -/
theorem witness_LongQuotientAndRemainder :
    (let s := ((vecSigned .unsigned 0 0).setReg 2 0xFFFF).setReg 3 1
     evenReg 2 = true ∧ (3 : Reg).val = (2 : Reg).val + 1 ∧ opval s (.imm4 2) = .next 2 ∧ (2 : Word) ≠ 0#16 ∧
      (0x0001FFFF : BitVec 32) = s.regs[(3 : Reg)] ++ s.regs[(2 : Reg)] ∧
      s.cfg.mulDivSigned = .unsigned ∧ s.regs[(3 : Reg)].toNat < (2 : Word).toNat) ∧
    (let s := (vecSigned .signedTrunc 0 0).setReg 3 0xFFFF
     opval s (.imm4 2) = .next 2 ∧ (0xFFFF0000 : BitVec 32) = s.regs[(3 : Reg)] ++ s.regs[(2 : Reg)] ∧
      s.cfg.mulDivSigned = .signedTrunc ∧ -32768 ≤ (0xFFFF0000 : BitVec 32).toInt.tdiv (2 : Word).toInt ∧
      (0xFFFF0000 : BitVec 32).toInt.tdiv (2 : Word).toInt ≤ 32767) ∧
    (let s := (vecSigned .signedFloor 0 0).setReg 2 0xFFFF
     opval s (.imm4 2) = .next 2 ∧ (0x0000FFFF : BitVec 32) = s.regs[(3 : Reg)] ++ s.regs[(2 : Reg)] ∧
      s.cfg.mulDivSigned = .signedFloor ∧ -32768 ≤ (0x0000FFFF : BitVec 32).toInt.fdiv (2 : Word).toInt ∧
      (0x0000FFFF : BitVec 32).toInt.fdiv (2 : Word).toInt ≤ 32767) :=
  ⟨⟨rfl, rfl, rfl, by decide, rfl, rfl, by decide +kernel⟩, ⟨rfl, rfl, rfl, by decide +kernel, by decide +kernel⟩,
    rfl, rfl, rfl, by decide +kernel, by decide +kernel⟩
/-- `DIV` and `MOD` at `Rd` = 15, `DIVL` at the quotients next to the ends of its ranges. -/
theorem witness_DivisionFaults :
    (vec 0 0).cfg.divFault = .fault ∧ opval (vec 0 0) (.imm4 0) = .next 0#16 ∧ evenReg 2 = true ∧
    (let s := (vecSigned .signedFloor 0 0).setReg 15 0x8000
     s.cfg.divFault = .fault ∧ s.cfg.mulDivSigned ≠ .unsigned ∧ s.regs[(15 : Reg)] = 0x8000 ∧
      opval s (.imm4 0xF) = .next 0xFFFF) ∧
    (let s := (vecSigned .unsigned 0 0).setReg 3 2
     s.cfg.divFault = .fault ∧ opval s (.imm4 2) = .next 2 ∧ (3 : Reg).val = (2 : Reg).val + 1 ∧
      (2 : Word) ≠ 0#16 ∧ s.cfg.mulDivSigned = .unsigned ∧ (2 : Word).toNat ≤ s.regs[(3 : Reg)].toNat) ∧
    (let s := (vecSigned .signedTrunc 0 0).setReg 3 1
     s.cfg.divFault = .fault ∧ opval s (.imm4 2) = .next 2 ∧ s.cfg.mulDivSigned = .signedTrunc ∧
      (0x00010000 : BitVec 32) = s.regs[(3 : Reg)] ++ s.regs[(2 : Reg)] ∧
      32767 < (0x00010000 : BitVec 32).toInt.tdiv (2 : Word).toInt) ∧
    (let s := ((vecSigned .signedFloor 0 0).setReg 3 0xFFFE).setReg 2 0xFFFF
     s.cfg.divFault = .fault ∧ opval s (.imm4 2) = .next 2 ∧ s.cfg.mulDivSigned = .signedFloor ∧
      (0xFFFEFFFF : BitVec 32) = s.regs[(3 : Reg)] ++ s.regs[(2 : Reg)] ∧
      (0xFFFEFFFF : BitVec 32).toInt.fdiv (2 : Word).toInt < -32768) :=
  ⟨rfl, rfl, rfl, ⟨rfl, by decide, rfl, rfl⟩, ⟨rfl, rfl, rfl, by decide, rfl, by decide +kernel⟩,
    ⟨rfl, rfl, rfl, rfl, by decide +kernel⟩, rfl, rfl, rfl, rfl, by decide +kernel⟩
theorem witness_DivisionRunsUnderResult :
    let s := vecOf { Config.reference with divFault := .result } 0 0
    s.cfg.divFault = .result ∧ opval s (.imm4 0) = .next 0 ∧ evenReg 2 = true := ⟨rfl, rfl, rfl⟩
/-- The zone's largest operands, `Rd` = 15 among them; for `DIVL` the largest dividend by 7FFFh with a quotient
in the zone, 7FFFh. -/
theorem witness_AgreementZone :
    (let s := (vec 0 0).setReg 15 0x7FFF
     (0x7FFF : Word) = s.regs[(15 : Reg)] ∧ opval s (.imm 0x7FFF) = .next 0x7FFF ∧
      (0x7FFF : Word).toNat < 0x8000 ∧ (0x7FFF : Word) ≠ 0#16) ∧
    (let l := ((vec 0 0).setReg 2 0x7FFF).setReg 3 0x3FFF
     (0x7FFF : Word) = l.regs[(2 : Reg)] ∧ opval l (.imm 0x7FFF) = .next 0x7FFF ∧
      evenReg 2 = true ∧ (3 : Reg).val = (2 : Reg).val + 1 ∧
      (0x3FFF7FFF : BitVec 32) = l.regs[(3 : Reg)] ++ l.regs[(2 : Reg)] ∧
      (0x3FFF7FFF : BitVec 32).toNat < 0x80000000 ∧
      (0x3FFF7FFF : BitVec 32).toNat / (0x7FFF : Word).toNat < 0x8000) :=
  ⟨⟨rfl, rfl, by decide, by decide⟩, rfl, rfl, rfl, rfl, rfl, by decide, by decide +kernel⟩
theorem witness_DivlUndoesMull :
    let s := (vec 0 0).setReg 2 0x7FFF
    evenReg 2 = true ∧ (3 : Reg).val = (2 : Reg).val + 1 ∧ s.regs[(2 : Reg)].toNat < 0x8000 ∧
    (0x7FFF : Word).toNat < 0x8000 ∧ (0x7FFF : Word) ≠ 0#16 ∧ opval s (.imm 0x7FFF) = .next 0x7FFF ∧
    ∃ t, exec (.mull 2 (.imm 0x7FFF)) s = .next t ∧ opval t (.imm 0x7FFF) = .next 0x7FFF :=
  ⟨rfl, rfl, by decide +kernel, by decide, by decide, rfl, _, rfl, rfl⟩
theorem witness_RefusedRegisterOperands :
    (1 : Reg).val % 2 = 1 ∧ (15 : Reg).val % 2 = 1 ∧ (vec 0 0).cfg.spLoc = .reg 13 := ⟨rfl, rfl, rfl⟩
theorem witness_ShiftsUpToFifteen :
    partState.regs[(1 : Reg)] = 0x0300 ∧ opval partState (.imm4 0) = .next 0 ∧ (0 : Word).toNat ≤ 15 ∧
    opval partState (.imm 15) = .next 15 ∧ (15 : Word).toNat ≤ 15 := ⟨rfl, rfl, by decide, rfl, by decide⟩
theorem witness_ShiftsBeyondFifteen :
    opval partState (.imm 16) = .next 16 ∧ 16 ≤ (16 : Word).toNat ∧
    opval partState (.imm4 0xF) = .next 0xFFFF ∧ 16 ≤ (0xFFFF : Word).toNat := ⟨rfl, by decide, rfl, by decide⟩
/-- An address that wraps. -/
theorem witness_JumpsTakenByFormula :
    (0x02FF : Word) = BitVec.ofNat 16 ((0xFFFF : Word).toNat + partState.regs[(1 : Reg)].toNat) := rfl
theorem witness_JumpsAfterCompare :
    partState.regs[(1 : Reg)] = 0x0300 ∧ opval partState (.imm 0x8000) = .next 0x8000 ∧
    ∃ t, exec (.cmp 1 (.imm 0x8000)) partState = .next t := ⟨rfl, rfl, _, rfl⟩
/-- `SP` = 0, so the word pushed lies at the top of memory. -/
theorem witness_CallPushesReturnAddress :
    Memory.wf (vec 0xA800 0x0010).mem = true ∧
    alignedFor (vec 0xA800 0x0010).cfg ((vec 0xA800 0x0010).sp - 2#16) = true ∧
    wordWritable (vec 0xA800 0x0010).cfg ((vec 0xA800 0x0010).sp - 2#16) = true := by decide +kernel
theorem witness_InputWritesRegister :
    (0x0300 : Word) = portAddress partState (.bIndr 1) ∧
    ({ partState with ioIn := [0xC1] } : State).ioIn = 0xC1 :: [] ∧
    (∀ r, IoMode.drct 0x0010 ≠ .bIndr r) := ⟨rfl, rfl, by simp⟩
theorem witness_PushStoresRegister :
    Memory.wf partState.mem = true ∧ partState.cfg.spLoc ≠ .reg 7 ∧
    alignedFor partState.cfg (partState.sp - 2#16) = true ∧
    wordWritable partState.cfg (partState.sp - 2#16) = true := by decide +kernel
theorem witness_PopLoadsRegister :
    partState.cfg.spLoc ≠ .reg 7 ∧ readWord partState partState.sp = .next 0 := ⟨by decide, rfl⟩
theorem witness_ReturnLoadsPc : readWord partState partState.sp = .next 0 := rfl
theorem witness_ReturnFromInterruptRestores :
    let s := withWord ((vec 0xD400 0).setReg 13 0xFFFC) 0xFFFE 8
    readWord s s.sp = .next 0 ∧ readWord s (s.sp + 2#16) = .next 8 ∧ s.cfg.flagLayout.code = [] :=
  ⟨rfl, rfl, rfl⟩
theorem witness_PopsUndoPushes :
    Memory.wf partState.mem = true ∧ wordReadable partState.cfg (partState.sp - 2#16) = true ∧
    (∃ t, exec (.call (.indr 1)) partState = .next t) ∧ (∃ t, exec (.push 1) partState = .next t) ∧
    partState.cfg.spLoc ≠ .reg 2 := ⟨rfl, rfl, ⟨_, rfl⟩, ⟨_, rfl⟩, by decide⟩
/-- `SP` = 2: the first word goes to address 0, the second to the top of memory; both settings of `TRAP_IE`. -/
theorem witness_TrapEntryAsStated :
    let s := ((vecOf trapCfg 0 0).setReg 13 0x0002)
    Memory.wf s.mem = true ∧ handlerAddress s (.slot 0x0100) = .next 0 ∧
    alignedFor s.cfg (s.sp - 2#16) = true ∧ wordWritable s.cfg (s.sp - 2#16) = true ∧
    alignedFor s.cfg (s.sp - 4#16) = true ∧ wordWritable s.cfg (s.sp - 4#16) = true ∧
    s.cfg.trapIe = .clear ∧ (({ trapCfg with trapIe := .keep } : Config)).trapIe = .keep :=
  ⟨rfl, rfl, rfl, rfl, rfl, rfl, rfl, rfl⟩
theorem witness_SupervisorCallEnters :
    let s := ((vecOf trapCfg 0xF000 0).setReg 13 0x0200).setIe true
    Memory.wf s.mem = true ∧ handlerAddress s s.cfg.svcHandler = .next 0x0800 ∧
    alignedFor s.cfg (s.sp - 2#16) = true ∧ wordWritable s.cfg (s.sp - 2#16) = true ∧
    alignedFor s.cfg (s.sp - 4#16) = true ∧ wordWritable s.cfg (s.sp - 4#16) = true ∧
    s.cfg.trapIe = .clear ∧ (vecOf { trapCfg with trapIe := .keep } 0xF000 0).cfg.trapIe = .keep :=
  ⟨rfl, rfl, rfl, rfl, rfl, rfl, rfl, rfl⟩
/-- A handler that changed a register and stored a word just below the stack. -/
theorem witness_ReturnUndoesTrapEntry :
    let s := ((vecOf trapCfg 0xF000 0).setReg 13 0x0200).setIe true
    StateInv s ∧ wordReadable s.cfg (s.sp - 2#16) = true ∧ wordReadable s.cfg (s.sp - 4#16) = true ∧
    s.cfg.flagLayout.ie ≠ none ∧
    ∃ t, trapEntry (.fixed 0x0900) s = .next t ∧
      (let u := withWord (t.setReg 1 7) 0x01FA 0xBEEF
       u.cfg = t.cfg ∧ u.sp = t.sp ∧ u.mem ≠ t.mem ∧
        loadWord u.cfg u.mem (s.sp - 2#16) = loadWord t.cfg t.mem (s.sp - 2#16) ∧
        loadWord u.cfg u.mem (s.sp - 4#16) = loadWord t.cfg t.mem (s.sp - 4#16)) :=
  ⟨⟨rfl, rfl⟩, rfl, rfl, by decide, _, rfl, rfl, rfl, by decide +kernel, rfl, rfl⟩
/-- `FLAG_REST` with every bit that is no named flag set; a layout without a code and one with. -/
theorem witness_FlagUnpackUndoesPack :
    restOf Config.reference.flagLayout 0xFF70 = 0xFF70 ∧ restOf codedCfg.flagLayout 0xFF70 = 0xFF70 := ⟨rfl, rfl⟩
theorem witness_StepRunsDecodedInstruction :
    (vec 0x1D11 0).halted = false ∧ accepted (vec 0x1D11 0) = none ∧
    readWord (vec 0x1D11 0) (vec 0x1D11 0).pc = .next 0x1D11 ∧
    decodeFirst 0x1D11 = .ok (.one (.add 1 (.imm4 1))) ∧
    readWord (vec 0x1A10 0x1234) (vec 0x1A10 0x1234).pc = .next 0x1A10 ∧
    decodeFirst 0x1A10 = .ok (.two fun w => .add 1 (.imm w)) ∧
    readWord (vec 0x1A10 0x1234) ((vec 0x1A10 0x1234).pc + 2#16) = .next 0x1234 :=
  ⟨rfl, rfl, rfl, rfl, rfl, rfl, rfl⟩
theorem witness_StepStopsOnBadFetch :
    (vec 0x7800 0).halted = false ∧ accepted (vec 0x7800 0) = none ∧ (vec 0x7800 0).cfg.illegal = .refuse ∧
    readWord (vec 0x7800 0) (vec 0x7800 0).pc = .next 0x7800 ∧ decodeFirst 0x7800 = .error .reservedOp ∧
    (vec 0 0).cfg.misaligned = .refuse ∧ ({ vec 0 0 with pc := 0xFFFF } : State).pc.toNat % 2 = 1 ∧
    readWord { partState with pc := 0x8100 } 0x8100 = .fault .unmapped ∧
    (let s : State := withWord { vecOf { partCfg with memMap := [⟨0x0000, 0x7FFF, true, true⟩] } 0 0 with
       pc := 0x7FFE } 0x7FFE 0xA0F0
     readWord s s.pc = .next 0xA0F0 ∧ decodeFirst 0xA0F0 = .ok (.two fun w => .jmp (.drct w)) ∧
      readWord s (s.pc + 2#16) = .fault .unmapped) := ⟨rfl, rfl, rfl, rfl, rfl, rfl, rfl, rfl, rfl, rfl, rfl⟩
theorem witness_RequestTakenOnlyWhenEnabled :
    let s : State := { vecOf trapCfg 0 0 with requests := [some 5, none] }
    s.halted = false ∧ s.requests = some 5 :: [none] ∧ (s.setIe true).ie = true ∧
    s.cfg.causes.lookup 5 = some (.fixed 0x0900) ∧ s.ie = false ∧ s.cfg.causes.lookup 6 = none :=
  ⟨rfl, rfl, rfl, rfl, rfl, rfl⟩
theorem witness_HaltedStays :
    ((vec 0 0).setHalted true).halted = true ∧ ((vec 0 0).setHalted true).cfg.haltWake = .no ∧
    (let s : State := { vecOf { trapCfg with haltWake := .yes } 0 0 with
       halted := true, ie := true, requests := [some 5] }
     s.halted = true ∧ s.cfg.haltWake = .yes ∧ accepted s = some (.fixed 0x0900) ∧
      accepted (s.setIe false) = none) := ⟨rfl, rfl, rfl, rfl, rfl, rfl⟩
/-- The frames and the effect on the history are about any instruction that completes: one that writes a
register, one that stores, one that does neither. -/
theorem witness_frames :
    (∃ t, exec (.add 1 (.mem (.drct 0x0300))) partState = .next t) ∧
    (∃ t, exec (.st 1 (.drct 0xFFFE)) partState = .next t) ∧ (∃ t, exec (.pop 7) partState = .next t) ∧
    (∃ t, exec .halt partState = .next t) ∧ changesFlags .halt = false ∧ writesPc .halt = false ∧
    movesSp .halt = false ∧ (∃ t, step partState = .next t) :=
  ⟨⟨_, rfl⟩, ⟨_, rfl⟩, ⟨_, rfl⟩, ⟨_, rfl⟩, rfl, rfl, rfl, ⟨_, rfl⟩⟩
/-- The largest count of a shift, from the mode whose byte is sign-extended. -/
theorem witness_StateCountDataDependence :
    let s := withByte ((vecOf { Config.reference with byteExt := .sign } 0 0).setReg 2 0xFFFF) 0xFFFF 0xFF
    let eight : List Operand := [.mem (.drct 0), .mem (.index 0 2), .imm 0, .mem (.fpRlt 0), .reg 0, .imm4 0,
      .mem (.indr 2), .mem (.bIndr 2)]
    (.mem (.bIndr 2), 7) ∈ eight.zip [8, 8, 6, 8, 6, 5, 7, 7] ∧ opval s (.mem (.bIndr 2)) = .next 0xFFFF :=
  ⟨by simp, rfl⟩
/-- Each stop at the boundary of the map: the first push below 8100h, the second across 0000h, a slot that is
write-only and one that is odd; the premises on a step, running and halted. -/
theorem witness_TrapEntryStops :
    (let s := partState.setReg 13 0x8002
     writeWord s (s.sp - 2#16) s.pc = .fault .unmapped) ∧
    (let s := partState.setReg 13 0x0003
     writeWord s (s.sp - 2#16) s.pc = .refused .misaligned) ∧
    (let s := partState.setReg 13 0x0000
     (∃ t, writeWord s (s.sp - 2#16) s.pc = .next t) ∧
      writeWord s (s.sp - 4#16) s.flagWord = .fault .unmapped) ∧
    ((∃ t, writeWord partState (partState.sp - 2#16) partState.pc = .next t) ∧
      (∃ t, writeWord partState (partState.sp - 4#16) partState.flagWord = .next t) ∧
      readWord partState 0xFFFE = .fault .unmapped ∧ readWord partState 0x0101 = .refused .misaligned) ∧
    (let u : State := { vecOf trapCfg 0 0 with ie := true, requests := [some 5] }
     u.halted = false ∧ accepted u = some (.fixed 0x0900)) ∧
    (let u : State := { vecOf { trapCfg with haltWake := .yes } 0 0 with
       halted := true, ie := true, requests := [some 5] }
     u.halted = true ∧ u.cfg.haltWake = .yes ∧ accepted u = some (.fixed 0x0900)) :=
  ⟨rfl, rfl, ⟨⟨_, rfl⟩, rfl⟩, ⟨⟨_, rfl⟩, ⟨_, rfl⟩, rfl, rfl⟩, ⟨rfl, rfl⟩, rfl, rfl, rfl⟩
theorem witness_ReservedEncodingByParameter :
    let s (i : Illegal) := vecOf { trapCfg with illegal := i } 0x7800 0
    (s .refuse).halted = false ∧ accepted (s .refuse) = none ∧ readWord (s .refuse) (s .refuse).pc = .next 0x7800 ∧
    decodeFirst 0x7800 = .error .reservedOp ∧ (s .refuse).cfg.illegal = .refuse ∧
    (s (.trap (.fixed 0x0B00) .this)).cfg.illegal = .trap (.fixed 0x0B00) .this ∧
    (s (.trap (.slot 0x0B00) .following)).cfg.illegal = .trap (.slot 0x0B00) .following :=
  ⟨rfl, rfl, rfl, rfl, rfl, rfl, rfl⟩
/-- Every bit of the word inverted: a pair with the law that no placing of bits gives. -/
theorem witness_FlagLayoutGivesEveryPair :
    let l := Config.reference.flagLayout
    let pack := fun (f : Flags) (ie : Bool) (rest : Word) => ~~~(placeFlags l f ie rest)
    let unpack := fun (w : Word) => (unpackFlags l (~~~w), (~~~w).getLsbD 7, restOf l (~~~w))
    (∀ f ie rest, restOf l rest = rest → (unpack (pack f ie rest)).1 = f ∧
      (l.ie ≠ none → (unpack (pack f ie rest)).2.1 = ie) ∧ (unpack (pack f ie rest)).2.2 = rest) ∧
    (l.ie = none → ∀ f ie ie' rest, pack f ie rest = pack f ie' rest) := by
  refine ⟨fun f ie rest hr => ⟨?_, fun _ => ?_, ?_⟩, fun h => by simp [Config.reference] at h⟩
  · cases f
    simp only [unpackFlags, decodeFlag_of_code_nil (l := Config.reference.flagLayout) rfl, BitVec.not_not,
      BitVec.getLsbD_eq_getElem, Fin.is_lt, placeFlags_getElem]
    simp [Config.reference]
  · simp only [BitVec.not_not]
    exact placeFlags_getElem Config.reference.flagLayout f ie rest 7
  · refine word_ext fun j => ?_
    rw [← hr]
    simp only [BitVec.not_not, restOf_getElem, placeFlags_getElem]
    grind

end Sys2Proof.Tests
end

section
/-! What a step keeps of the parameters, the I/O events, the draws and the environment's lists (statement O56).
A general layer, `OnNext`, says that every next value of an operation meets a predicate and follows the
operation's sequencing; `KeepsHistory` is the predicate for one instruction; a step adds what the boundary uses
up. -/

namespace Sys2Proof.Machine

variable {α β : Type}

/-! ### A predicate on what an operation answers -/

/-- Where `x` answers a next value, the value meets `P`; nothing is said of a stop. -/
def OnNext (P : α → Prop) (x : Res α) : Prop := ∀ a, x = .next a → P a

namespace OnNext

variable {P : α → Prop}

@[simp] theorem next_iff {a : α} : OnNext P (.next a) ↔ P a := by simp [OnNext]
@[simp] theorem fault (r : Fault) : OnNext P (.fault r) := by simp [OnNext]
@[simp] theorem refused (r : Refusal) : OnNext P (.refused r) := by simp [OnNext]

theorem next {a : α} (h : P a) : OnNext P (.next a) := next_iff.2 h

/-- Sequencing, with what is known of the first operation's value. -/
theorem andThen {Q : β → Prop} {x : Res β} {f : β → Res α} (hx : OnNext Q x) (hf : ∀ b, Q b → OnNext P (f b)) :
    OnNext P (andThen x f) := by
  intro a h
  obtain ⟨b, hb, hfb⟩ := andThen_eq_next.1 h
  exact hf b (hx b hb) a hfb

/-- Sequencing where nothing about the first operation's value matters. -/
theorem andThen_of_forall {x : Res β} {f : β → Res α} (hf : ∀ b, OnNext P (f b)) :
    OnNext P (Machine.andThen x f) :=
  andThen (Q := fun _ => True) (fun _ _ => trivial) fun b _ => hf b

theorem ite {c : Prop} [Decidable c] {x y : Res α} (hx : OnNext P x) (hy : OnNext P y) :
    OnNext P (if c then x else y) := by
  split
  · exact hx
  · exact hy

end OnNext

/-! ### What one instruction keeps -/

/-- From `s` to `t` the parameters and the requests are the same, no I/O event is taken back, no draw is
undone, and at most one answer of the environment is used up. -/
structure KeepsHistory (s t : State) : Prop where
  cfg : t.cfg = s.cfg
  requests : t.requests = s.requests
  ioLog : s.ioLog <+: t.ioLog
  draws : s.draws ≤ t.draws
  ioIn : t.ioIn = s.ioIn ∨ t.ioIn = s.ioIn.tail

namespace KeepsHistory

variable {s t u : State}

theorem unchanged (s : State) : KeepsHistory s s := ⟨rfl, rfl, List.prefix_rfl, le_rfl, .inl rfl⟩

/-- Two changes in a row, the first of which uses up no answer. -/
theorem trans (h : KeepsHistory s t) (hin : t.ioIn = s.ioIn) (h' : KeepsHistory t u) : KeepsHistory s u where
  cfg := h'.cfg.trans h.cfg
  requests := h'.requests.trans h.requests
  ioLog := h.ioLog.trans h'.ioLog
  draws := h.draws.trans h'.draws
  ioIn := hin ▸ h'.ioIn

/-- An update that leaves the five fields alone, or only draws more. -/
theorem congr (h : KeepsHistory s t) (hcfg : u.cfg = t.cfg) (hreq : u.requests = t.requests)
    (hlog : u.ioLog = t.ioLog) (hdraws : t.draws ≤ u.draws) (hin : u.ioIn = t.ioIn) : KeepsHistory s u where
  cfg := hcfg.trans h.cfg
  requests := hreq.trans h.requests
  ioLog := hlog ▸ h.ioLog
  draws := h.draws.trans hdraws
  ioIn := hin ▸ h.ioIn

/-! One rule for each update of a state. -/

theorem setReg (h : KeepsHistory s t) (i : Reg) (v : Word) : KeepsHistory s (t.setReg i v) :=
  h.congr rfl rfl rfl le_rfl rfl

theorem setPair (h : KeepsHistory s t) (i : Reg) (hi lo : Word) : KeepsHistory s (t.setPair i hi lo) :=
  h.congr rfl rfl rfl le_rfl rfl

theorem setSp (h : KeepsHistory s t) (v : Word) : KeepsHistory s (t.setSp v) :=
  h.congr (by simp) (by simp) (by simp) (by simp) (by simp)

theorem setPc (h : KeepsHistory s t) (v : Word) : KeepsHistory s (t.setPc v) :=
  h.congr rfl rfl rfl le_rfl rfl

theorem setIe (h : KeepsHistory s t) (b : Bool) : KeepsHistory s (t.setIe b) :=
  h.congr rfl rfl rfl le_rfl rfl

theorem setHalted (h : KeepsHistory s t) (b : Bool) : KeepsHistory s (t.setHalted b) :=
  h.congr rfl rfl rfl le_rfl rfl

theorem setMem (h : KeepsHistory s t) (m : Memory) : KeepsHistory s (t.setMem m) :=
  h.congr rfl rfl rfl le_rfl rfl

theorem setFlags (h : KeepsHistory s t) (f : Flags) : KeepsHistory s (t.setFlags f) :=
  h.congr rfl rfl rfl le_rfl rfl

theorem setFlagWord (h : KeepsHistory s t) (w : Word) : KeepsHistory s (t.setFlagWord w) :=
  h.congr rfl rfl rfl le_rfl rfl

theorem setResultFlags (h : KeepsHistory s t) (r : Word) : KeepsHistory s (t.setResultFlags r) :=
  h.congr rfl rfl rfl (by simp) rfl

theorem drawFlags (h : KeepsHistory s t) : KeepsHistory s t.drawFlags :=
  h.congr rfl rfl rfl (by simp) rfl

theorem useDraw (h : KeepsHistory s t) : KeepsHistory s t.useDraw :=
  h.congr rfl rfl rfl (by simp) rfl

theorem record (h : KeepsHistory s t) (e : IoEvent) : KeepsHistory s (t.record e) :=
  { h with ioLog := h.ioLog.trans (List.prefix_append _ _) }

/-- The one update that uses up an answer, or a draw where none is listed. -/
theorem ioConsume (s : State) : KeepsHistory s s.ioConsume where
  cfg := s.ioConsume_cfg
  requests := s.ioConsume_requests
  ioLog := by simp
  draws := by unfold State.ioConsume; split <;> simp
  ioIn := .inr s.ioConsume_ioIn

end KeepsHistory

/-! ### The shared operations -/

open KeepsHistory (unchanged)

theorem writeAt_keepsHistory (s : State) (a : AddrMode) (v : Word) :
    OnNext (KeepsHistory s) (writeAt s a v) := by
  intro t h
  obtain ⟨-, rfl⟩ := writeAt_eq_next.1 h
  exact (unchanged s).setMem _

theorem pushWord_keepsHistory (s : State) (v : Word) : OnNext (KeepsHistory s) (pushWord s v) := by
  intro t h
  obtain ⟨-, -, rfl⟩ := pushWord_eq_next.1 h
  exact ((unchanged s).setMem _).setSp _

theorem popWord_keepsHistory (s : State) : OnNext (fun p => KeepsHistory s p.2) (popWord s) := by
  intro p h
  obtain ⟨-, -, rfl⟩ := popWord_eq_next.1 h
  exact (unchanged s).setSp _

theorem trapEntry_keepsHistory (hd : Handler) (s : State) : OnNext (KeepsHistory s) (trapEntry hd s) := by
  intro t h
  obtain ⟨-, -, -, -, target, -, rfl⟩ := trapEntry_eq_next.1 h
  exact ((((unchanged s).setMem _).setSp _).setIe _).setPc _

theorem trapReturn_keepsHistory (s : State) : OnNext (KeepsHistory s) (trapReturn s) := by
  intro t h
  obtain ⟨-, -, -, -, rfl⟩ := trapReturn_eq_next.1 h
  exact (((unchanged s).setSp _).setFlagWord _).setPc _

theorem logicOp_keepsHistory (f : Word → Word → Word) (rd : Reg) (ea : Operand) (s : State) :
    OnNext (KeepsHistory s) (logicOp f rd ea s) :=
  .andThen_of_forall fun _ => .next (((unchanged s).setReg _ _).setResultFlags _)

theorem shiftOp_keepsHistory (f : Word → Nat → Word) (rd : Reg) (ea : Operand) (s : State) :
    OnNext (KeepsHistory s) (shiftOp f rd ea s) :=
  .andThen_of_forall fun _ =>
    .ite (.next (((unchanged s).setReg _ _).setResultFlags _)) (.next ((unchanged s).setReg _ _).useDraw.drawFlags)

theorem jumpIf_keepsHistory (taken : Bool) (ea : JumpMode) (s : State) :
    OnNext (KeepsHistory s) (jumpIf taken ea s) := by
  cases taken with
  | true => exact .next ((unchanged s).setPc _)
  | false => exact .next (unchanged s)

/-! ### The instructions -/

theorem execIn_keepsHistory (rd : Reg) (ea : IoMode) (s : State) :
    OnNext (KeepsHistory s) (execIn rd ea s) := by
  cases ea with
  | drct _ | indr _ | bIndr _ => exact .next (((KeepsHistory.ioConsume s).record _).setReg _ _)

theorem execOut_keepsHistory (rd : Reg) (ea : IoMode) (s : State) :
    OnNext (KeepsHistory s) (execOut rd ea s) := by
  cases ea with
  | drct _ | indr _ | bIndr _ => exact .next ((unchanged s).record _)

theorem execCall_keepsHistory (ea : JumpMode) (s : State) : OnNext (KeepsHistory s) (execCall ea s) :=
  (pushWord_keepsHistory s s.pc).andThen fun _ h => .next (h.setPc _)

theorem execPop_keepsHistory (rd : Reg) (s : State) : OnNext (KeepsHistory s) (execPop rd s) :=
  .ite (.refused _) ((popWord_keepsHistory s).andThen fun _ h => .next (h.setReg _ _))

theorem execRet_keepsHistory (s : State) : OnNext (KeepsHistory s) (execRet s) :=
  (popWord_keepsHistory s).andThen fun _ h => .next (h.setPc _)

/-- One instruction: `IN` uses up an answer, `IN` and `OUT` add an event, and the others update elements that are no
part of the history, or draw. -/
theorem exec_keepsHistory (i : Instr) (s : State) : OnNext (KeepsHistory s) (exec i s) := by
  cases i with
  | no => exact .next (unchanged s)
  | ld rd ea => exact .andThen_of_forall fun _ => .next ((unchanged s).setReg _ _)
  | ldFlag rd => exact .next ((unchanged s).setReg _ _)
  | st rd ea => exact writeAt_keepsHistory s ea _
  | add rd ea | sub rd ea => exact .andThen_of_forall fun _ => .next (((unchanged s).setReg _ _).setFlags _)
  | cmp rd ea => exact .andThen_of_forall fun _ => .next ((unchanged s).setFlags _)
  | and rd ea | or rd ea | xor rd ea => exact logicOp_keepsHistory _ rd ea s
  | adds rd ea => exact logicOp_keepsHistory (fun a b => a + 2#16 * b) rd ea s
  | mul rd ea => exact .andThen_of_forall fun _ => .next ((unchanged s).setReg _ _).drawFlags
  | div rd ea | mod rd ea =>
    exact .andThen_of_forall fun _ => .andThen_of_forall fun _ => .next ((unchanged s).setReg _ _).drawFlags
  | mull rd ea =>
    exact .ite (.andThen_of_forall fun _ => .next ((unchanged s).setPair _ _ _).drawFlags) (.refused _)
  | divl rd ea =>
    exact .ite
      (.andThen_of_forall fun _ => .andThen_of_forall fun _ => .next ((unchanged s).setPair _ _ _).drawFlags)
      (.refused _)
  | shla rd ea | shll rd ea | shra rd ea | shrl rd ea => exact shiftOp_keepsHistory _ rd ea s
  | jz ea | jc ea | jm ea | jo ea | jgt ea | jge ea | jle ea | jlt ea | jnz ea | jnc ea | jnm ea | jno ea
  | jhi ea | jls ea | jmp ea => exact jumpIf_keepsHistory _ ea s
  | call ea => exact execCall_keepsHistory ea s
  | inp rd ea => exact execIn_keepsHistory rd ea s
  | out rd ea => exact execOut_keepsHistory rd ea s
  | push rd => exact .ite (.refused _) (pushWord_keepsHistory s _)
  | pop rd => exact execPop_keepsHistory rd s
  | ret => exact execRet_keepsHistory s
  | reti => exact trapReturn_keepsHistory s
  | ei | di => exact .next ((unchanged s).setIe _)
  | svc => exact trapEntry_keepsHistory _ s
  | halt => exact .next ((unchanged s).setHalted _)

/-! ### The step -/

/-- A fetch changes `pc` and nothing else. -/
theorem fetch_changes_only_pc (s : State) : OnNext (fun p => ∃ a, p.2 = s.setPc a) (fetch s) := by
  intro p h
  obtain ⟨w1, -, ⟨i, -, rfl⟩ | ⟨f, w2, -, -, rfl⟩⟩ := fetch_eq_next.1 h
  · exact ⟨_, rfl⟩
  · exact ⟨_, rfl⟩

/-- A step that does not leave a halted CPU as it is passes the boundary, which uses up a request, and then
does at most what one instruction does. -/
theorem step_keepsHistory {s t : State} (h : step s = .next t) : t = s ∨ KeepsHistory s.passBoundary t := by
  have start := unchanged s.passBoundary
  rcases step_cases h with ⟨-, -, hstay⟩ | ⟨-, -, -, rfl⟩ | ⟨hd, -, -, -, htrap⟩ | ⟨hd, -, -, htrap⟩ |
    ⟨i, u, -, -, hfetch, hexec⟩ | ⟨hd, k, -, -, -, -, htrap⟩
  case inl => exact .inl hstay
  all_goals right
  · exact start
  · exact (start.setHalted false).trans rfl (trapEntry_keepsHistory hd _ t htrap)
  · exact trapEntry_keepsHistory hd _ t htrap
  · obtain ⟨a, rfl⟩ : ∃ a, u = s.passBoundary.setPc a := fetch_changes_only_pc _ _ hfetch
    exact (start.setPc a).trans rfl (exec_keepsHistory i _ t hexec)
  · exact (start.setPc (savedPcOf k s.pc)).trans rfl (trapEntry_keepsHistory hd _ t htrap)

/-- Settles O56: a step that changes anything passes the boundary and keeps the history from there. -/
theorem stepOnlyExtendsHistory : Obligations.StepOnlyExtendsHistory := by
  intro s t h
  rcases step_keepsHistory h with rfl | ⟨hcfg, hreq, ⟨l, hlog⟩, hdraws, hin⟩
  · exact ⟨rfl, ⟨[], by simp⟩, le_rfl, .inl rfl, .inl rfl⟩
  · exact ⟨hcfg, ⟨l, hlog.symm⟩, hdraws, .inr hreq, hin⟩

end Sys2Proof.Machine
end

section
/-! The `FLAG` word before its code (statements O47 and O60). `flagsAt`, `ieAt` and `restOf` read the parts that
`placeFlags` puts together, and each undoes the other, because a layout's places differ. Unpacking undoes packing
follows with the code's own round trip; that a layout gives every pair of functions with the law follows because such
a pair is a one-to-one map of words, which some code is. -/

namespace Sys2Proof.Machine

/-! ### The parts of a placed word -/

/-- The flags at their places in a word without code. -/
def flagsAt (l : FlagLayout) (w : Word) : Flags := ⟨w[l.z.val], w[l.c.val], w[l.s.val], w[l.v.val]⟩

/-- `IE` at its place in a word without code; `old` where the layout does not hold it. -/
def ieAt (l : FlagLayout) (w : Word) (old : Bool) : Bool :=
  match l.ie with
  | some i => w[i.val]
  | none => old

/-- Where the layout holds `IE`, the old one does not matter. -/
theorem ieAt_eq_of_ne_none {l : FlagLayout} (hl : l.ie ≠ none) (w : Word) (old old' : Bool) :
    ieAt l w old = ieAt l w old' := by
  obtain ⟨i, hi⟩ := Option.ne_none_iff_exists'.1 hl
  simp [ieAt, hi]

theorem unpackFlags_eq_flagsAt (l : FlagLayout) (w : Word) : unpackFlags l w = flagsAt l (decodeFlag l w) := rfl

theorem unpackIe_eq_ieAt (l : FlagLayout) (w : Word) (old : Bool) :
    unpackIe l w old = ieAt l (decodeFlag l w) old := rfl

theorem unpackRest_eq_restOf (l : FlagLayout) (w : Word) : unpackRest l w = restOf l (decodeFlag l w) := rfl

/-- A bit at no flag's place is that of `FLAG_REST`. -/
theorem placeFlags_getElem_of_notMem {l : FlagLayout} {j : Fin 16} (hj : j ∉ [l.z, l.c, l.s, l.v] ++ l.ie.toList)
    (f : Flags) (ie : Bool) (rest : Word) : (placeFlags l f ie rest)[j.val] = rest[j.val] := by
  simp only [placeFlags_getElem]
  grind

/-- The flags read back, because no two places are the same. -/
@[simp] theorem flagsAt_placeFlags (l : FlagLayout) (f : Flags) (ie : Bool) (rest : Word) :
    flagsAt l (placeFlags l f ie rest) = f := by
  have hdistinct := l.distinct
  obtain ⟨z, c, s, v⟩ := f
  simp only [flagsAt, placeFlags_getElem, Flags.mk.injEq]
  cases hie : l.ie <;> simp [hie] at hdistinct ⊢ <;> grind

@[simp] theorem ieAt_placeFlags (l : FlagLayout) (f : Flags) (ie old : Bool) (rest : Word) :
    ieAt l (placeFlags l f ie rest) old = if l.ie = none then old else ie := by
  cases hie : l.ie <;> simp [ieAt, hie, placeFlags_getElem]

@[simp] theorem restOf_placeFlags (l : FlagLayout) (f : Flags) (ie : Bool) (rest : Word) :
    restOf l (placeFlags l f ie rest) = restOf l rest :=
  word_ext fun j => by
    rw [restOf_getElem, restOf_getElem]
    by_cases hj : j ∈ [l.z, l.c, l.s, l.v] ++ l.ie.toList
    · rw [decide_eq_false (not_not.2 hj), Bool.and_false, Bool.and_false]
    · rw [placeFlags_getElem_of_notMem hj]

/-- A word is its parts put together. -/
@[simp] theorem placeFlags_parts (l : FlagLayout) (w : Word) (old : Bool) :
    placeFlags l (flagsAt l w) (ieAt l w old) (restOf l w) = w :=
  word_ext fun j => by
    simp only [restOf_getElem, placeFlags_getElem, flagsAt, ieAt]
    cases hie : l.ie <;> simp <;> grind

/-- Settles O47: the code's round trip, then that of the placed parts. -/
theorem flagUnpackUndoesPack : Obligations.FlagUnpackUndoesPack := by
  intro l f ie old rest hrest
  simp [unpackFlags_eq_flagsAt, unpackIe_eq_ieAt, unpackRest_eq_restOf, hrest]

/-! ### Every pair of functions with the round-trip law -/

section EveryPair

variable {l : FlagLayout} {pack : Flags → Bool → Word → Word} {unpack : Word → Flags × Bool × Word}

/-- `unpack` undoes `pack`, over `IE` too where the word holds it (10_state.md R17). -/
def UndoesPack (l : FlagLayout) (pack : Flags → Bool → Word → Word) (unpack : Word → Flags × Bool × Word) : Prop :=
  ∀ f ie rest, restOf l rest = rest → (unpack (pack f ie rest)).1 = f ∧
    (l.ie ≠ none → (unpack (pack f ie rest)).2.1 = ie) ∧ (unpack (pack f ie rest)).2.2 = rest

/-- `pack` as a map of words: of the parts of the word with the bits as placed. -/
def packWord (l : FlagLayout) (pack : Flags → Bool → Word → Word) (w : Word) : Word :=
  pack (flagsAt l w) (ieAt l w false) (restOf l w)

/-- What `unpack` answers on a packed word are the parts. -/
theorem unpack_packWord (h : UndoesPack l pack unpack) (w : Word) :
    (unpack (packWord l pack w)).1 = flagsAt l w ∧
    (l.ie ≠ none → (unpack (packWord l pack w)).2.1 = ieAt l w false) ∧
    (unpack (packWord l pack w)).2.2 = restOf l w :=
  h _ _ _ (restOf_restOf l w)

theorem packWord_injective (h : UndoesPack l pack unpack) : Function.Injective (packWord l pack) := by
  intro v w hvw
  obtain ⟨hfv, hiv, hrv⟩ := unpack_packWord h v
  obtain ⟨hfw, hiw, hrw⟩ := unpack_packWord h w
  have hie : ieAt l v false = ieAt l w false := by
    by_cases hl : l.ie = none
    · simp [ieAt, hl]
    · rw [← hiv hl, hvw, hiw hl]
  rw [← placeFlags_parts l v false, ← hfv, ← hrv, hie, hvw, hfw, hrw, placeFlags_parts]

/-- On a placed word, `packWord` is `pack` of the parts it was placed from. -/
theorem packWord_placeFlags (hie : l.ie = none → ∀ f ie ie' rest, pack f ie rest = pack f ie' rest) (f : Flags)
    (ie : Bool) {rest : Word} (hrest : restOf l rest = rest) :
    packWord l pack (placeFlags l f ie rest) = pack f ie rest := by
  simp only [packWord, flagsAt_placeFlags, ieAt_placeFlags, restOf_placeFlags, hrest]
  split
  · next hl => exact hie hl _ _ _ _
  · rfl

/-- A one-to-one map of words is the code of a layout with the same places. -/
theorem exists_code_of_injective (l : FlagLayout) {g : Word → Word} (hg : Function.Injective g) :
    ∃ c, ∀ w, encodeFlag { l with code := c } w = g w :=
  exists_code l (Equiv.ofBijective g (Finite.injective_iff_bijective.1 hg))

end EveryPair

/-- Settles O60: packing is one-to-one on words, so some code is it; and every word is a packed one. -/
theorem flagLayoutGivesEveryPair : Obligations.FlagLayoutGivesEveryPair := by
  intro l pack unpack (hundo : UndoesPack l pack unpack) hie
  obtain ⟨c, hc⟩ := exists_code_of_injective l (packWord_injective hundo)
  refine ⟨c, fun k hk => ⟨fun f ie rest hrest => ?_, fun w old => ?_⟩⟩ <;> subst hk
  · exact (hc _).trans (packWord_placeFlags hie f ie hrest)
  · have hw : packWord l pack (decodeFlag { l with code := c } w) = w := by rw [← hc, encodeFlag_decodeFlag]
    obtain ⟨hf, hi, hr⟩ := unpack_packWord hundo (decodeFlag { l with code := c } w)
    rw [hw] at hf hi hr
    refine ⟨hf.symm, hr.symm, fun hl => ?_⟩
    rw [hi hl, unpackIe_eq_ieAt]
    exact ieAt_eq_of_ne_none hl _ old false

end Sys2Proof.Machine
end

section
/-! What one instruction may change (statements O11, O52, O53, O55). `Effect` lists the updates of a state, each
guarded by the table that lets the instruction make it, and `exec_effect` says that every instruction that completes
makes only such updates. Each statement about what is kept is then an induction over the updates. -/

namespace Sys2Proof.Machine

/-! ### The updates of an instruction -/

/-- `Effect i s t`: from `s` to `t` by updates that the tables let `i` make (10_state.md R15, R20; 20_memory.md
R38). -/
inductive Effect (i : Instr) (s : State) : State → Prop where
  | unchanged : Effect i s s
  | setReg {t r} (h : Effect i s t) (hr : r ∈ writtenRegs s.cfg i) (v : Word) : Effect i s (t.setReg r v)
  | setSp {t} (h : Effect i s t) (hi : movesSp i = true) (hr : spRegs s.cfg ⊆ writtenRegs s.cfg i) (v : Word) :
      Effect i s (t.setSp v)
  | setPc {t} (h : Effect i s t) (hi : writesPc i = true) (v : Word) : Effect i s (t.setPc v)
  | setFlags {t} (h : Effect i s t) (hi : changesFlags i = true) (f : Flags) (draws : Nat) :
      Effect i s { t with flags := f, draws := draws }
  | setFlagWord {t} (h : Effect i s t) (hi : i = .reti) (w : Word) : Effect i s (t.setFlagWord w)
  | setIe {t} (h : Effect i s t) (hi : i = .ei ∨ i = .di ∨ i = .svc) (b : Bool) : Effect i s (t.setIe b)
  | setHalted {t} (h : Effect i s t) (hi : i = .halt) (b : Bool) : Effect i s (t.setHalted b)
  | storeByte {t} (h : Effect i s t) (a : Word) (hi : a ∈ storedBytes s i) (v : Byte) :
      Effect i s (t.setMem (memSet t.mem a.toNat v))
  | storeWord {t} (h : Effect i s t) (a : Word) (hi : wordAddresses s.cfg a ⊆ storedBytes s i) (v : Word) :
      Effect i s (t.setMem (storeWord t.cfg t.mem a v))
  | ioConsume {t rd ea} (h : Effect i s t) (hi : i = .inp rd ea) : Effect i s t.ioConsume
  | record {t} (h : Effect i s t) (hi : (∃ rd ea, i = .inp rd ea) ∨ ∃ rd ea, i = .out rd ea) (e : IoEvent) :
      Effect i s (t.record e)

variable {i : Instr} {s t : State}

namespace Effect

/-- The one destination of an instruction. -/
theorem setDest {r : Reg} (h : Effect i s t) (hr : writtenRegs s.cfg i = [r]) (v : Word) : Effect i s (t.setReg r v) :=
  h.setReg (by simp [hr]) v

theorem setPair {r : Reg} (h : Effect i s t) (hr : writtenRegs s.cfg i = [r, highReg r]) (hi lo : Word) :
    Effect i s (t.setPair r hi lo) :=
  (h.setReg (by simp [hr]) lo).setReg (by simp [hr]) hi

end Effect

open Effect (unchanged)

/-! ### The shared operations -/

theorem writeAt_effect (rd : Reg) (ea : AddrMode) (s : State) (v : Word) :
    OnNext (Effect (.st rd ea) s) (writeAt s ea v) := by
  intro t h
  obtain ⟨-, rfl⟩ := writeAt_eq_next.1 h
  cases ea with
  | drct _ | index _ _ | fpRlt _ | indr _ => exact unchanged.storeWord _ (List.Subset.refl _) v
  | bIndr _ => exact unchanged.storeByte _ (List.mem_singleton_self _) _

theorem pushWord_effect (hi : movesSp i = true) (hr : spRegs s.cfg ⊆ writtenRegs s.cfg i)
    (hm : wordAddresses s.cfg (s.sp - 2#16) ⊆ storedBytes s i) (v : Word) :
    OnNext (Effect i s) (pushWord s v) := by
  intro t h
  obtain ⟨-, -, rfl⟩ := pushWord_eq_next.1 h
  exact (unchanged.storeWord _ hm v).setSp hi hr _

theorem popWord_effect (hi : movesSp i = true) (hr : spRegs s.cfg ⊆ writtenRegs s.cfg i) :
    OnNext (fun p => Effect i s p.2) (popWord s) := by
  intro p h
  obtain ⟨-, -, rfl⟩ := popWord_eq_next.1 h
  exact unchanged.setSp hi hr _

/-- Trap entry, to any handler, makes the updates of `SVC`. -/
theorem trapEntry_effect (hd : Handler) (s : State) : OnNext (Effect .svc s) (trapEntry hd s) := by
  intro t h
  obtain ⟨-, -, -, -, target, -, rfl⟩ := trapEntry_eq_next.1 h
  exact ((((unchanged.storeWord _ (List.subset_append_left _ _) s.pc).storeWord (s.sp - 4#16)
    (List.subset_append_right _ _) s.flagWord).setSp rfl (List.Subset.refl _) _).setIe (by simp) _).setPc rfl _

theorem trapReturn_effect (s : State) : OnNext (Effect .reti s) (trapReturn s) := by
  intro t h
  obtain ⟨-, -, -, -, rfl⟩ := trapReturn_eq_next.1 h
  exact ((unchanged.setSp rfl (List.Subset.refl _) _).setFlagWord rfl _).setPc rfl _

theorem logicOp_effect {rd : Reg} (hr : writtenRegs s.cfg i = [rd]) (hi : changesFlags i = true)
    (f : Word → Word → Word) (ea : Operand) : OnNext (Effect i s) (logicOp f rd ea s) :=
  .andThen_of_forall fun _ => .next ((unchanged.setDest hr _).setFlags hi _ _)

theorem shiftOp_effect {rd : Reg} (hr : writtenRegs s.cfg i = [rd]) (hi : changesFlags i = true)
    (f : Word → Nat → Word) (ea : Operand) : OnNext (Effect i s) (shiftOp f rd ea s) :=
  .andThen_of_forall fun _ =>
    .ite (.next ((unchanged.setDest hr _).setFlags hi _ _)) (.next ((unchanged.setDest hr _).setFlags hi _ _))

theorem jumpIf_effect (hi : writesPc i = true) (taken : Bool) (ea : JumpMode) (s : State) :
    OnNext (Effect i s) (jumpIf taken ea s) := by
  cases taken with
  | true => exact .next (unchanged.setPc hi _)
  | false => exact .next unchanged

/-! ### The instructions -/

/-- An instruction that completes makes only the updates the tables let it make. -/
theorem exec_effect (i : Instr) (s : State) : OnNext (Effect i s) (exec i s) := by
  cases i with
  | no => exact .next unchanged
  | ld rd ea => exact .andThen_of_forall fun _ => .next (unchanged.setDest rfl _)
  | ldFlag rd => exact .next (unchanged.setDest rfl _)
  | st rd ea => exact writeAt_effect rd ea s _
  | add rd ea | sub rd ea =>
    exact .andThen_of_forall fun _ => .next ((unchanged.setDest rfl _).setFlags rfl _ _)
  | cmp rd ea => exact .andThen_of_forall fun _ => .next (unchanged.setFlags rfl _ _)
  | and rd ea | or rd ea | xor rd ea => exact logicOp_effect rfl rfl _ ea
  | adds rd ea => exact logicOp_effect rfl rfl (fun a b => a + 2#16 * b) ea
  | mul rd ea => exact .andThen_of_forall fun _ => .next ((unchanged.setDest rfl _).setFlags rfl _ _)
  | div rd ea | mod rd ea =>
    exact .andThen_of_forall fun _ => .andThen_of_forall fun _ =>
      .next ((unchanged.setDest rfl _).setFlags rfl _ _)
  | mull rd ea =>
    exact .ite (.andThen_of_forall fun _ => .next ((unchanged.setPair rfl _ _).setFlags rfl _ _)) (.refused _)
  | divl rd ea =>
    exact .ite
      (.andThen_of_forall fun _ => .andThen_of_forall fun _ =>
        .next ((unchanged.setPair rfl _ _).setFlags rfl _ _))
      (.refused _)
  | shla rd ea | shll rd ea | shra rd ea | shrl rd ea => exact shiftOp_effect rfl rfl _ ea
  | jz ea | jc ea | jm ea | jo ea | jgt ea | jge ea | jle ea | jlt ea | jnz ea | jnc ea | jnm ea | jno ea
  | jhi ea | jls ea | jmp ea => exact jumpIf_effect rfl _ ea s
  | call ea =>
    exact (pushWord_effect rfl (List.Subset.refl _) (List.Subset.refl _) _).andThen fun _ h =>
      .next (h.setPc rfl _)
  | inp rd ea =>
    cases ea with
    | drct _ | indr _ | bIndr _ =>
      exact .next (((unchanged.ioConsume rfl).record (.inl ⟨_, _, rfl⟩) _).setDest rfl _)
  | out rd ea =>
    cases ea with
    | drct _ | indr _ | bIndr _ => exact .next (unchanged.record (.inr ⟨_, _, rfl⟩) _)
  | push rd => exact .ite (.refused _) (pushWord_effect rfl (List.Subset.refl _) (List.Subset.refl _) _)
  | pop rd =>
    exact .ite (.refused _) ((popWord_effect rfl (List.subset_cons_self _ _)).andThen fun _ h =>
      .next (h.setReg List.mem_cons_self _))
  | ret => exact (popWord_effect rfl (List.Subset.refl _)).andThen fun _ h => .next (h.setPc rfl _)
  | reti => exact trapReturn_effect s
  | ei | di => exact .next (unchanged.setIe (by simp) _)
  | svc => exact trapEntry_effect _ s
  | halt => exact .next (unchanged.setHalted rfl _)

/-! ### What the updates keep -/

theorem mem_spRegs {c : Config} {r : Reg} : r ∈ spRegs c ↔ c.spLoc = .reg r := by
  cases h : c.spLoc <;> simp [spRegs, h, eq_comm]

namespace Effect

theorem cfg (h : Effect i s t) : t.cfg = s.cfg := by
  induction h with
  | unchanged => rfl
  | _ => simpa

theorem requests (h : Effect i s t) : t.requests = s.requests := by
  induction h with
  | unchanged => rfl
  | _ => simpa

theorem reg (h : Effect i s t) {r : Reg} (hr : r ∉ writtenRegs s.cfg i) : t.reg r = s.reg r := by
  induction h with
  | unchanged => rfl
  | setReg _ hr' v ih => exact (State.reg_setReg_ne _ (ne_of_mem_of_not_mem hr' hr).symm v).trans ih
  | setSp h _ hsp v ih =>
    have hne : s.cfg.spLoc ≠ .reg r := fun e => hr (hsp (mem_spRegs.2 e))
    exact (State.reg_setSp_ne _ (h.cfg ▸ hne) v).trans ih
  | ioConsume => simpa
  | setPc | setFlags | setFlagWord | setIe | setHalted | storeByte | storeWord | record => assumption

theorem spOwn (h : Effect i s t) (hi : movesSp i = false ∨ s.cfg.spLoc ≠ .separate) : t.spOwn = s.spOwn := by
  induction h with
  | unchanged => rfl
  | setSp h hi' _ v ih =>
    cases hsp : s.cfg.spLoc with
    | reg j => exact (State.setSp_spOwn_of_reg _ (h.cfg ▸ hsp) v).trans ih
    | separate => simp [hi', hsp] at hi
  | _ => simpa

theorem flags (h : Effect i s t) (hi : changesFlags i = false) : t.flags = s.flags := by
  induction h with
  | unchanged => rfl
  | setFlags _ hi' => simp [hi'] at hi
  | setFlagWord _ hi' => simp [hi', changesFlags] at hi
  | _ => simpa

theorem ie (h : Effect i s t) (hei : i ≠ .ei) (hdi : i ≠ .di) (hsvc : i ≠ .svc) (hreti : i ≠ .reti) :
    t.ie = s.ie := by
  induction h with
  | unchanged => rfl
  | setFlagWord _ hi => exact absurd hi hreti
  | setIe _ hi => simp [hei, hdi, hsvc] at hi
  | _ => simpa

theorem flagRest (h : Effect i s t) (hi : i ≠ .reti) : t.flagRest = s.flagRest := by
  induction h with
  | unchanged => rfl
  | setFlagWord _ hi' => exact absurd hi' hi
  | _ => simpa

theorem pc (h : Effect i s t) (hi : writesPc i = false) : t.pc = s.pc := by
  induction h with
  | unchanged => rfl
  | setPc _ hi' => simp [hi'] at hi
  | _ => simpa

theorem halted (h : Effect i s t) (hi : i ≠ .halt) : t.halted = s.halted := by
  induction h with
  | unchanged => rfl
  | setHalted _ hi' => exact absurd hi' hi
  | _ => simpa

theorem ioIn (h : Effect i s t) (hi : ∀ rd ea, i ≠ .inp rd ea) : t.ioIn = s.ioIn := by
  induction h with
  | unchanged => rfl
  | ioConsume _ hi' => exact absurd hi' (hi _ _)
  | _ => simpa

theorem ioLog (h : Effect i s t) (hin : ∀ rd ea, i ≠ .inp rd ea) (hout : ∀ rd ea, i ≠ .out rd ea) :
    t.ioLog = s.ioLog := by
  induction h with
  | unchanged => rfl
  | record _ hi => simp [hin, hout] at hi
  | _ => simpa

/-- The stores keep the canonical form, and what `RETI` unpacks as `FLAG_REST` holds no named bit. -/
theorem stateInv (h : Effect i s t) (hs : StateInv s) : StateInv t := by
  induction h with
  | unchanged => exact hs
  | setFlagWord _ _ _ ih => exact ⟨ih.1, restOf_unpackRest _ _⟩
  | storeByte _ _ _ _ ih => exact ⟨memSet_wf (BitVec.isLt _) _ ih.1, ih.2⟩
  | storeWord _ _ _ _ ih => exact ⟨storeWord_wf _ _ ih.1, ih.2⟩
  | setSp | ioConsume => simpa [StateInv]
  | setReg | setPc | setFlags | setIe | setHalted | record => assumption

end Effect

/-! ### The statements -/

/-- Settles O52: the updates of a register are of a written one. -/
theorem registerFrame : Obligations.RegisterFrame := fun i s t h =>
  have he := exec_effect i s t h
  ⟨fun _ => he.reg, he.spOwn⟩

/-- Settles O53: the updates of the flags, of `IE` and of `FLAG_REST` are of the instructions named. -/
theorem flagFrame : Obligations.FlagFrame := fun i s t h =>
  have he := exec_effect i s t h
  ⟨he.flags, he.ie, he.flagRest⟩

/-- Settles O55: no update is of the requests or the parameters, and the others are of the instructions named. -/
theorem controlFrame : Obligations.ControlFrame := fun i s t h =>
  have he := exec_effect i s t h
  ⟨he.pc, he.halted, fun hin => ⟨he.ioIn hin, he.ioLog hin⟩, he.requests, he.cfg⟩

/-- Settles O11: passing the boundary, waking and advancing `pc` touch neither memory nor `FLAG_REST`; the
instruction or the trap entry that follows keeps the invariant as its updates do. -/
theorem stepKeepsInvariant : Obligations.StepKeepsInvariant := by
  intro s t hs h
  rcases step_cases h with ⟨-, -, rfl⟩ | ⟨-, -, -, rfl⟩ | ⟨hd, -, -, -, htrap⟩ | ⟨hd, -, -, htrap⟩ |
    ⟨i, u, -, -, hfetch, hexec⟩ | ⟨hd, k, -, -, -, -, htrap⟩
  · exact hs
  · exact hs
  · exact (trapEntry_effect hd _ t htrap).stateInv hs
  · exact (trapEntry_effect hd _ t htrap).stateInv hs
  · obtain ⟨a, rfl⟩ : ∃ a, u = s.passBoundary.setPc a := fetch_changes_only_pc _ _ hfetch
    exact (exec_effect i _ t hexec).stateInv hs
  · exact (trapEntry_effect hd _ t htrap).stateInv hs

end Sys2Proof.Machine
end

section
/-! What a memory access answers and where it stops (statements O6 to O10 and O54). One rule for each outcome of an
access; what `MISALIGNED` makes of an address; what a word write does to the words beside it; what a fetch makes of
the words it reads. The statements are put together from these rules. -/

namespace Sys2Proof.Machine

variable {c : Config} {s t : State} {a v : Word}

/-! ### The outcomes of a byte access (20_memory.md R33, R34) -/

theorem readByte_of_readable (h : readable s.cfg a = true) : readByte s a = .next (memGet s.mem a.toNat) := if_pos h

theorem readByte_of_not_readable (h : readable s.cfg a = false) : readByte s a = .fault .unmapped := by
  simp [readByte, h]

theorem writeByte_of_writable (h : writable s.cfg a = true) (b : Byte) :
    writeByte s a b = .next (s.setMem (memSet s.mem a.toNat b)) := if_pos h

theorem writeByte_of_not_writable (h : writable s.cfg a = false) (b : Byte) :
    writeByte s a b = .fault .unmapped := by
  simp [writeByte, h]

/-- A byte access has no alignment rule (20_memory.md R32). -/
theorem readByte_ne_misaligned (s : State) (a : Word) : readByte s a ≠ .refused .misaligned := by
  unfold readByte; split <;> simp

theorem writeByte_ne_misaligned (s : State) (a : Word) (b : Byte) : writeByte s a b ≠ .refused .misaligned := by
  unfold writeByte; split <;> simp

/-! ### The outcomes of a word access (20_memory.md R33, R34) -/

theorem readWord_of_misaligned (h : alignedFor s.cfg a = false) : readWord s a = .refused .misaligned := by
  simp [readWord, h]

theorem readWord_of_unmapped (ha : alignedFor s.cfg a = true)
    (h : readable s.cfg (firstByte s.cfg a) = false ∨ readable s.cfg (firstByte s.cfg a + 1#16) = false) :
    readWord s a = .fault .unmapped := by
  have hw : wordReadable s.cfg a = false := by rw [wordReadable, Bool.and_eq_false_iff]; exact h
  simp [readWord, ha, hw]

theorem readWord_of_mapped (ha : alignedFor s.cfg a = true) (h0 : readable s.cfg (firstByte s.cfg a) = true)
    (h1 : readable s.cfg (firstByte s.cfg a + 1#16) = true) : readWord s a = .next (loadWord s.cfg s.mem a) :=
  readWord_eq_next.2 ⟨ha, by rw [wordReadable, h0, h1]; rfl, rfl⟩

theorem writeWord_of_misaligned (h : alignedFor s.cfg a = false) (v : Word) :
    writeWord s a v = .refused .misaligned := by
  simp [writeWord, h]

theorem writeWord_of_unmapped (ha : alignedFor s.cfg a = true)
    (h : writable s.cfg (firstByte s.cfg a) = false ∨ writable s.cfg (firstByte s.cfg a + 1#16) = false) (v : Word) :
    writeWord s a v = .fault .unmapped := by
  have hw : wordWritable s.cfg a = false := by rw [wordWritable, Bool.and_eq_false_iff]; exact h
  simp [writeWord, ha, hw]

theorem writeWord_of_mapped (ha : alignedFor s.cfg a = true) (h0 : writable s.cfg (firstByte s.cfg a) = true)
    (h1 : writable s.cfg (firstByte s.cfg a + 1#16) = true) (v : Word) :
    writeWord s a v = .next (s.setMem (storeWord s.cfg s.mem a v)) :=
  writeWord_eq_next.2 ⟨ha, by rw [wordWritable, h0, h1]; rfl, rfl⟩

/-- An aligned word access stops only on the map. -/
theorem readWord_ne_misaligned (ha : alignedFor s.cfg a = true) : readWord s a ≠ .refused .misaligned := by
  rw [readWord, if_pos ha]; split <;> simp

theorem writeWord_ne_misaligned (ha : alignedFor s.cfg a = true) (v : Word) :
    writeWord s a v ≠ .refused .misaligned := by
  rw [writeWord, if_pos ha]; split <;> simp

/-- A read depends on memory through the word loaded, and on nothing else but the parameters. -/
theorem readWord_congr (hcfg : t.cfg = s.cfg) (hload : loadWord s.cfg t.mem a = loadWord s.cfg s.mem a) :
    readWord t a = readWord s a := by
  simp only [readWord, hcfg, hload]

/-! ### Addresses under each `MISALIGNED` (20_memory.md R32) -/

/-- Only `refuse` has an alignment rule, and it refuses the odd addresses. -/
theorem alignedFor_eq_false_iff : alignedFor c a = false ↔ c.misaligned = .refuse ∧ a.toNat % 2 = 1 := by
  have hbit : a.getLsbD 0 = true ↔ a.toNat % 2 = 1 := by simp [BitVec.getLsbD]
  cases h : c.misaligned with
  | refuse => simp only [alignedFor, h, Bool.not_eq_false', hbit, true_and]
  | split | mask => simp [alignedFor, h]

theorem alignedFor_of_ne_refuse (h : c.misaligned ≠ .refuse) (a : Word) : alignedFor c a = true :=
  Bool.eq_true_of_not_eq_false fun hf => h (alignedFor_eq_false_iff.1 hf).1

theorem alignedFor_of_even (c : Config) (h : a.toNat % 2 = 0) : alignedFor c a = true :=
  Bool.eq_true_of_not_eq_false fun hf => by have := (alignedFor_eq_false_iff.1 hf).2; omega

theorem firstByte_of_ne_mask (h : c.misaligned ≠ .mask) (a : Word) : firstByte c a = a := by
  cases hm : c.misaligned <;> simp_all [firstByte]

/-- Under `mask` an odd address names the word of the even one below it. -/
theorem firstByte_sub_one_of_mask (hm : c.misaligned = .mask) (ha : a.toNat % 2 = 1) :
    firstByte c (a - 1#16) = firstByte c a := by
  have hsub : (a - 1#16).toNat = a.toNat - 1 := by bv_omega
  apply BitVec.eq_of_toNat_eq
  simp only [firstByte, hm, toNat_mask, hsub]
  omega

theorem readWord_sub_one_of_mask (hm : s.cfg.misaligned = .mask) (ha : a.toNat % 2 = 1) :
    readWord s (a - 1#16) = readWord s a := by
  have haligned : alignedFor s.cfg (a - 1#16) = alignedFor s.cfg a := by simp only [alignedFor, hm]
  rw [readWord, wordReadable, loadWord, haligned, firstByte_sub_one_of_mask hm ha]
  rfl

theorem writeWord_sub_one_of_mask (hm : s.cfg.misaligned = .mask) (ha : a.toNat % 2 = 1) (v : Word) :
    writeWord s (a - 1#16) v = writeWord s a v := by
  have haligned : alignedFor s.cfg (a - 1#16) = alignedFor s.cfg a := by simp only [alignedFor, hm]
  rw [writeWord, wordWritable, storeWord, haligned, firstByte_sub_one_of_mask hm ha]
  rfl

/-- The address of a word's second byte, as 20_memory.md R32 writes it. -/
theorem toNat_add_one_mod (a : Word) : (a + 1#16).toNat = (a.toNat + 1) % 65536 := BitVec.toNat_add a 1#16

/-- Under `split` the word at any address is the bytes there and at the next. -/
theorem readWord_of_split (hm : s.cfg.misaligned = .split) (h0 : readable s.cfg a = true)
    (h1 : readable s.cfg (a + 1#16) = true) :
    readWord s a = .next
      (bytesWord s.cfg.byteOrder (memGet s.mem a.toNat) (memGet s.mem ((a.toNat + 1) % 65536))) := by
  have hfirst : firstByte s.cfg a = a := firstByte_of_ne_mask (by simp [hm]) a
  rw [readWord_of_mapped (alignedFor_of_ne_refuse (by simp [hm]) a) (by rwa [hfirst]) (by rwa [hfirst]), loadWord,
    hfirst, toNat_add_one_mod]

/-- Under `split` a word write sets the bytes at the address and at the next. -/
theorem writeWord_of_split (hm : s.cfg.misaligned = .split) (hwf : Memory.wf s.mem) (h0 : writable s.cfg a = true)
    (h1 : writable s.cfg (a + 1#16) = true) (v : Word) :
    ∃ t, writeWord s a v = .next t ∧
      memGet t.mem a.toNat = (wordBytes s.cfg.byteOrder v).1 ∧
      memGet t.mem ((a.toNat + 1) % 65536) = (wordBytes s.cfg.byteOrder v).2 := by
  have hfirst : firstByte s.cfg a = a := firstByte_of_ne_mask (by simp [hm]) a
  have hb0 := memGet_storeWord_first (c := s.cfg) hwf a v
  have hb1 := memGet_storeWord_second (c := s.cfg) hwf a v
  rw [hfirst] at hb0 hb1
  exact ⟨_, writeWord_of_mapped (alignedFor_of_ne_refuse (by simp [hm]) a) (by rwa [hfirst]) (by rwa [hfirst]) v, hb0,
    toNat_add_one_mod a ▸ hb1⟩

/-! ### The words beside a written word -/

/-- The word two bytes above `a` starts two bytes above the word at `a`, under every `MISALIGNED`. -/
theorem firstByte_add_two (c : Config) (a : Word) : firstByte c (a + 2#16) = firstByte c a + 2#16 := by
  have h := firstByte_sub_two c (a + 2#16)
  rw [BitVec.add_sub_cancel] at h
  rw [h, BitVec.sub_add_cancel]

theorem loadWord_storeWord_sub_two (c : Config) (m : Memory) (a v : Word) :
    loadWord c (storeWord c m a v) (a - 2#16) = loadWord c m (a - 2#16) := by
  apply loadWord_storeWord_ne <;> rw [firstByte_sub_two] <;> bv_omega

theorem loadWord_storeWord_add_two (c : Config) (m : Memory) (a v : Word) :
    loadWord c (storeWord c m a v) (a + 2#16) = loadWord c m (a + 2#16) := by
  apply loadWord_storeWord_ne <;> rw [firstByte_add_two] <;> bv_omega

/-- A written word reads back where it can be read. -/
theorem readWord_of_writeWord (hwf : Memory.wf s.mem) (h : writeWord s a v = .next t)
    (hr : wordReadable s.cfg a = true) : readWord t a = .next v := by
  obtain ⟨haligned, -, rfl⟩ := writeWord_eq_next.1 h
  exact readWord_eq_next.2 ⟨haligned, hr, loadWord_storeWord hwf a v⟩

/-! ### What a fetch makes of the words it reads (20_memory.md R36) -/

theorem fetch_of_one {w1 : Word} {i : Instr} (h1 : readWord s s.pc = .next w1)
    (hd : decodeFirst w1 = .ok (.one i)) : fetch s = .next (i, s.setPc (s.pc + 2#16)) :=
  fetch_eq_next.2 ⟨w1, h1, .inl ⟨i, hd, rfl⟩⟩

theorem fetch_of_two {w1 w2 : Word} {f : Word → Instr} (h1 : readWord s s.pc = .next w1)
    (hd : decodeFirst w1 = .ok (.two f)) (h2 : readWord s (s.pc + 2#16) = .next w2) :
    fetch s = .next (f w2, s.setPc (s.pc + 4#16)) :=
  fetch_eq_next.2 ⟨w1, h1, .inr ⟨f, w2, hd, h2, rfl⟩⟩

theorem fetch_of_readWord_refused {r : Refusal} (h : readWord s s.pc = .refused r) : fetch s = .refused r := by
  rw [fetch, h, andThen_refused]

/-- Under `split` the second word of an instruction is the bytes two and three after `pc`. -/
theorem readWord_pc_add_two_of_split (hm : s.cfg.misaligned = .split) (h2 : readable s.cfg (s.pc + 2#16) = true)
    (h3 : readable s.cfg (s.pc + 3#16) = true) :
    readWord s (s.pc + 2#16) = .next (bytesWord s.cfg.byteOrder (memGet s.mem ((s.pc.toNat + 2) % 65536))
      (memGet s.mem ((s.pc.toNat + 3) % 65536))) := by
  have hpc : s.pc + 2#16 + 1#16 = s.pc + 3#16 := BitVec.add_assoc _ _ _
  have hn2 : (s.pc + 2#16).toNat = (s.pc.toNat + 2) % 65536 := BitVec.toNat_add _ _
  have hn3 : ((s.pc.toNat + 2) % 65536 + 1) % 65536 = (s.pc.toNat + 3) % 65536 := by omega
  rw [readWord_of_split hm h2 (hpc ▸ h3), hn2, hn3]

/-- Under `mask` the second word of an instruction at an odd `pc` is the word one byte after `pc`. -/
theorem readWord_pc_add_two_of_mask (hm : s.cfg.misaligned = .mask) (hpc : s.pc.toNat % 2 = 1) :
    readWord s (s.pc + 2#16) = readWord s (s.pc + 1#16) := by
  have hodd : (s.pc + 2#16).toNat % 2 = 1 := by bv_omega
  have hsub : s.pc + 2#16 - 1#16 = s.pc + 1#16 := by bv_omega
  rw [← readWord_sub_one_of_mask hm hodd, hsub]

/-! ### The statements -/

/-- Settles O7: the outcomes of a write, and what the byte and word writes do to each byte. -/
theorem memoryWriteAsStated : Obligations.MemoryWriteAsStated := by
  intro s a hwf
  refine ⟨fun v hw => ⟨_, writeByte_of_writable hw v, memGet_memSet_same (memory_wf_pairwise hwf) _ _,
      fun k hk => memGet_memSet_ne hk _ _⟩,
    fun v hw => writeByte_of_not_writable hw v, fun v ha => writeWord_of_misaligned ha v, ?_⟩
  rintro v _ ha rfl
  refine ⟨fun h => writeWord_of_unmapped ha h v, fun h0 h1 => ⟨_, writeWord_of_mapped ha h0 h1 v, ?_⟩⟩
  rw [memGet_storeWord_first hwf, memGet_storeWord_second hwf]
  exact ⟨fun ho => by simp [wordBytes, ho], fun ho => by simp [wordBytes, ho],
    fun k hk0 hk1 => memGet_storeWord_ne hk0 hk1 _ _⟩

/-- Settles O8: each `MISALIGNED` decides alignment and the first byte, and the outcomes of the accesses and of the
fetch follow. -/
theorem misalignedAccessByParameter : Obligations.MisalignedAccessByParameter := by
  intro s a v b
  refine ⟨fun hm ha => ?_, fun hm => ?_, fun hm ha => ?_, fun ha => ?_, readByte_ne_misaligned s a,
    writeByte_ne_misaligned s a b,
    fun hpc => ⟨fun hm => ?_, fun hm h0 h1 w1 hw1 => ?_, fun hm w1 hw1 => ?_⟩⟩
  · have hf := alignedFor_eq_false_iff.2 ⟨hm, ha⟩
    exact ⟨readWord_of_misaligned hf, writeWord_of_misaligned hf v⟩
  · have haligned := alignedFor_of_ne_refuse (c := s.cfg) (by simp [hm]) a
    have hfirst : firstByte s.cfg a = a := firstByte_of_ne_mask (by simp [hm]) a
    exact ⟨readWord_of_split hm, fun h => readWord_of_unmapped haligned (by rwa [hfirst]),
      fun hwf h0 h1 => writeWord_of_split hm hwf h0 h1 v,
      fun h => writeWord_of_unmapped haligned (by rwa [hfirst]) v⟩
  · exact ⟨(readWord_sub_one_of_mask hm ha).symm, (writeWord_sub_one_of_mask hm ha v).symm⟩
  · have haligned := alignedFor_of_even s.cfg ha
    exact ⟨readWord_ne_misaligned haligned, writeWord_ne_misaligned haligned v⟩
  · exact fetch_of_readWord_refused (readWord_of_misaligned (alignedFor_eq_false_iff.2 ⟨hm, hpc⟩))
  · have hr : readWord s s.pc = .next w1 := hw1 ▸ readWord_of_split hm h0 h1
    exact ⟨fun i hd => fetch_of_one hr hd,
      fun g hd h2 h3 => fetch_of_two hr hd (readWord_pc_add_two_of_split hm h2 h3)⟩
  · have hr : readWord s s.pc = .next w1 := readWord_sub_one_of_mask hm hpc ▸ hw1
    exact ⟨fun i hd => ⟨_, fetch_of_one hr hd⟩,
      fun g w2 hd h2 => ⟨_, fetch_of_two hr hd (readWord_pc_add_two_of_mask hm hpc ▸ h2)⟩⟩

/-- Settles O9: the word's own two bytes are set, and the words two bytes away have none of them. -/
theorem writtenWordReadsBack : Obligations.WrittenWordReadsBack := by
  intro s t a v hwf h
  refine ⟨readWord_of_writeWord hwf h, ?_⟩
  obtain ⟨-, -, rfl⟩ := writeWord_eq_next.1 h
  exact ⟨readWord_congr rfl (loadWord_storeWord_sub_two _ _ a v),
    readWord_congr rfl (loadWord_storeWord_add_two _ _ a v)⟩

/-- Settles O10: the store leaves `pc`, and the fetch reads the stored word back. -/
theorem storedWordIsFetched : Obligations.StoredWordIsFetched := by
  intro s t w i hwf h hr hd
  have hpc : t.pc = s.pc := by obtain ⟨-, -, rfl⟩ := writeWord_eq_next.1 h; rfl
  rw [← hpc] at h hr ⊢
  exact fetch_of_one (readWord_of_writeWord hwf h hr) hd

/-- The updates of memory are of the bytes an instruction stores to. -/
theorem Effect.memGet_eq {i : Instr} {k : Nat} (h : Effect i s t) (hk : ∀ a ∈ storedBytes s i, a.toNat ≠ k) :
    memGet t.mem k = memGet s.mem k := by
  induction h with
  | unchanged => rfl
  | storeByte _ a ha v ih => exact (memGet_memSet_ne (hk a ha).symm _ v).trans ih
  | storeWord h a ha v ih =>
    rw [← h.cfg] at ha
    have h0 := hk _ (ha List.mem_cons_self)
    have h1 := hk _ (ha (List.mem_cons_of_mem _ (List.mem_singleton_self _)))
    exact (memGet_storeWord_ne h0.symm h1.symm _ v).trans ih
  | setSp | ioConsume => simpa
  | setReg | setPc | setFlags | setFlagWord | setIe | setHalted | record => assumption

/-- Settles O54: an instruction's stores are to its stored bytes, and a store leaves every other byte. -/
theorem memoryFrame : Obligations.MemoryFrame := fun i s t h _ hk => (exec_effect i s t h).memGet_eq hk

/-- Settles O6: the outcomes of a read, with the word's value in each byte order. -/
theorem memoryReadAsStated : Obligations.MemoryReadAsStated := by
  intro s a
  refine ⟨readByte_of_readable, readByte_of_not_readable, readWord_of_misaligned, ?_⟩
  rintro ha _ rfl
  refine ⟨readWord_of_unmapped ha, fun h0 h1 => ?_⟩
  rw [readWord_of_mapped ha h0 h1, loadWord]
  exact ⟨fun ho => by simp [bytesWord, ho], fun ho => by simp [bytesWord, ho]⟩

end Sys2Proof.Machine
end

section
/-! The encoding of instructions (statements O1 to O3). `Reads` says what instruction an answer of the decoder makes
with the words that follow; it ties the decoder's branches to the encoder's, one lemma for each mode table and each
direction, and `decodes_iff` puts them together: the words that decode are exactly the encodings. -/

namespace Sys2Proof

variable {w : Word} {ws : List Word} {i : Instr} {rd rx : BitVec 4} {g m op base : Nat}

/-! ### The fields of a first word (30_encoding.md R51) -/

theorem opField_firstWord (op : Nat) (rd rx : BitVec 4) : opField (firstWord op rd rx) = BitVec.ofNat 8 op := by
  ext j hj; simp [opField, firstWord]; grind

@[simp] theorem rdField_firstWord (op : Nat) (rd rx : BitVec 4) : rdField (firstWord op rd rx) = rd := by
  ext j hj; simp [rdField, firstWord]; grind

@[simp] theorem rxField_firstWord (op : Nat) (rd rx : BitVec 4) : rxField (firstWord op rd rx) = rx := by
  ext j hj; simp [rxField, firstWord]; grind

/-- A first word has no bits but those of its three fields. -/
theorem firstWord_fields (w : Word) : firstWord (opField w).toNat (rdField w) (rxField w) = w := by
  rw [firstWord, BitVec.ofNat_toNat, BitVec.setWidth_eq]
  ext j hj; simp [opField, rdField, rxField]; grind

/-- The decoder sees the `OP` field as a group and a mode (30_encoding.md R52). -/
theorem decodeFirst_firstWord (hop : op < 256) (rd rx : BitVec 4) :
    decodeFirst (firstWord op rd rx) = decodeOp (op / 8) (op % 8) rd rx := by
  have hfield : (opField (firstWord op rd rx)).toNat = op := by
    rw [opField_firstWord, BitVec.toNat_ofNat]; omega
  rw [decodeFirst, hfield, rdField_firstWord, rxField_firstWord]

theorem decodeFirst_firstWord_add (hbase : base % 8 = 0 ∧ base < 256) (hm : m < 8) (rd rx : BitVec 4) :
    decodeFirst (firstWord (base + m) rd rx) = decodeOp (base / 8) m rd rx := by
  have hgroup : (base + m) / 8 = base / 8 := by omega
  have hmode : (base + m) % 8 = m := by omega
  rw [decodeFirst_firstWord (by omega), hgroup, hmode]

/-! ### What a decoder's answer makes of the words that follow -/

/-- `Reads x ws i`: a first word that decodes to `x` is, with the words `ws` after it, the instruction `i`. -/
inductive Reads : Except Reject Decoded → List Word → Instr → Prop
  | one (i : Instr) : Reads (.ok (.one i)) [] i
  | two (f : Word → Instr) (w : Word) : Reads (.ok (.two f)) [w] (f w)

@[simp] theorem not_reads_error (e : Reject) : ¬ Reads (.error e) ws i := nofun

@[simp] theorem reads_ifZero {f : BitVec 4} {x : Except Reject Decoded} :
    Reads (ifZero f x) ws i ↔ f = 0 ∧ Reads x ws i := by
  unfold ifZero; split <;> simp_all

/-- An instruction that is the only one of its group stands at one mode. -/
theorem reads_ite_error {n : Nat} {x : Except Reject Decoded} {e : Reject} :
    Reads (if m = n then x else .error e) ws i ↔ m = n ∧ Reads x ws i := by
  split <;> simp [*]

/-- Two instructions that share a group stand at modes 0 and 4. -/
theorem reads_zero_or_four {x y : Except Reject Decoded} {e : Reject}
    (h : Reads (if m = 0 then x else if m = 4 then y else .error e) ws i) :
    m = 0 ∧ Reads x ws i ∨ m = 4 ∧ Reads y ws i := by
  split at h
  · next hm => exact .inl ⟨hm, h⟩
  · exact .inr (reads_ite_error.1 h)

theorem evenReg_of_decodePair {k : Reg → Operand → Instr} (h : Reads (decodePair m rd rx k) ws i) :
    evenReg (regOf rd) = true ∧ Reads (decodeOperand m rx (k (regOf rd))) ws i := by
  unfold decodePair at h
  split at h
  · next heven => exact ⟨heven, h⟩
  · cases h

theorem jumpOf_of_decodeCondJump (h : Reads (decodeCondJump m rd rx) ws i) :
    ∃ k, jumpOf rd.toNat = some k ∧ Reads (decodeJump m rx k) ws i := by
  unfold decodeCondJump at h
  split at h
  · next k hk => exact ⟨k, hk, h⟩
  · cases h

/-- `CALL` has the jumps' modes and no condition (44_jump_call.md R156). -/
theorem rd_eq_zero_of_call (h : Reads (decodeOp 0x15 m rd rx) ws i) : rd = 0 ∧ Reads (decodeJump m rx .call) ws i := by
  unfold decodeOp at h
  cases hd : decodeJump m rx .call with
  | error e => simp [hd] at h
  | ok d => simpa [hd] using h

/-- The words `ws` are the instruction `i` and no more. -/
def Decodes : List Word → Instr → Prop
  | [], _ => False
  | w :: ws, i => Reads (decodeFirst w) ws i

/-- The decoder of bytes reads a whole instruction off their front, in either byte order. -/
theorem decodeBytes_eq_ok {o : ByteOrder} {bs rest : List Byte} :
    decodeBytes o bs = .ok (i, rest) ↔ ∃ ws, Decodes ws i ∧ bs = layWords o ws ++ rest := by
  constructor
  · intro h
    unfold decodeBytes at h
    split at h
    · next b0 b1 _ =>
      split at h
      · cases h
      · next j hd =>
        cases h
        exact ⟨[bytesWord o b0 b1], by rw [Decodes, hd]; exact .one i, by simp [layWords]⟩
      · next f hd =>
        split at h
        · next b2 b3 _ =>
          cases h
          exact ⟨[bytesWord o b0 b1, bytesWord o b2 b3], by rw [Decodes, hd]; exact .two f _, by simp [layWords]⟩
        · cases h
    · cases h
  · rintro ⟨_ | ⟨w, tl⟩, h, rfl⟩
    · exact h.elim
    · rw [Decodes] at h
      generalize hd : decodeFirst w = d at h
      cases h <;> simp [decodeBytes, layWords, hd]

/-! ### Encoded words decode -/

theorem decodes_one (hbase : base % 8 = 0 ∧ base < 256) (hm : m < 8)
    (h : decodeOp (base / 8) m rd rx = .ok (.one i)) : Decodes [firstWord (base + m) rd rx] i := by
  rw [Decodes, decodeFirst_firstWord_add hbase hm, h]; exact .one i

theorem decodes_two {f : Word → Instr} (hbase : base % 8 = 0 ∧ base < 256) (hm : m < 8)
    (h : decodeOp (base / 8) m rd rx = .ok (.two f)) (w : Word) : Decodes [firstWord (base + m) rd rx, w] (f w) := by
  rw [Decodes, decodeFirst_firstWord_add hbase hm, h]; exact .two f w

theorem decodes_encodeOperand {k : Operand → Instr} (hbase : base % 8 = 0 ∧ base < 256)
    (hk : ∀ m rx, decodeOp (base / 8) m rd rx = decodeOperand m rx k) (ea : Operand) :
    Decodes (encodeOperand base rd ea) (k ea) := by
  cases ea with
  | mem a =>
    cases a with
    | drct dsp => exact decodes_two hbase (by decide) (hk 0 0) dsp
    | index dsp rx => exact decodes_two hbase (by decide) (hk 1 (fieldOf rx)) dsp
    | fpRlt d4 => exact decodes_one hbase (by decide) (hk 3 d4)
    | indr rx => exact decodes_one hbase (by decide) (hk 6 (fieldOf rx))
    | bIndr rx => exact decodes_one hbase (by decide) (hk 7 (fieldOf rx))
  | imm w => exact decodes_two hbase (by decide) (hk 2 0) w
  | reg rs => exact decodes_one hbase (by decide) (hk 4 (fieldOf rs))
  | imm4 i4 => exact decodes_one hbase (by decide) (hk 5 i4)

/-- The group of `ST` has another instruction at mode 4 (30_encoding.md R71). -/
theorem decodes_encodeAddr {k : AddrMode → Instr} (hbase : base % 8 = 0 ∧ base < 256)
    (hk : ∀ m rx, m ≠ 4 → decodeOp (base / 8) m rd rx = decodeAddr m rx k) (ea : AddrMode) :
    Decodes (encodeAddr base rd ea) (k ea) := by
  cases ea with
  | drct dsp => exact decodes_two hbase (by decide) (hk 0 0 (by decide)) dsp
  | index dsp rx => exact decodes_two hbase (by decide) (hk 1 (fieldOf rx) (by decide)) dsp
  | fpRlt d4 => exact decodes_one hbase (by decide) (hk 3 d4 (by decide))
  | indr rx => exact decodes_one hbase (by decide) (hk 6 (fieldOf rx) (by decide))
  | bIndr rx => exact decodes_one hbase (by decide) (hk 7 (fieldOf rx) (by decide))

theorem decodes_encodeJump {k : JumpMode → Instr} (hbase : base % 8 = 0 ∧ base < 256)
    (hk : ∀ m rx, decodeOp (base / 8) m rd rx = decodeJump m rx k) (ea : JumpMode) :
    Decodes (encodeJump base rd ea) (k ea) := by
  cases ea with
  | drct dsp => exact decodes_two hbase (by decide) (hk 0 0) dsp
  | index dsp rx => exact decodes_two hbase (by decide) (hk 1 (fieldOf rx)) dsp
  | indr rx => exact decodes_one hbase (by decide) (hk 6 (fieldOf rx))

theorem decodes_encodeIo {k : IoMode → Instr} (hbase : base % 8 = 0 ∧ base < 256)
    (hk : ∀ m rx, decodeOp (base / 8) m rd rx = decodeIo m rx k) (ea : IoMode) :
    Decodes (encodeIo base rd ea) (k ea) := by
  cases ea with
  | drct dsp => exact decodes_two hbase (by decide) (hk 0 0) dsp
  | indr rx => exact decodes_one hbase (by decide) (hk 6 (fieldOf rx))
  | bIndr rx => exact decodes_one hbase (by decide) (hk 7 (fieldOf rx))

theorem decodePair_of_evenReg {k : Reg → Operand → Instr} (h : evenReg (regOf rd) = true) (m : Nat) (rx : BitVec 4) :
    decodePair m rd rx k = decodeOperand m rx (k (regOf rd)) := if_pos h

theorem decodeOp_call (m : Nat) (rx : BitVec 4) : decodeOp 0x15 m 0 rx = decodeJump m rx .call := by
  unfold decodeOp
  cases decodeJump m rx .call <;> rfl

theorem decodes_encode (h : i.wellFormed = true) : Decodes (encode i) i := by
  cases i with
  | ld | add | sub | cmp | and | or | xor | adds | mul | div | mod | shla | shll | shra | shrl =>
    exact decodes_encodeOperand (by decide) (fun _ _ => rfl) _
  | mull | divl => exact decodes_encodeOperand (by decide) (fun m rx => by exact decodePair_of_evenReg h m rx) _
  | st => exact decodes_encodeAddr (by decide) (fun _ _ hm => by exact if_neg hm) _
  | jz | jc | jm | jo | jgt | jge | jle | jlt | jnz | jnc | jnm | jno | jhi | jls | jmp =>
    exact decodes_encodeJump (by decide) (fun _ _ => rfl) _
  | call => exact decodes_encodeJump (by decide) decodeOp_call _
  | inp | out => exact decodes_encodeIo (by decide) (fun _ _ => rfl) _
  | no | ret | ei | svc | push => exact decodes_one (m := 0) (by decide) (by decide) rfl
  | ldFlag | pop | reti | di => exact decodes_one (m := 4) (by decide) (by decide) rfl
  | halt => exact decodes_one (m := 7) (by decide) (by decide) rfl

/-! ### Words that decode are encoded -/

/-- `i` is a well-formed instruction and `ws` are its words. -/
def IsEncoding (ws : List Word) (i : Instr) : Prop := i.wellFormed = true ∧ encode i = ws

theorem isEncoding_of_ifZero {j : Instr} (hj : IsEncoding [firstWord op rd 0] j)
    (h : Reads (ifZero rx (.ok (.one j))) ws i) : IsEncoding (firstWord op rd rx :: ws) i := by
  obtain ⟨rfl, h⟩ := reads_ifZero.1 h
  cases h
  exact hj

theorem isEncoding_of_decodeBare {j : Instr} (hj : IsEncoding [firstWord op 0 0] j)
    (h : Reads (decodeBare rd rx j) ws i) : IsEncoding (firstWord op rd rx :: ws) i := by
  obtain ⟨rfl, h⟩ := reads_ifZero.1 h
  exact isEncoding_of_ifZero hj h

theorem isEncoding_of_ifZero_two {f : Word → Instr} (hf : ∀ w, IsEncoding [firstWord op rd 0, w] (f w))
    (h : Reads (ifZero rx (.ok (.two f))) ws i) : IsEncoding (firstWord op rd rx :: ws) i := by
  obtain ⟨rfl, h⟩ := reads_ifZero.1 h
  cases h
  exact hf _

theorem isEncoding_of_decodeOperand {k : Operand → Instr} (hk : ∀ ea, IsEncoding (encodeOperand base rd ea) (k ea))
    (h : Reads (decodeOperand m rx k) ws i) : IsEncoding (firstWord (base + m) rd rx :: ws) i := by
  unfold decodeOperand at h
  split at h
  · exact isEncoding_of_ifZero_two (fun w => hk (.mem (.drct w))) h
  · cases h; exact hk (.mem (.index _ (regOf rx)))
  · exact isEncoding_of_ifZero_two (fun w => hk (.imm w)) h
  · cases h; exact hk (.mem (.fpRlt rx))
  · cases h; exact hk (.reg (regOf rx))
  · cases h; exact hk (.imm4 rx)
  · cases h; exact hk (.mem (.indr (regOf rx)))
  · cases h; exact hk (.mem (.bIndr (regOf rx)))
  · cases h

theorem isEncoding_of_decodeAddr {k : AddrMode → Instr} (hk : ∀ ea, IsEncoding (encodeAddr base rd ea) (k ea))
    (h : Reads (decodeAddr m rx k) ws i) : IsEncoding (firstWord (base + m) rd rx :: ws) i := by
  unfold decodeAddr at h
  split at h
  · exact isEncoding_of_ifZero_two (fun w => hk (.drct w)) h
  · cases h; exact hk (.index _ (regOf rx))
  · cases h; exact hk (.fpRlt rx)
  · cases h; exact hk (.indr (regOf rx))
  · cases h; exact hk (.bIndr (regOf rx))
  · cases h

theorem isEncoding_of_decodeJump {k : JumpMode → Instr} (hk : ∀ ea, IsEncoding (encodeJump base rd ea) (k ea))
    (h : Reads (decodeJump m rx k) ws i) : IsEncoding (firstWord (base + m) rd rx :: ws) i := by
  unfold decodeJump at h
  split at h
  · exact isEncoding_of_ifZero_two (fun w => hk (.drct w)) h
  · cases h; exact hk (.index _ (regOf rx))
  · cases h; exact hk (.indr (regOf rx))
  · cases h

theorem isEncoding_of_decodeIo {k : IoMode → Instr} (hk : ∀ ea, IsEncoding (encodeIo base rd ea) (k ea))
    (h : Reads (decodeIo m rx k) ws i) : IsEncoding (firstWord (base + m) rd rx :: ws) i := by
  unfold decodeIo at h
  split at h
  · exact isEncoding_of_ifZero_two (fun w => hk (.drct w)) h
  · cases h; exact hk (.indr (regOf rx))
  · cases h; exact hk (.bIndr (regOf rx))
  · cases h

theorem isEncoding_of_decodePair {k : Reg → Operand → Instr}
    (hk : ∀ ea, evenReg (regOf rd) = true → IsEncoding (encodeOperand base rd ea) (k (regOf rd) ea))
    (h : Reads (decodePair m rd rx k) ws i) : IsEncoding (firstWord (base + m) rd rx :: ws) i :=
  have ⟨heven, h⟩ := evenReg_of_decodePair h
  isEncoding_of_decodeOperand (fun ea => hk ea heven) h

/-- The decoder's condition numbers are those of the encoder (30_encoding.md R67). -/
theorem isEncoding_of_jumpOf {k : JumpMode → Instr} (h : jumpOf rd.toNat = some k) (ea : JumpMode) :
    IsEncoding (encodeJump 0xA0 rd ea) (k ea) := by
  generalize hcc : rd.toNat = cc at h
  have hrd : rd = BitVec.ofNat 4 cc := by rw [← hcc, BitVec.ofNat_toNat, BitVec.setWidth_eq]
  unfold jumpOf at h
  split at h <;> cases h <;> exact hrd ▸ ⟨rfl, rfl⟩

theorem isEncoding_of_decodeCondJump (h : Reads (decodeCondJump m rd rx) ws i) :
    IsEncoding (firstWord (0xA0 + m) rd rx :: ws) i :=
  have ⟨_, hk, h⟩ := jumpOf_of_decodeCondJump h
  isEncoding_of_decodeJump (isEncoding_of_jumpOf hk) h

/-- Every group of the opcode map reads only what the encoder writes (30_encoding.md R66). The cases are the
branches of `decodeOp`, gathered by the form they decode. -/
theorem isEncoding_of_decodeOp (h : Reads (decodeOp g m rd rx) ws i) :
    IsEncoding (firstWord (8 * g + m) rd rx :: ws) i := by
  unfold decodeOp at h
  split at h
  case h_2 | h_4 | h_5 | h_6 | h_7 | h_8 | h_9 | h_10 | h_11 | h_12 | h_13 | h_16 | h_17 | h_18 | h_19 =>
    exact isEncoding_of_decodeOperand (fun _ => ⟨rfl, rfl⟩) h
  case h_3 =>
    split at h
    · next hm => subst hm; exact isEncoding_of_ifZero ⟨rfl, rfl⟩ h
    · exact isEncoding_of_decodeAddr (fun _ => ⟨rfl, rfl⟩) h
  case h_14 | h_15 => exact isEncoding_of_decodePair (fun _ heven => by exact ⟨heven, rfl⟩) h
  case h_20 => exact isEncoding_of_decodeCondJump h
  case h_21 =>
    obtain ⟨rfl, hjump⟩ := rd_eq_zero_of_call h
    exact isEncoding_of_decodeJump (fun _ => ⟨rfl, rfl⟩) hjump
  case h_22 | h_23 => exact isEncoding_of_decodeIo (fun _ => ⟨rfl, rfl⟩) h
  case h_24 =>
    obtain ⟨rfl, h⟩ | ⟨rfl, h⟩ := reads_zero_or_four h
    · exact isEncoding_of_ifZero ⟨rfl, rfl⟩ h
    · exact isEncoding_of_ifZero ⟨rfl, rfl⟩ h
  case h_25 | h_26 =>
    obtain ⟨rfl, h⟩ | ⟨rfl, h⟩ := reads_zero_or_four h
    · exact isEncoding_of_decodeBare ⟨rfl, rfl⟩ h
    · exact isEncoding_of_decodeBare ⟨rfl, rfl⟩ h
  case h_1 | h_27 | h_28 =>
    obtain ⟨rfl, h⟩ := reads_ite_error.1 h
    exact isEncoding_of_decodeBare ⟨rfl, rfl⟩ h
  case h_29 => cases h

/-- The words that decode are exactly the encodings of the well-formed instructions. -/
theorem decodes_iff : Decodes ws i ↔ IsEncoding ws i := by
  constructor
  · intro h
    match ws, h with
    | w :: tl, h =>
      have henc := isEncoding_of_decodeOp h
      rwa [Nat.div_add_mod, firstWord_fields] at henc
  · rintro ⟨hwf, rfl⟩
    exact decodes_encode hwf

/-! ### The statements -/

/-- Settles O2: the words of a well-formed instruction decode, and the byte decoder takes no more than these. -/
theorem encodedInstructionDecodes : Obligations.EncodedInstructionDecodes := fun _ i _ hwf =>
  decodeBytes_eq_ok.2 ⟨encode i, decodes_iff.2 ⟨hwf, rfl⟩, rfl⟩

/-- Settles O3: the words the byte decoder took decode, so they are an encoding. -/
theorem decodedBytesReencode : Obligations.DecodedBytesReencode := by
  intro o bs i rest h
  obtain ⟨ws, hdecodes, rfl⟩ := decodeBytes_eq_ok.1 h
  obtain ⟨hwf, rfl⟩ := decodes_iff.1 hdecodes
  exact ⟨hwf, rfl⟩

/-- Settles O1: the words of each line are its instruction's encoding, so they decode. -/
theorem workedEncodingsDecode : Obligations.WorkedEncodingsDecode := by
  intro o p hp
  have henc : IsEncoding p.1 p.2 := by
    unfold IsEncoding
    revert p
    decide
  exact decodeBytes_eq_ok.2 ⟨p.1, decodes_iff.2 henc, (List.append_nil _).symm⟩

end Sys2Proof
end

section
/-! The encodings that are rejected (statements O4 and O5). A first word from which no instruction is read is
rejected, so each list of 30_encoding.md is a fact about the words from which one is: `KeepsZeros` says what the lists
of R69 and R68 ask of the fields, and every group of the opcode map is shown to keep it. -/

namespace Sys2Proof.Machine

variable {w : Word} {ws : List Word} {i : Instr} {rd rx : BitVec 4} {g m op base : Nat}

/-- A decoder that accepts a first word reads some instruction from it. -/
theorem exists_reads (d : Decoded) : ∃ ws i, Reads (.ok d) ws i :=
  match d with
  | .one i => ⟨[], i, .one i⟩
  | .two f => ⟨[0], f 0, .two f 0⟩

theorem rejected_of_not_reads {x : Except Reject Decoded} (h : ∀ ws i, ¬ Reads x ws i) : ∃ e, x = .error e :=
  match x with
  | .error e => ⟨e, rfl⟩
  | .ok d => have ⟨ws, i, hr⟩ := exists_reads d; absurd hr (h ws i)

/-! ### The modes of a table, and those with a field printed `0h` -/

theorem modes_of_decodeOperand {k : Operand → Instr} (h : Reads (decodeOperand m rx k) ws i) :
    m ∈ [0, 1, 2, 3, 4, 5, 6, 7] ∧ (m ∈ [0, 2] → rx = 0) := by
  unfold decodeOperand at h
  split at h <;> simp_all

theorem modes_of_decodeAddr {k : AddrMode → Instr} (h : Reads (decodeAddr m rx k) ws i) :
    m ∈ [0, 1, 3, 6, 7] ∧ (m ∈ [0] → rx = 0) := by
  unfold decodeAddr at h
  split at h <;> simp_all

theorem modes_of_decodeJump {k : JumpMode → Instr} (h : Reads (decodeJump m rx k) ws i) :
    m ∈ [0, 1, 6] ∧ (m ∈ [0] → rx = 0) := by
  unfold decodeJump at h
  split at h <;> simp_all

theorem modes_of_decodeIo {k : IoMode → Instr} (h : Reads (decodeIo m rx k) ws i) :
    m ∈ [0, 6, 7] ∧ (m ∈ [0] → rx = 0) := by
  unfold decodeIo at h
  split at h <;> simp_all

/-! ### The fields of a word that decodes -/

/-- What the lists of 30_encoding.md R69 and R68 ask of a first word's fields. -/
structure KeepsZeros (op : Nat) (rd rx : BitVec 4) : Prop where
  notReserved : op ∉ reservedOps
  rx_eq_zero : op ∈ rxZeroOps → rx = 0
  rd_eq_zero : op ∈ rdZeroOps → rd = 0

/-- One form of instruction, with its zero in `Rx`. -/
theorem KeepsZeros.of_rx_eq_zero (hres : op ∉ reservedOps) (hrx : rx = 0) (hrd : op ∉ rdZeroOps ∨ rd = 0) :
    KeepsZeros op rd rx :=
  ⟨hres, fun _ => hrx, fun hop => hrd.resolve_left fun hno => hno hop⟩

theorem KeepsZeros.of_decodeBare {j : Instr} (hres : op ∉ reservedOps) (h : Reads (decodeBare rd rx j) ws i) :
    KeepsZeros op rd rx :=
  have ⟨hrd, h⟩ := reads_ifZero.1 h
  .of_rx_eq_zero hres (reads_ifZero.1 h).1 (.inr hrd)

/-- A mode table that has the group's modes that are not reserved, and a zero where the list of R68 has one. -/
theorem KeepsZeros.of_modes {modes zeros : List Nat} (h : m ∈ modes ∧ (m ∈ zeros → rx = 0))
    (table : ∀ m ∈ modes, base + m ∉ reservedOps ∧ (base + m ∈ rxZeroOps → m ∈ zeros))
    (hrd : (∀ m ∈ modes, base + m ∉ rdZeroOps) ∨ rd = 0) : KeepsZeros (base + m) rd rx :=
  have ⟨hm, hzero⟩ := h
  have ⟨hres, hrx⟩ := table m hm
  ⟨hres, fun hop => hzero (hrx hop), fun hop => hrd.resolve_left fun hno => hno m hm hop⟩

/-- Every group of the opcode map keeps what the lists ask. The cases are the branches of `decodeOp`, gathered by the
form they decode. -/
theorem KeepsZeros.of_decodeOp (h : Reads (decodeOp g m rd rx) ws i) : KeepsZeros (8 * g + m) rd rx := by
  unfold decodeOp at h
  split at h
  case h_2 | h_4 | h_5 | h_6 | h_7 | h_8 | h_9 | h_10 | h_11 | h_12 | h_13 | h_16 | h_17 | h_18 | h_19 =>
    exact .of_modes (modes_of_decodeOperand h) (by decide) (.inl (by decide))
  case h_3 =>
    split at h
    · next hm => subst hm; exact .of_rx_eq_zero (by decide) (reads_ifZero.1 h).1 (.inl (by decide))
    · exact .of_modes (modes_of_decodeAddr h) (by decide) (.inl (by decide))
  case h_14 | h_15 =>
    exact .of_modes (modes_of_decodeOperand (evenReg_of_decodePair h).2) (by decide) (.inl (by decide))
  case h_20 =>
    obtain ⟨_, -, hjump⟩ := jumpOf_of_decodeCondJump h
    exact .of_modes (modes_of_decodeJump hjump) (by decide) (.inl (by decide))
  case h_21 =>
    obtain ⟨hrd, hjump⟩ := rd_eq_zero_of_call h
    exact .of_modes (modes_of_decodeJump hjump) (by decide) (.inr hrd)
  case h_22 | h_23 => exact .of_modes (modes_of_decodeIo h) (by decide) (.inl (by decide))
  case h_24 =>
    obtain ⟨rfl, h⟩ | ⟨rfl, h⟩ := reads_zero_or_four h
    · exact .of_rx_eq_zero (by decide) (reads_ifZero.1 h).1 (.inl (by decide))
    · exact .of_rx_eq_zero (by decide) (reads_ifZero.1 h).1 (.inl (by decide))
  case h_25 | h_26 =>
    obtain ⟨rfl, h⟩ | ⟨rfl, h⟩ := reads_zero_or_four h
    · exact .of_decodeBare (by decide) h
    · exact .of_decodeBare (by decide) h
  case h_1 | h_27 | h_28 =>
    obtain ⟨rfl, h⟩ := reads_ite_error.1 h
    exact .of_decodeBare (by decide) h
  case h_29 => cases h

theorem KeepsZeros.of_decodeFirst (h : Reads (decodeFirst w) ws i) :
    KeepsZeros (opField w).toNat (rdField w) (rxField w) :=
  Nat.div_add_mod (opField w).toNat 8 ▸ KeepsZeros.of_decodeOp h

/-- With zeros in the other fields, every `OP` value that is not reserved is accepted. -/
theorem decodeOp_zero_isOk : ∀ g < 32, ∀ m < 8, 8 * g + m ∉ reservedOps → (decodeOp g m 0 0).isOk = true := by
  decide

/-! ### Jump condition Dh and odd pairs (30_encoding.md R69) -/

theorem not_reads_of_condition_D (hop : (opField w).toNat ∈ jumpOps) (hrd : rdField w = 0xD#4) :
    ¬ Reads (decodeFirst w) ws i := by
  intro h
  have hjump : ∀ op ∈ jumpOps, op / 8 = 0x14 := by decide
  rw [decodeFirst, hjump _ hop, hrd] at h
  obtain ⟨k, hk, -⟩ := jumpOf_of_decodeCondJump (m := (opField w).toNat % 8) (rd := 0xD#4) (rx := rxField w) h
  cases hk

theorem not_reads_of_odd_pair (hlo : 0x68 ≤ (opField w).toNat) (hhi : (opField w).toNat ≤ 0x77)
    (hodd : (rdField w).toNat % 2 = 1) : ¬ Reads (decodeFirst w) ws i := by
  intro h
  have heven : evenReg (regOf (rdField w)) = true := by
    obtain hg | hg : (opField w).toNat / 8 = 0x0D ∨ (opField w).toNat / 8 = 0x0E := by omega
    all_goals rw [decodeFirst, hg] at h; exact (evenReg_of_decodePair h).1
  have hzero : (rdField w).toNat % 2 = 0 := by simpa [evenReg, regOf] using heven
  omega

/-! ### The statements -/

/-- Settles O4: no instruction is read from a listed `OP` value, and any other is accepted with zeros after it. -/
theorem reservedOpValuesRejected : Obligations.ReservedOpValuesRejected := by
  refine ⟨rfl, fun op => ⟨?_, fun h => ?_⟩, fun w hop hrd => ?_, fun w hlo hhi hodd => ?_⟩
  · rintro hop w rfl
    exact rejected_of_not_reads fun _ _ h => (KeepsZeros.of_decodeFirst h).notReserved hop
  · by_contra hop
    have hok := decodeOp_zero_isOk (op.toNat / 8) (by omega) (op.toNat % 8) (by omega) (by rwa [Nat.div_add_mod])
    obtain ⟨e, he⟩ := h (firstWord op.toNat 0 0) (by simp [opField_firstWord])
    rw [decodeFirst_firstWord op.isLt] at he
    rw [he] at hok
    cases hok
  · exact rejected_of_not_reads fun _ _ => not_reads_of_condition_D hop hrd
  · exact rejected_of_not_reads fun _ _ => not_reads_of_odd_pair hlo hhi hodd

/-- Settles O5: a word from which an instruction is read has zeros in the listed fields. -/
theorem nonzeroFixedFieldRejected : Obligations.NonzeroFixedFieldRejected := by
  refine fun w => ⟨fun hop hrx => ?_, fun hop hrd => ?_⟩
  · exact rejected_of_not_reads fun _ _ h => hrx ((KeepsZeros.of_decodeFirst h).rx_eq_zero hop)
  · exact rejected_of_not_reads fun _ _ h => hrd ((KeepsZeros.of_decodeFirst h).rd_eq_zero hop)

end Sys2Proof.Machine
end

section
/-! The values of operands and the step on a reserved encoding (statements O13 and O59). -/

namespace Sys2Proof.Machine

variable {s : State}

/-! ### The mode functions (30_encoding.md R63) -/

theorem eaddr_index (s : State) (dsp : Word) (rx : Reg) :
    eaddr s (.index dsp rx) = BitVec.ofNat 16 (dsp.toNat + s.regs[rx].toNat) := by
  simp [eaddr, State.reg, BitVec.ofNat_add]

/-- The displacement of mode 3 counts words, signed (R57). -/
theorem eaddr_fpRlt (s : State) (d4 : BitVec 4) :
    eaddr s (.fpRlt d4) = BitVec.ofInt 16 (2 * d4.toInt + s.regs[s.cfg.fpIdx].toNat) := by
  simp [eaddr, State.fp, State.reg, sext4, BitVec.signExtend, BitVec.ofInt_add, BitVec.ofInt_mul]

theorem opval_bIndr (s : State) (rx : Reg) : opval s (.mem (.bIndr rx)) =
    andThen (readByte s s.regs[rx]) fun b => .next (ext8 s.cfg b) := rfl

/-- Settles O13: the two computed addresses as integers, and the byte of mode 7 under each `BYTE_EXT`; the other modes
are their definitions. -/
theorem operandValues : Obligations.OperandValues := by
  intro s
  refine ⟨fun _ => rfl, eaddr_index s, eaddr_fpRlt s, fun _ => ⟨rfl, rfl⟩, fun _ => rfl,
    fun dsp rx => congrArg (readWord s) (eaddr_index s dsp rx), fun _ => rfl,
    fun d4 => congrArg (readWord s) (eaddr_fpRlt s d4), fun _ => rfl, fun _ => rfl, fun _ => rfl, ?_, fun rx hr => ?_⟩
  · rintro rx hr _ rfl
    rw [opval_bIndr, readByte_of_readable hr, andThen_next]
    exact ⟨fun hext => by simp [ext8, hext], fun hext => by simp [ext8, hext, BitVec.signExtend]⟩
  · rw [opval_bIndr, readByte_of_not_readable hr, andThen_fault]

/-! ### A reserved encoding (30_encoding.md R70) -/

theorem readWord_passBoundary (s : State) (a : Word) : readWord s.passBoundary a = readWord s a :=
  readWord_congr rfl rfl

theorem step_of_running (hrun : s.halted = false) (hreq : accepted s = none) :
    step s = fetchThen s.passBoundary exec := by
  simp [step, boundary, hrun, hreq]

theorem fetch_of_reserved {w1 : Word} {e : Reject} (h1 : readWord s s.pc = .next w1)
    (hd : decodeFirst w1 = .error e) : fetch s = .refused .reservedEncoding := by
  simp [fetch, h1, hd]

theorem fetchThen_of_reserved {run : Instr → State → Res State} (h : fetch s = .refused .reservedEncoding) :
    fetchThen s run = illegalEncoding s := by
  simp [fetchThen, h]

theorem illegalEncoding_of_refuse (hc : s.cfg.illegal = .refuse) :
    illegalEncoding s = .refused .reservedEncoding := by
  simp [illegalEncoding, hc]

theorem illegalEncoding_of_trap {h : Handler} {k : SavedPc} (hc : s.cfg.illegal = .trap h k) :
    illegalEncoding s = trapEntry h (s.setPc (savedPcOf k s.pc)) := by
  simp [illegalEncoding, hc]

/-- Settles O59: past the boundary the fetch finds the reserved encoding, and `ILLEGAL` says what follows. -/
theorem reservedEncodingByParameter : Obligations.ReservedEncodingByParameter := by
  intro s w1 e hrun hreq h1 hd
  have hfetch : fetch s.passBoundary = .refused .reservedEncoding :=
    fetch_of_reserved ((readWord_passBoundary s s.pc).trans h1) hd
  rw [step_of_running hrun hreq, fetchThen_of_reserved hfetch]
  exact ⟨illegalEncoding_of_refuse (s := s.passBoundary), fun _ => illegalEncoding_of_trap (s := s.passBoundary),
    fun _ => illegalEncoding_of_trap (s := s.passBoundary)⟩

end Sys2Proof.Machine
end

section
/-! No operation, load, store, interrupt enable and halt (statements O15 to O18). What unpacking reads from the `FLAG`
word of a state; which memory access a store makes in each mode. -/

namespace Sys2Proof.Machine

/-! ### The parts of a state's `FLAG` word (10_state.md R17) -/

theorem unpackFlags_flagWord (s : State) : unpackFlags s.cfg.flagLayout s.flagWord = s.flags := by
  rw [unpackFlags_eq_flagsAt, State.flagWord, decodeFlag_flagPack, flagsAt_placeFlags]

theorem unpackIe_flagWord (s : State) : unpackIe s.cfg.flagLayout s.flagWord s.ie = s.ie := by
  rw [unpackIe_eq_ieAt, State.flagWord, decodeFlag_flagPack, ieAt_placeFlags, ite_self]

theorem unpackRest_flagWord (s : State) :
    unpackRest s.cfg.flagLayout s.flagWord = restOf s.cfg.flagLayout s.flagRest := by
  rw [unpackRest_eq_restOf, State.flagWord, decodeFlag_flagPack, restOf_placeFlags]

theorem unpackIe_of_ie_eq_some {l : FlagLayout} {i : Fin 16} (hi : l.ie = some i) (w : Word) (old : Bool) :
    unpackIe l w old = (decodeFlag l w).getLsbD i := by
  simp [unpackIe, hi]

/-! ### The access a store makes (40_nop_load_store.md R83) -/

/-- Every mode but 7 stores a word. -/
theorem writeAt_of_ne_bIndr (s : State) {a : AddrMode} (ha : ∀ r, a ≠ .bIndr r) (v : Word) :
    writeAt s a v = writeWord s (eaddr s a) v := by
  cases a with
  | bIndr r => exact absurd rfl (ha r)
  | drct | index | fpRlt | indr => rfl

/-- Mode 7 stores the low byte. -/
theorem writeAt_bIndr (s : State) (rx : Reg) (v : Word) :
    writeAt s (.bIndr rx) v = writeByte s s.regs[rx] (v.extractLsb' 0 8) := by
  rw [← BitVec.setWidth_eq_extractLsb' (by decide)]
  rfl

/-! ### The statements -/

/-- Settles O17: `FLAG_LAYOUT`'s own unpacking reads each part of the state back from the word `LD` writes. -/
theorem loadFlagWritesFlagWord : Obligations.LoadFlagWritesFlagWord := by
  intro s rd
  have hflags := unpackFlags_flagWord s
  refine ⟨s.flagWord, decodeFlag s.cfg.flagLayout s.flagWord, rfl, rfl, fun hcode => decodeFlag_of_code_nil hcode _,
    congrArg Flags.z hflags, congrArg Flags.c hflags, congrArg Flags.s hflags, congrArg Flags.v hflags,
    fun i hi => ?_, fun ⟨_, hrest⟩ => ?_⟩
  · rw [← unpackIe_of_ie_eq_some hi _ s.ie, unpackIe_flagWord]
  · rw [← unpackRest_eq_restOf, unpackRest_flagWord, hrest]

/-- Settles O18: the store is one word access, or one byte access in mode 7, and the laws of memory say what that
access reads back and leaves alone. -/
theorem storeWritesRegister : Obligations.StoreWritesRegister := by
  intro s rd rx a hwf
  constructor
  · intro hmode haligned hwritable
    have hst : exec (.st rd a) s = .next (s.setMem (storeWord s.cfg s.mem (eaddr s a) s.regs[rd])) :=
      (writeAt_of_ne_bIndr s hmode _).trans (writeWord_eq_next.2 ⟨haligned, hwritable, rfl⟩)
    exact ⟨_, hst, loadWord_storeWord hwf _ _, fun k h0 h1 => memGet_storeWord_ne h0 h1 _ _⟩
  · intro hwritable
    have hst : exec (.st rd (.bIndr rx)) s =
        .next (s.setMem (memSet s.mem s.regs[rx].toNat (s.regs[rd].extractLsb' 0 8))) :=
      (writeAt_bIndr s rx _).trans (writeByte_of_writable hwritable _)
    exact ⟨_, hst, memGet_memSet_same (memory_wf_pairwise hwf) _ _, fun k hk => memGet_memSet_ne hk _ _⟩

/-- Settles O15: the four meanings are these updates. -/
theorem noEiDiHaltComplete : Obligations.NoEiDiHaltComplete := fun _ => ⟨rfl, rfl, rfl, rfl⟩

/-- Settles O16: once the operand is there, the load is one register write. -/
theorem loadWritesOperand : Obligations.LoadWritesOperand := by
  intro s rd ea v hv
  have hld : exec (.ld rd ea) s = andThen (opval s ea) fun v => .next (s.setReg rd v) := rfl
  rw [hld, hv, andThen_next]
  rfl

end Sys2Proof.Machine
end

section
/-! Arithmetic and logic (statements O19 to O22). The model's signed overflow, a comparison of sign bits, is the signed
result outside the 16-bit range; what each instruction answers once its operand is there. -/

namespace Sys2Proof.Machine

variable {s : State} {ea : Operand} {b : Word}

/-! ### `Z`, `S` and `V` as facts about numbers (10_state.md R18, 41_arithmetic_logic.md R97) -/

theorem word_beq_zero (r : Word) : (r == 0#16) = decide (r.toNat = 0) := by
  rw [beq_eq_decide, decide_eq_decide, ← BitVec.toNat_inj, BitVec.toNat_ofNat, Nat.zero_mod]

/-- The sum overflows when the operands have one sign and the result the other. -/
theorem add16Flags_v (a b : Word) : (add16Flags a b).v =
    decide (a.toInt + b.toInt < -32768 ∨ 32767 < a.toInt + b.toInt) := by
  have hsigns : (add16Flags a b).v = a.saddOverflow b := (BitVec.saddOverflow_eq a b).symm
  rw [hsigns, BitVec.saddOverflow, ← Bool.decide_or, decide_eq_decide]
  omega

/-- The difference overflows when the operands' signs differ and the result has not the minuend's. -/
theorem sub16Flags_v (a b : Word) : (sub16Flags a b).v =
    decide (a.toInt - b.toInt < -32768 ∨ 32767 < a.toInt - b.toInt) := by
  have hsigns : (sub16Flags a b).v = a.ssubOverflow b := by
    rw [sub16Flags, BitVec.ssubOverflow_eq]
    cases a.msb <;> cases b.msb <;> simp
  rw [hsigns, BitVec.ssubOverflow, ← Bool.decide_or, decide_eq_decide]
  omega

theorem add16Flags_eq (a b : Word) : add16Flags a b =
    ⟨decide ((add16 a b).toNat = 0), decide (2 ^ 16 ≤ a.toNat + b.toNat), (add16 a b).getLsbD 15,
      decide (a.toInt + b.toInt < -32768 ∨ 32767 < a.toInt + b.toInt)⟩ := by
  rw [← add16Flags_v, ← word_beq_zero]
  exact congrArg (Flags.mk _ _ · _) (BitVec.msb_eq_getLsbD_last _)

theorem sub16Flags_eq (a b : Word) : sub16Flags a b =
    ⟨decide ((sub16 a b).toNat = 0), decide (a.toNat < b.toNat), (sub16 a b).getLsbD 15,
      decide (a.toInt - b.toInt < -32768 ∨ 32767 < a.toInt - b.toInt)⟩ := by
  rw [← sub16Flags_v, ← word_beq_zero]
  exact congrArg (Flags.mk _ _ · _) (BitVec.msb_eq_getLsbD_last _)

/-! ### The results modulo 2^16 -/

theorem add16_eq_ofNat (a b : Word) : add16 a b = BitVec.ofNat 16 (a.toNat + b.toNat) := by
  simp [add16, BitVec.ofNat_add]

theorem sub16_eq_ofInt (a b : Word) : sub16 a b = BitVec.ofInt 16 ((a.toNat : Int) - b.toNat) := by
  have hadd : BitVec.ofInt 16 ((a.toNat : Int) - b.toNat) + BitVec.ofInt 16 b.toNat = BitVec.ofInt 16 a.toNat := by
    rw [← BitVec.ofInt_add, Int.sub_add_cancel]
  exact BitVec.sub_eq_iff_eq_add.2 (by simpa using hadd.symm)

theorem add_two_mul_eq_ofNat (a b : Word) : a + 2#16 * b = BitVec.ofNat 16 (a.toNat + 2 * b.toNat) := by
  simp [BitVec.ofNat_add, BitVec.ofNat_mul]

/-! ### What the instructions answer where the operand is there -/

theorem andThen_of_eq_next {α β : Type} {x : Res α} {a : α} (h : x = .next a) (f : α → Res β) : andThen x f = f a := by
  rw [h, andThen_next]

theorem exec_add_of_opval (rd : Reg) (h : opval s ea = .next b) : exec (.add rd ea) s =
    .next ((s.setReg rd (add16 (s.reg rd) b)).setFlags (add16Flags (s.reg rd) b)) :=
  andThen_of_eq_next h _

theorem exec_sub_of_opval (rd : Reg) (h : opval s ea = .next b) : exec (.sub rd ea) s =
    .next ((s.setReg rd (sub16 (s.reg rd) b)).setFlags (sub16Flags (s.reg rd) b)) :=
  andThen_of_eq_next h _

theorem exec_cmp_of_opval (rd : Reg) (h : opval s ea = .next b) : exec (.cmp rd ea) s =
    .next (s.setFlags (sub16Flags (s.reg rd) b)) :=
  andThen_of_eq_next h _

/-- `Z` and `S` are the result's; `C` and `V` are the next two draws (R93 to R96). -/
theorem setResultFlags_eq (s : State) (r : Word) : s.setResultFlags r =
    { s with
      flags := ⟨decide (r.toNat = 0), Config.freeBit s.draws, r.getLsbD 15, Config.freeBit (s.draws + 1)⟩
      draws := s.draws + 2 } := by
  rw [State.setResultFlags, word_beq_zero, BitVec.msb_eq_getLsbD_last]

/-- What the three logical instructions and `ADDS` share. -/
theorem logicOp_of_opval (f : Word → Word → Word) (rd : Reg) (h : opval s ea = .next b) :
    ∃ c v n, logicOp f rd ea s = .next { s with
      regs := s.regs.set rd (f (s.reg rd) b)
      flags := ⟨decide ((f (s.reg rd) b).toNat = 0), c, (f (s.reg rd) b).getLsbD 15, v⟩
      draws := n } :=
  ⟨_, _, _, (andThen_of_eq_next h _).trans (congrArg _ (setResultFlags_eq _ _))⟩

/-! ### The statements -/

/-- Settles O19: the result and the flags of `add16` are the ones stated. -/
theorem addSumAndFlags : Obligations.AddSumAndFlags := by
  rintro s rd ea _ b _ rfl hb rfl
  rw [exec_add_of_opval rd hb, add16Flags_eq, ← add16_eq_ofNat]
  rfl

/-- Settles O20: `SUB` and `CMP` set the flags of one subtraction, and only `SUB` keeps its result. -/
theorem subtractAndCompareFlags : Obligations.SubtractAndCompareFlags := by
  rintro s rd ea _ b _ _ rfl hb rfl rfl
  rw [exec_sub_of_opval rd hb, exec_cmp_of_opval rd hb, sub16Flags_eq, ← sub16_eq_ofInt]
  exact ⟨rfl, rfl⟩

/-- Settles O21: each of the three is `logicOp` of its bitwise operator. -/
theorem logicalResults : Obligations.LogicalResults := by
  rintro s rd ea _ b rfl hb p hp
  simp only [List.mem_cons, List.not_mem_nil, or_false] at hp
  obtain rfl | rfl | rfl := hp
  · exact logicOp_of_opval (fun a b => a &&& b) rd hb
  · exact logicOp_of_opval (fun a b => a ||| b) rd hb
  · exact logicOp_of_opval (fun a b => a ^^^ b) rd hb

/-- Settles O22: `ADDS` is `logicOp` of the sum with the doubled operand. -/
theorem scaledAddResult : Obligations.ScaledAddResult := by
  rintro s rd ea b _ hb rfl
  rw [← add_two_mul_eq_ofNat]
  exact logicOp_of_opval (fun a b => a + 2#16 * b) rd hb

end Sys2Proof.Machine
end

section
/-! Multiplication and division (statements O23 to O27 and O29 to O31). A division that has a result is `Divides`: the
quotient and the remainder of R116, as integers, with the quotient in range. What each instruction answers is said
once in those terms; a setting of `MULDIV_SIGNED`, or the zone where the setting does not matter, enters only through
the lemmas that give a `Divides`. -/

namespace Sys2Proof.Machine

variable {c : Config} {s : State} {rd hi : Reg} {ea : Operand} {i : Instr} {b : Word} {p q r : Int}

/-! ### The helper functions of R116 under each setting -/

theorem val16_of_unsigned (h : c.mulDivSigned = .unsigned) (v : Word) : val16 c v = v.toNat := by
  simp [val16, h]

theorem val16_of_signed (h : c.mulDivSigned ≠ .unsigned) (v : Word) : val16 c v = v.toInt := by
  cases hc : c.mulDivSigned <;> simp_all [val16]

theorem val32_of_unsigned (h : c.mulDivSigned = .unsigned) (n : BitVec 32) : val32 c n = n.toNat := by
  simp [val32, h]

theorem val32_of_signed (h : c.mulDivSigned ≠ .unsigned) (n : BitVec 32) : val32 c n = n.toInt := by
  cases hc : c.mulDivSigned <;> simp_all [val32]

theorem quotOf_of_signedTrunc (h : c.mulDivSigned = .signedTrunc) (p q : Int) : quotOf c p q = p.tdiv q := by
  simp [quotOf, h]

theorem quotOf_of_signedFloor (h : c.mulDivSigned = .signedFloor) (p q : Int) : quotOf c p q = p.fdiv q := by
  simp [quotOf, h]

/-- On natural numbers the quotient is the same under every setting. -/
theorem quotOf_natCast (c : Config) (m n : Nat) : quotOf c m n = ((m / n : Nat) : Int) := by
  cases h : c.mulDivSigned <;> simp only [quotOf, h]
  case signedFloor => exact (Int.ofNat_fdiv m n).symm
  all_goals exact (Int.ofNat_tdiv m n).symm

theorem fits16_iff_of_unsigned (h : c.mulDivSigned = .unsigned) (t : Int) :
    fits16 c t = true ↔ 0 ≤ t ∧ t < 65536 := by
  simp [fits16, h]

theorem fits16_iff_of_signed (h : c.mulDivSigned ≠ .unsigned) (t : Int) :
    fits16 c t = true ↔ -32768 ≤ t ∧ t ≤ 32767 := by
  rw [← Int.lt_add_one_iff (b := 32767)]
  cases hc : c.mulDivSigned <;> simp_all [fits16]

/-! In the agreement zone the values are the unsigned ones, and fit, under every setting. -/

theorem val16_of_lt (c : Config) {v : Word} (h : v.toNat < 0x8000) : val16 c v = v.toNat := by
  cases hc : c.mulDivSigned <;> simp only [val16, hc]
  all_goals exact BitVec.toInt_eq_toNat_of_lt (by omega)

theorem val32_of_lt (c : Config) {n : BitVec 32} (h : n.toNat < 0x80000000) : val32 c n = n.toNat := by
  cases hc : c.mulDivSigned <;> simp only [val32, hc]
  all_goals exact BitVec.toInt_eq_toNat_of_lt (by omega)

theorem fits16_natCast_of_lt (c : Config) {k : Nat} (h : k < 0x8000) : fits16 c k = true := by
  by_cases hc : c.mulDivSigned = .unsigned
  · exact (fits16_iff_of_unsigned hc k).2 (by omega)
  · exact (fits16_iff_of_signed hc k).2 (by omega)

/-! ### The size of a quotient -/

/-- A quotient of 16-bit numbers, with whatever rounding leaves a remainder smaller than the divisor, is a 16-bit
number, but for -32768 by -1. -/
theorem quotient_in_range (hp : -32768 ≤ p ∧ p ≤ 32767) {d : Int} (hdiv : q * d + r = p) (hr : |r| < |d|)
    (hne : ¬(p = -32768 ∧ d = -1)) : -32768 ≤ q ∧ q ≤ 32767 := by
  obtain ⟨hr₁, hr₂⟩ := abs_lt.1 hr
  rcases lt_trichotomy d 0 with hd | rfl | hd
  · rw [abs_of_neg hd] at hr₁ hr₂
    refine ⟨by nlinarith, not_lt.1 fun hq => hne ?_⟩
    have : -2 < d := by nlinarith
    exact ⟨by nlinarith, by omega⟩
  · simp at hr₁ hr₂; omega
  · rw [abs_of_pos hd] at hr₁ hr₂
    exact ⟨by nlinarith, by nlinarith⟩

theorem abs_tmod_lt (p : Int) {d : Int} (hd : d ≠ 0) : |p.tmod d| < |d| := by
  rw [Int.abs_eq_natAbs, Int.abs_eq_natAbs, Int.natAbs_tmod]
  exact_mod_cast Nat.mod_lt _ (Int.natAbs_pos.2 hd)

/-- Rounding down leaves a remainder with the divisor's sign; negating both numbers makes the divisor positive. -/
theorem abs_fmod_lt (p : Int) {d : Int} (hd : d ≠ 0) : |p.fmod d| < |d| := by
  rcases lt_or_gt_of_ne hd with hneg | hpos
  · have h₀ := Int.fmod_nonneg_of_pos (-p) (neg_pos.2 hneg)
    have h₁ := Int.fmod_lt_of_pos (-p) (neg_pos.2 hneg)
    rw [Int.neg_fmod_neg] at h₀ h₁
    rw [abs_of_neg hneg]
    exact abs_lt.2 ⟨by omega, by omega⟩
  · have h₀ := Int.fmod_nonneg_of_pos p hpos
    have h₁ := Int.fmod_lt_of_pos p hpos
    rw [abs_of_pos hpos]
    exact abs_lt.2 ⟨by omega, h₁⟩

theorem divisor_toInt_ne_zero (hb : b ≠ 0#16) : b.toInt ≠ 0 := BitVec.toInt_ne.2 hb

theorem divisor_toNat_pos (hb : b ≠ 0#16) : 0 < b.toNat := Nat.pos_of_ne_zero (BitVec.toNat_ne_iff_ne.2 hb)

/-- `quotient_in_range` for two words. -/
theorem word_quotient_in_range {a b : Word} (hdiv : q * b.toInt + r = a.toInt) (hr : |r| < |b.toInt|)
    (hne : ¬(a = 0x8000 ∧ b = 0xFFFF)) : -32768 ≤ q ∧ q ≤ 32767 := by
  have ha : -32768 ≤ a.toInt ∧ a.toInt ≤ 32767 := by
    have := a.le_toInt; have := a.toInt_lt; omega
  exact quotient_in_range ha hdiv hr fun ⟨h₁, h₂⟩ =>
    hne ⟨BitVec.eq_of_toInt_eq h₁, BitVec.eq_of_toInt_eq h₂⟩

/-- -32768 / -1 is 32768 with either rounding, which no signed setting has room for. -/
theorem not_fits16_min_div_neg_one (h : c.mulDivSigned ≠ .unsigned) :
    ¬ fits16 c (quotOf c (val16 c 0x8000) (val16 c 0xFFFF)) = true := by
  cases hc : c.mulDivSigned with
  | unsigned => exact absurd hc h
  | signedTrunc | signedFloor => simp only [fits16, quotOf, val16, hc]; decide

/-! ### A division that has a result (R111, R112, R114) -/

/-- The rules give `p` divided by `b` the quotient `q` and the remainder `r`. -/
structure Divides (c : Config) (p : Int) (b : Word) (q r : Int) : Prop where
  nonzero : b ≠ 0#16
  quot : quotOf c p (val16 c b) = q
  rem : remOf c p (val16 c b) = r
  fits : fits16 c q = true

/-- On natural numbers, under every setting that takes the divisor for one and has room for the quotient. -/
theorem Divides.of_natCast {n : Nat} (hb : b ≠ 0#16) (hval : val16 c b = b.toNat)
    (hfits : fits16 c (n / b.toNat : Nat) = true) :
    Divides c n b (n / b.toNat : Nat) (n % b.toNat : Nat) where
  nonzero := hb
  quot := by rw [hval, quotOf_natCast]
  rem := by
    rw [remOf, hval, quotOf_natCast, sub_eq_iff_eq_add, ← Nat.cast_mul, ← Nat.cast_add, Nat.mod_add_div']
  fits := hfits

theorem Divides.of_unsigned {n : Nat} (h : c.mulDivSigned = .unsigned) (hb : b ≠ 0#16)
    (hn : n / b.toNat < 65536) : Divides c n b (n / b.toNat : Nat) (n % b.toNat : Nat) :=
  .of_natCast hb (val16_of_unsigned h b) ((fits16_iff_of_unsigned h _).2 ⟨Int.natCast_nonneg _, mod_cast hn⟩)

/-- The agreement zone of R116. -/
theorem Divides.of_zone (c : Config) {n : Nat} (hb : b ≠ 0#16) (hlt : b.toNat < 0x8000)
    (hn : n / b.toNat < 0x8000) : Divides c n b (n / b.toNat : Nat) (n % b.toNat : Nat) :=
  .of_natCast hb (val16_of_lt c hlt) (fits16_natCast_of_lt c hn)

theorem Divides.of_signedTrunc (h : c.mulDivSigned = .signedTrunc) (hb : b ≠ 0#16)
    (hfits : -32768 ≤ p.tdiv b.toInt ∧ p.tdiv b.toInt ≤ 32767) :
    Divides c p b (p.tdiv b.toInt) (p.tmod b.toInt) where
  nonzero := hb
  quot := by rw [val16_of_signed (h.trans_ne nofun), quotOf_of_signedTrunc h]
  rem := by rw [remOf, val16_of_signed (h.trans_ne nofun), quotOf_of_signedTrunc h, Int.tmod_def, mul_comm]
  fits := (fits16_iff_of_signed (h.trans_ne nofun) _).2 hfits

theorem Divides.of_signedFloor (h : c.mulDivSigned = .signedFloor) (hb : b ≠ 0#16)
    (hfits : -32768 ≤ p.fdiv b.toInt ∧ p.fdiv b.toInt ≤ 32767) :
    Divides c p b (p.fdiv b.toInt) (p.fmod b.toInt) where
  nonzero := hb
  quot := by rw [val16_of_signed (h.trans_ne nofun), quotOf_of_signedFloor h]
  rem := by rw [remOf, val16_of_signed (h.trans_ne nofun), quotOf_of_signedFloor h, Int.fmod_def, mul_comm]
  fits := (fits16_iff_of_signed (h.trans_ne nofun) _).2 hfits

theorem divide_of_divides (h : Divides c p b q r) : divide c p b = .next (some q) := by
  obtain ⟨hb, rfl, -, hfits⟩ := h
  exact divide_eq_next.2 (.inl ⟨hb, hfits, rfl⟩)

theorem divide_zero_of_fault (h : c.divFault = .fault) (p : Int) : divide c p 0#16 = .fault .divideByZero := by
  simp [divide, h]

theorem divide_of_not_fits (h : c.divFault = .fault) (hb : b ≠ 0#16)
    (hfits : ¬ fits16 c (quotOf c p (val16 c b)) = true) : divide c p b = .fault .divideOverflow := by
  simp only [divide, if_neg hb, if_neg hfits, h]

/-! ### The register pair (10_state.md R14) -/

theorem highReg_eq (h : hi.val = rd.val + 1) : highReg rd = hi := by
  apply Fin.ext
  rw [highReg, Fin.val_add, h]
  exact Nat.mod_eq_of_lt (h ▸ hi.isLt)

theorem pairValue_eq (h : hi.val = rd.val + 1) (s : State) : pairValue s rd = s.regs[hi] ++ s.regs[rd] := by
  rw [pairValue, highReg_eq h]
  rfl

theorem toNat_append_words (hw lw : Word) : (hw ++ lw).toNat = hw.toNat * 65536 + lw.toNat := by
  rw [BitVec.toNat_append, ← Nat.shiftLeft_add_eq_or_of_lt lw.isLt, Nat.shiftLeft_eq]

/-- The unsigned quotient of a pair fits 16 bits exactly where the high half is below the divisor (R114). -/
theorem pair_div_lt_iff (hw lw : Word) (hb : b ≠ 0#16) :
    (hw ++ lw).toNat / b.toNat < 65536 ↔ hw.toNat < b.toNat := by
  have := lw.isLt
  rw [toNat_append_words, Nat.div_lt_iff_lt_mul (divisor_toNat_pos hb)]
  omega

theorem extractLsb'_ofNat_low (k : Nat) : (BitVec.ofNat 32 k).extractLsb' 0 16 = BitVec.ofNat 16 k :=
  BitVec.eq_of_toNat_eq (by simp)

theorem extractLsb'_ofNat_high (k : Nat) : (BitVec.ofNat 32 k).extractLsb' 16 16 = BitVec.ofNat 16 (k / 65536) :=
  BitVec.eq_of_toNat_eq (by simp [Nat.shiftRight_eq_div_pow]; omega)

/-- The two halves of a 32-bit number put together again. -/
theorem toNat_ofNat_halves {k : Nat} (h : k < 2 ^ 32) :
    (BitVec.ofNat 16 (k / 65536) ++ BitVec.ofNat 16 k).toNat = k := by
  rw [toNat_append_words, BitVec.toNat_ofNat, BitVec.toNat_ofNat]
  omega

/-- The registers of a pair after both are written. -/
theorem pair_set (regs : Vector Word 16) (hhi : hi.val = rd.val + 1) (hw lw : Word) :
    ((regs.set rd lw).set hi hw)[rd] = lw ∧ ((regs.set rd lw).set hi hw)[hi] = hw := by
  have hne : hi.val ≠ rd.val := by omega
  simp [hne]

/-! ### What the instructions answer -/

/-- `i` completes on `s` with the registers `regs` and flags that the rules leave open; nothing else changes. -/
def CompletesWith (i : Instr) (s : State) (regs : Vector Word 16) : Prop :=
  ∃ f n, exec i s = .next { s with regs := regs, flags := f, draws := n }

theorem CompletesWith.of_setReg {v : Word} (h : exec i s = .next (s.setReg rd v).drawFlags) :
    CompletesWith i s (s.regs.set rd v) := ⟨_, _, h⟩

theorem CompletesWith.of_setPair {hw lw : Word} (hhi : hi.val = rd.val + 1)
    (h : exec i s = .next (s.setPair rd hw lw).drawFlags) :
    CompletesWith i s ((s.regs.set rd lw).set hi hw) := by
  obtain rfl : highReg rd = hi := highReg_eq hhi
  exact ⟨_, _, h⟩

theorem exec_mul_of_opval (rd : Reg) (hb : opval s ea = .next b) :
    exec (.mul rd ea) s = .next (s.setReg rd (s.reg rd * b)).drawFlags :=
  andThen_of_eq_next hb _

theorem exec_mull_of_opval (heven : evenReg rd = true) (hb : opval s ea = .next b) :
    exec (.mull rd ea) s = .next (s.setPair rd ((longProduct s.cfg (s.reg rd) b).extractLsb' 16 16)
      ((longProduct s.cfg (s.reg rd) b).extractLsb' 0 16)).drawFlags :=
  (if_pos heven).trans (andThen_of_eq_next hb _)

theorem exec_div_of_opval (rd : Reg) (hb : opval s ea = .next b) :
    exec (.div rd ea) s = andThen (divide s.cfg (val16 s.cfg (s.reg rd)) b) fun q =>
      .next (s.setReg rd (quotientWord .div ((s.reg rd).setWidth 32) b q)).drawFlags :=
  andThen_of_eq_next hb _

theorem exec_mod_of_opval (rd : Reg) (hb : opval s ea = .next b) :
    exec (.mod rd ea) s = andThen (divide s.cfg (val16 s.cfg (s.reg rd)) b) fun q =>
      .next (s.setReg rd
        (remainderWord s.cfg .mod ((s.reg rd).setWidth 32) (val16 s.cfg (s.reg rd)) b q)).drawFlags :=
  andThen_of_eq_next hb _

theorem exec_divl_of_opval (heven : evenReg rd = true) (hb : opval s ea = .next b) :
    exec (.divl rd ea) s = andThen (divide s.cfg (val32 s.cfg (pairValue s rd)) b) fun q =>
      .next (s.setPair rd
        (remainderWord s.cfg .divlRemainder (pairValue s rd) (val32 s.cfg (pairValue s rd)) b q)
        (quotientWord .divlQuotient (pairValue s rd) b q)).drawFlags :=
  (if_pos heven).trans (andThen_of_eq_next hb _)

/-! Where the division has a result, the instruction completes with it. -/

theorem div_mod_completeWith (hb : opval s ea = .next b) (hp : val16 s.cfg s.regs[rd] = p)
    (h : Divides s.cfg p b q r) :
    CompletesWith (.div rd ea) s (s.regs.set rd (BitVec.ofInt 16 q)) ∧
      CompletesWith (.mod rd ea) s (s.regs.set rd (BitVec.ofInt 16 r)) := by
  subst hp
  rw [← h.rem]
  have hdiv := divide_of_divides h
  exact ⟨.of_setReg ((exec_div_of_opval rd hb).trans (andThen_of_eq_next hdiv _)),
    .of_setReg ((exec_mod_of_opval rd hb).trans (andThen_of_eq_next hdiv _))⟩

theorem divl_completesWith (heven : evenReg rd = true) (hhi : hi.val = rd.val + 1) (hb : opval s ea = .next b)
    (hp : val32 s.cfg (s.regs[hi] ++ s.regs[rd]) = p) (h : Divides s.cfg p b q r) :
    CompletesWith (.divl rd ea) s ((s.regs.set rd (BitVec.ofInt 16 q)).set hi (BitVec.ofInt 16 r)) := by
  subst hp
  rw [← pairValue_eq hhi] at h
  rw [← h.rem]
  exact .of_setPair hhi ((exec_divl_of_opval heven hb).trans (andThen_of_eq_next (divide_of_divides h) _))

/-! Where the division stops, so does the instruction. -/

theorem exec_div_mod_of_fault {e : Fault} (hb : opval s ea = .next b)
    (h : divide s.cfg (val16 s.cfg s.regs[rd]) b = .fault e) :
    exec (.div rd ea) s = .fault e ∧ exec (.mod rd ea) s = .fault e :=
  ⟨(exec_div_of_opval rd hb).trans (congrArg (andThen · _) h),
    (exec_mod_of_opval rd hb).trans (congrArg (andThen · _) h)⟩

theorem exec_divl_of_fault {e : Fault} (heven : evenReg rd = true) (hb : opval s ea = .next b)
    (h : divide s.cfg (val32 s.cfg (pairValue s rd)) b = .fault e) : exec (.divl rd ea) s = .fault e :=
  (exec_divl_of_opval heven hb).trans (congrArg (andThen · _) h)

/-! ### The statements -/

/-- Settles O24: a `Divides` for each setting; where it is signed, only -32768 by -1 is out of range. -/
theorem quotientAndRemainder : Obligations.QuotientAndRemainder := by
  rintro s rd ea _ b rfl hb hb0
  have hd := divisor_toInt_ne_zero hb0
  refine ⟨fun h => ?_, fun h hne => ?_, fun h hne => ?_⟩
  · have hq : s.regs[rd].toNat / b.toNat < 65536 := (Nat.div_le_self _ _).trans_lt s.regs[rd].isLt
    simp only [← BitVec.ofInt_natCast]
    exact div_mod_completeWith hb (val16_of_unsigned h _) (.of_unsigned h hb0 hq)
  · have hq := word_quotient_in_range (Int.tdiv_mul_add_tmod _ _) (abs_tmod_lt _ hd) hne
    exact div_mod_completeWith hb (val16_of_signed (h.trans_ne nofun) _) (.of_signedTrunc h hb0 hq)
  · have hq := word_quotient_in_range (Int.fdiv_mul_add_fmod _ _) (abs_fmod_lt _ hd) hne
    exact div_mod_completeWith hb (val16_of_signed (h.trans_ne nofun) _) (.of_signedFloor h hb0 hq)

/-- Settles O25: the stated product is the model's under either kind of setting. -/
theorem longProductInPair : Obligations.LongProductInPair := by
  rintro s rd hi ea _ b p heven hhi rfl hb hunsigned hsigned
  have hp : longProduct s.cfg s.regs[rd] b = p := by
    by_cases h : s.cfg.mulDivSigned = .unsigned
    · rw [longProduct, val16_of_unsigned h, val16_of_unsigned h, hunsigned h, ← Nat.cast_mul, BitVec.ofInt_natCast]
    · rw [longProduct, val16_of_signed h, val16_of_signed h, hsigned h]
  subst hp
  exact CompletesWith.of_setPair hhi (exec_mull_of_opval heven hb)

/-- Settles O26: a `Divides` of the pair for each setting. -/
theorem longQuotientAndRemainder : Obligations.LongQuotientAndRemainder := by
  rintro s rd hi ea b _ heven hhi hb hb0 rfl
  refine ⟨fun h hlt => ?_, fun h hlo hup => ?_, fun h hlo hup => ?_⟩
  · simp only [← BitVec.ofInt_natCast]
    exact divl_completesWith heven hhi hb (val32_of_unsigned h _)
      (.of_unsigned h hb0 ((pair_div_lt_iff _ _ hb0).2 hlt))
  · exact divl_completesWith heven hhi hb (val32_of_signed (h.trans_ne nofun) _)
      (.of_signedTrunc h hb0 ⟨hlo, hup⟩)
  · exact divl_completesWith heven hhi hb (val32_of_signed (h.trans_ne nofun) _)
      (.of_signedFloor h hb0 ⟨hlo, hup⟩)

/-- Settles O27: the division faults, and each instruction with it. -/
theorem divisionFaults : Obligations.DivisionFaults := by
  intro s rd ea b hfault hb
  refine ⟨?_, ?_, ?_⟩
  · rintro rfl
    obtain ⟨hdiv, hmod⟩ := exec_div_mod_of_fault (rd := rd) hb (divide_zero_of_fault hfault _)
    exact ⟨hdiv, hmod, fun heven => exec_divl_of_fault heven hb (divide_zero_of_fault hfault _)⟩
  · rintro hsigned ha rfl
    exact exec_div_mod_of_fault hb
      (ha ▸ divide_of_not_fits hfault (by decide) (not_fits16_min_div_neg_one hsigned))
  · rintro hi _ heven hhi rfl hb0
    have hover {p : Int} (hp : val32 s.cfg (s.regs[hi] ++ s.regs[rd]) = p)
        (hfits : ¬ fits16 s.cfg (quotOf s.cfg p (val16 s.cfg b)) = true) :
        exec (.divl rd ea) s = .fault .divideOverflow :=
      exec_divl_of_fault heven hb (pairValue_eq hhi s ▸ hp ▸ divide_of_not_fits hfault hb0 hfits)
    refine ⟨fun h hle => ?_, fun h hout => ?_, fun h hout => ?_⟩
    · refine hover (val32_of_unsigned h _) ?_
      rw [val16_of_unsigned h, quotOf_natCast, fits16_iff_of_unsigned h]
      exact fun ⟨_, hlt⟩ => hle.not_gt ((pair_div_lt_iff _ _ hb0).1 (mod_cast hlt))
    · have hs : s.cfg.mulDivSigned ≠ .unsigned := h.trans_ne nofun
      refine hover (val32_of_signed hs _) ?_
      rw [val16_of_signed hs, quotOf_of_signedTrunc h, fits16_iff_of_signed hs]
      omega
    · have hs : s.cfg.mulDivSigned ≠ .unsigned := h.trans_ne nofun
      refine hover (val32_of_signed hs _) ?_
      rw [val16_of_signed hs, quotOf_of_signedFloor h, fits16_iff_of_signed hs]
      omega

/-- Settles O29: in the zone the values of R116 are the unsigned ones under every setting. -/
theorem agreementZone : Obligations.AgreementZone := by
  rintro s rd ea _ b rfl hb hlt hb0
  refine ⟨fun ha => ?_, ?_⟩
  · simp only [← BitVec.ofInt_natCast]
    exact div_mod_completeWith hb (val16_of_lt _ ha) (.of_zone _ hb0 hlt ((Nat.div_le_self _ _).trans_lt ha))
  · rintro hi _ heven hhi rfl
    refine ⟨fun ha => ?_, fun hn hq => ?_⟩
    · rw [← extractLsb'_ofNat_low, ← extractLsb'_ofNat_high]
      refine longProductInPair s rd hi ea _ b _ heven hhi rfl hb (fun _ => rfl) fun h => ?_
      rw [← val16_of_signed h, ← val16_of_signed h, val16_of_lt _ ha, val16_of_lt _ hlt, ← Nat.cast_mul,
        BitVec.ofInt_natCast]
    · simp only [← BitVec.ofInt_natCast]
      exact divl_completesWith heven hhi hb (val32_of_lt _ hn) (.of_zone _ hb0 hlt hq)

/-- Settles O30: `MULL` leaves the product in the pair, which is in the zone of `DIVL`, with the first factor as its
quotient and no remainder. -/
theorem divlUndoesMull : Obligations.DivlUndoesMull := by
  intro s t rd hi ea b heven hhi ha hlt hb0 hbs hbt hmull
  obtain ⟨_, _, hs⟩ := ((agreementZone s rd ea _ b rfl hbs hlt hb0).2 hi _ heven hhi rfl).1 ha
  have hregs := congrArg State.regs (Host.Outcome.next.inj (hmull.symm.trans hs))
  have hprod : s.regs[rd].toNat * b.toNat < 0x80000000 := by nlinarith
  have hpair : (t.regs[hi] ++ t.regs[rd]).toNat = s.regs[rd].toNat * b.toNat := by
    obtain ⟨hlow, hhigh⟩ := pair_set s.regs hhi (BitVec.ofNat 16 (s.regs[rd].toNat * b.toNat / 65536))
      (BitVec.ofNat 16 (s.regs[rd].toNat * b.toNat))
    rw [hregs, hlow, hhigh, toNat_ofNat_halves (hprod.trans (by decide))]
  have hquot : s.regs[rd].toNat * b.toNat / b.toNat = s.regs[rd].toNat :=
    Nat.mul_div_cancel _ (divisor_toNat_pos hb0)
  obtain ⟨_, _, ht⟩ := ((agreementZone t rd ea _ b rfl hbt hlt hb0).2 hi _ heven hhi rfl).2
    (hpair ▸ hprod) (by rw [hpair, hquot]; exact ha)
  rw [hpair, hquot, Nat.mul_mod_left, BitVec.ofNat_toNat, BitVec.setWidth_eq] at ht
  exact ⟨_, ht, pair_set t.regs hhi 0#16 s.regs[rd]⟩

/-- Settles O23: the product modulo 2^16 does not depend on how the words are read. -/
theorem multiplyLowHalf : Obligations.MultiplyLowHalf := by
  intro s rd ea b hb
  have hmul : s.regs[rd] * b = BitVec.ofNat 16 (s.regs[rd].toNat * b.toNat) := by
    rw [BitVec.ofNat_mul, BitVec.ofNat_toNat, BitVec.ofNat_toNat, BitVec.setWidth_eq, BitVec.setWidth_eq]
  rw [← hmul]
  exact CompletesWith.of_setReg (exec_mul_of_opval rd hb)

/-- Settles O31: each meaning tests its register before anything else. -/
theorem refusedRegisterOperands : Obligations.RefusedRegisterOperands := by
  intro s rd ea
  refine ⟨fun hodd => ?_, fun hsp => ?_⟩
  · have heven : ¬ evenReg rd = true := by simp [evenReg, hodd]
    exact ⟨if_neg heven, if_neg heven⟩
  · have h : isSp s.cfg rd = true := by simp [isSp, hsp]
    exact ⟨if_pos h, if_pos h⟩

end Sys2Proof.Machine
end

section
/-! Shifts (statements O32 and O33). All four are `shiftOp` of their bit operation; each bit operation is the stated
multiplication or rounding-down division, whatever the count. -/

namespace Sys2Proof.Machine

variable {s : State} {ea : Operand} {b : Word}

/-! ### The bit operations as arithmetic (43_shift.md R130 to R133) -/

theorem shiftLeft_eq_ofNat (a : Word) (n : Nat) : a <<< n = BitVec.ofNat 16 (a.toNat * 2 ^ n) := by
  rw [← Nat.shiftLeft_eq, ← BitVec.shiftLeft_eq, BitVec.shiftLeft]

theorem ushiftRight_eq_ofNat (a : Word) (n : Nat) : a >>> n = BitVec.ofNat 16 (a.toNat / 2 ^ n) := by
  rw [← Nat.shiftRight_eq_div_pow, ← BitVec.toNat_ushiftRight, BitVec.ofNat_toNat, BitVec.setWidth_eq]

theorem sshiftRight_eq_ofInt (a : Word) (n : Nat) : a.sshiftRight n = BitVec.ofInt 16 (a.toInt / 2 ^ n) := by
  rw [BitVec.sshiftRight, Int.shiftRight_eq_div_pow, Nat.cast_pow, Nat.cast_ofNat]

/-! ### What a shift answers where the count is there (R134) -/

theorem shiftOp_of_le (f : Word → Nat → Word) (rd : Reg) (hb : opval s ea = .next b) (hle : b.toNat ≤ 15) :
    ∃ c v n, shiftOp f rd ea s = .next { s with
      regs := s.regs.set rd (f (s.reg rd) b.toNat)
      flags := ⟨decide ((f (s.reg rd) b.toNat).toNat = 0), c, (f (s.reg rd) b.toNat).getLsbD 15, v⟩
      draws := n } :=
  ⟨_, _, _, shiftOp_eq_next.2 ⟨b, hb, .inl ⟨hle, (setResultFlags_eq (s.setReg rd _) _).symm⟩⟩⟩

theorem shiftOp_of_lt (f : Word → Nat → Word) (rd : Reg) (hb : opval s ea = .next b) (hlt : 15 < b.toNat) :
    ∃ r g n, shiftOp f rd ea s = .next { s with regs := s.regs.set rd r, flags := g, draws := n } :=
  ⟨_, _, _, shiftOp_eq_next.2 ⟨b, hb, .inr ⟨hlt, rfl⟩⟩⟩

/-! ### The statements -/

/-- Settles O32: each shift is `shiftOp` of a bit operation that is the stated multiplication or division. -/
theorem shiftsUpToFifteen : Obligations.ShiftsUpToFifteen := by
  rintro s rd ea _ b rfl hb hle p hp
  rw [← shiftLeft_eq_ofNat, ← sshiftRight_eq_ofInt, ← ushiftRight_eq_ofNat] at hp
  simp only [List.mem_cons, List.not_mem_nil, or_false] at hp
  obtain rfl | rfl | rfl | rfl := hp
  · exact shiftOp_of_le (fun a n => a <<< n) rd hb hle
  · exact shiftOp_of_le (fun a n => a <<< n) rd hb hle
  · exact shiftOp_of_le (fun a n => a.sshiftRight n) rd hb hle
  · exact shiftOp_of_le (fun a n => a >>> n) rd hb hle

/-- Settles O33: beyond 15 `shiftOp` draws the result and the flags, whatever its bit operation. -/
theorem shiftsBeyondFifteen : Obligations.ShiftsBeyondFifteen := by
  intro s rd ea b hb hlt i hi
  simp only [List.mem_cons, List.not_mem_nil, or_false] at hi
  obtain rfl | rfl | rfl | rfl := hi
  · exact shiftOp_of_lt (fun a n => a <<< n) rd hb hlt
  · exact shiftOp_of_lt (fun a n => a <<< n) rd hb hlt
  · exact shiftOp_of_lt (fun a n => a.sshiftRight n) rd hb hlt
  · exact shiftOp_of_lt (fun a n => a >>> n) rd hb hlt

end Sys2Proof.Machine
end

section
/-! The jumps and `CALL` (statements O34 to O36). Every jump is `jumpIf` of its formula; at the flags of a subtraction
each formula is one relation between the operands. -/

namespace Sys2Proof.Machine

/-! ### The relations behind the flags of a subtraction (44_jump_call.md R140) -/

theorem sub16Flags_s (a b : Word) : (sub16Flags a b).s = decide (0x8000 ≤ (a - b).toNat) :=
  BitVec.msb_eq_decide (a - b)

/-- `S xor V` is the signed order: the sign of the difference, turned round where the difference overflows. -/
theorem sub16Flags_s_xor_v (a b : Word) :
    ((sub16Flags a b).s ^^ (sub16Flags a b).v) = decide (a.toInt < b.toInt) := by
  have hsign : (sub16Flags a b).s = decide ((a - b).toInt < 0) := BitVec.msb_eq_toInt (x := a - b)
  have ha := a.toInt_lt
  have ha' := a.le_toInt
  have hb := b.toInt_lt
  have hb' := b.le_toInt
  rw [hsign, sub16Flags_v, BitVec.toInt_sub, Int.bmod_def]
  by_cases hover : a.toInt - b.toInt < -32768 ∨ 32767 < a.toInt - b.toInt
  · rw [decide_eq_true hover, Bool.xor_true, ← decide_not, decide_eq_decide]
    omega
  · rw [decide_eq_false hover, Bool.xor_false, decide_eq_decide]
    omega

theorem sub16Flags_z_or_s_xor_v (a b : Word) :
    ((sub16Flags a b).z || ((sub16Flags a b).s ^^ (sub16Flags a b).v)) = decide (a.toInt ≤ b.toInt) := by
  rw [sub16Flags_s_xor_v, sub16Flags_z, ← Bool.decide_or, decide_eq_decide, ← BitVec.toInt_inj]
  omega

theorem sub16Flags_z_or_c (a b : Word) :
    ((sub16Flags a b).z || (sub16Flags a b).c) = decide (a.toNat ≤ b.toNat) := by
  rw [sub16Flags_c, sub16Flags_z, ← Bool.decide_or, decide_eq_decide, ← BitVec.toNat_inj]
  omega

/-! ### The jumps with the formula of each -/

/-- The jumps at `ea`, each with whether it is taken at the flags `f` (R141 to R155). -/
def jumpsWith (f : Flags) (ea : JumpMode) : List (Instr × Bool) :=
  [(.jz ea, f.z), (.jc ea, f.c), (.jm ea, f.s), (.jo ea, f.v), (.jgt ea, !(f.z || (f.s ^^ f.v))),
    (.jge ea, !(f.s ^^ f.v)), (.jle ea, f.z || (f.s ^^ f.v)), (.jlt ea, f.s ^^ f.v), (.jnz ea, !f.z),
    (.jnc ea, !f.c), (.jnm ea, !f.s), (.jno ea, !f.v), (.jhi ea, !(f.z || f.c)), (.jls ea, f.z || f.c),
    (.jmp ea, true)]

theorem exec_of_mem_jumpsWith {s : State} {ea : JumpMode} {p : Instr × Bool} (hp : p ∈ jumpsWith s.flags ea) :
    exec p.1 s = jumpIf p.2 ea s := by
  simp only [jumpsWith, List.mem_cons, List.not_mem_nil, or_false] at hp
  obtain rfl | rfl | rfl | rfl | rfl | rfl | rfl | rfl | rfl | rfl | rfl | rfl | rfl | rfl | rfl := hp
  all_goals rfl

/-! ### The statements -/

/-- Settles O34: each jump is `jumpIf` of its formula, and the target is the one stated in each mode. -/
theorem jumpsTakenByFormula : Obligations.JumpsTakenByFormula := by
  intro s ea target htarget p hp
  have hjump : target = jumpTarget s ea := by
    cases ea with
    | drct dsp => exact htarget
    | index dsp rx => exact htarget.trans (eaddr_index s dsp rx).symm
    | indr rx => exact htarget
  rw [hjump]
  exact exec_of_mem_jumpsWith hp

/-- Settles O35: the formulas of O34 at the flags `CMP` leaves are the relations of the table, which leaves `JMP` out. -/
theorem jumpsAfterCompare : Obligations.JumpsAfterCompare := by
  rintro s t rd ea j _ b rfl hb hcmp p hp
  rw [exec_cmp_of_opval rd hb] at hcmp
  obtain rfl := Host.Outcome.next.inj hcmp
  apply exec_of_mem_jumpsWith
  rw [State.setFlags_flags, jumpsWith, sub16Flags_z_or_s_xor_v, sub16Flags_s_xor_v, sub16Flags_z_or_c, sub16Flags_z,
    sub16Flags_c, sub16Flags_s, sub16Flags_v]
  simp only [← decide_not, not_or, Int.not_lt, Int.not_le, Nat.not_lt, Nat.not_le]
  exact List.mem_append_left [(.jmp j, true)] hp

/-- Settles O36: the push stores the return address, and the target is read off the state before it. -/
theorem callPushesReturnAddress : Obligations.CallPushesReturnAddress := by
  intro s ea hwf haligned hwritable
  have hpush : pushWord s s.pc = .next _ := pushWord_eq_next.2 ⟨haligned, hwritable, rfl⟩
  exact ⟨_, andThen_of_eq_next hpush _, loadWord_storeWord hwf _ _, fun k h0 h1 => memGet_storeWord_ne h0 h1 _ _⟩

end Sys2Proof.Machine
end

section
/-! Input and output (statements O37 and O38). An `IN` is one answer used up, one event recorded and one register
write; mode 7 differs in the low byte alone, which is the word modulo 256 or its low half read as signed. -/

namespace Sys2Proof.Machine

variable {c : Config} {s : State}

/-! ### The environment's answer (20_memory.md R41) -/

/-- A listed answer is used up; where none is listed the answer is a draw. No other part of the state changes. -/
theorem State.ioConsume_eq (s : State) :
    s.ioConsume = { s with ioIn := s.ioIn.tail, draws := s.ioConsume.draws } := by
  cases h : s.ioIn with
  | cons x r => simp [State.ioConsume, h]
  | nil => simp [State.ioConsume, State.useDraw, h]

theorem State.ioAnswer_of_cons {x : Word} {r : List Word} (h : s.ioIn = x :: r) : s.ioAnswer = x := by
  simp [State.ioAnswer, h]

theorem State.ioConsume_draws_of_cons {x : Word} {r : List Word} (h : s.ioIn = x :: r) :
    s.ioConsume.draws = s.draws := by
  simp [State.ioConsume, h]

/-! ### The byte of mode 7 (30_encoding.md R61) -/

theorem ext8_of_zero (h : c.byteExt = .zero) (b : Byte) : ext8 c b = BitVec.ofNat 16 b.toNat := by
  simp [ext8, h]

theorem ext8_of_sign (h : c.byteExt = .sign) (b : Byte) : ext8 c b = BitVec.ofInt 16 b.toInt := by
  simp [ext8, h, BitVec.signExtend]

/-! ### What the instructions answer -/

/-- The update both sizes of `IN` make: the recorded event and the value written are all that tells them apart. -/
theorem setReg_record_ioConsume (s : State) (rd : Reg) (e : IoEvent) (w : Word) :
    (s.ioConsume.record e).setReg rd w = { s with
      regs := s.regs.set rd w, ioIn := s.ioIn.tail, draws := s.ioConsume.draws, ioLog := s.ioLog ++ [e] } :=
  congrArg (fun t => (t.record e).setReg rd w) s.ioConsume_eq

/-- Every mode but 7 reads a word. -/
theorem exec_inp_of_ne_bIndr (rd : Reg) {ea : IoMode} (hea : ∀ r, ea ≠ .bIndr r) : exec (.inp rd ea) s =
    .next ((s.ioConsume.record (.input (portAddress s ea) (.word s.ioAnswer))).setReg rd s.ioAnswer) := by
  cases ea with
  | bIndr r => exact absurd rfl (hea r)
  | drct | indr => rfl

/-- Mode 7 reads the low byte of the answer and widens it. -/
theorem exec_inp_bIndr (s : State) (rd rx : Reg) : exec (.inp rd (.bIndr rx)) s =
    .next ((s.ioConsume.record (.input (portAddress s (.bIndr rx)) (.byte (s.ioAnswer.setWidth 8)))).setReg rd
      (ext8 s.cfg (s.ioAnswer.setWidth 8))) := rfl

/-- Mode 7 writes the low byte of the register. -/
theorem exec_out_bIndr (s : State) (rd rx : Reg) : exec (.out rd (.bIndr rx)) s =
    .next (s.record (.output s.regs[rx] (.byte (s.regs[rd].extractLsb' 0 8)))) := by
  rw [← BitVec.setWidth_eq_extractLsb' (by decide)]
  rfl

/-! ### The statements -/

/-- Settles O37: the answer and what is left of the list and the draws are the model's, in every mode. -/
theorem inputWritesRegister : Obligations.InputWritesRegister := by
  rintro s rd ea _ rfl
  refine ⟨s.ioAnswer, s.ioIn.tail, s.ioConsume.draws, fun x r h => ?_, fun hea => ?_, ?_⟩
  · exact ⟨s.ioAnswer_of_cons h, congrArg List.tail h, s.ioConsume_draws_of_cons h⟩
  · rw [exec_inp_of_ne_bIndr rd hea, setReg_record_ioConsume]
  · rintro rx rfl
    rw [exec_inp_bIndr, setReg_record_ioConsume]
    cases hext : s.cfg.byteExt with
    | zero => rw [ext8_of_zero hext, BitVec.toNat_setWidth]
    | sign => rw [ext8_of_sign hext]

/-- Settles O38: in the word modes the record is the meaning itself, and the byte of mode 7 is the low eight bits. -/
theorem outputRecordsEvent : Obligations.OutputRecordsEvent := fun s rd =>
  ⟨fun _ => rfl, fun _ => rfl, exec_out_bIndr s rd⟩

end Sys2Proof.Machine
end

section
/-! Push, pop and return (statements O39 to O43). The word a push stores is the word a pop finds, and the two updates of
`SP` are the identity, so a pop after a push leaves of the push its memory alone. -/

namespace Sys2Proof.Machine

variable {s t : State} {rd : Reg} {v : Word}

/-! ### The update of `SP` (10_state.md R13) -/

/-- `SP` is a general register or the separate one: nothing else is updated. -/
theorem State.setSp_eq (s : State) (v : Word) :
    s.setSp v = { s with regs := (s.setSp v).regs, spOwn := (s.setSp v).spOwn } := by
  unfold State.setSp; split <;> rfl

theorem State.setSp_sp (s : State) : s.setSp s.sp = s := by
  cases h : s.cfg.spLoc with
  | reg i => simp [State.setSp, State.sp, h, State.setReg, State.reg]
  | separate => simp [State.setSp, State.sp, h]

theorem State.setSp_setPc (s : State) (p v : Word) : (s.setPc p).setSp v = (s.setSp v).setPc p := by
  cases h : s.cfg.spLoc with
  | reg i => simp [State.setSp, h, State.setPc, State.setReg]
  | separate => simp [State.setSp, h, State.setPc]

/-- The `FLAG` word and `SP` share no part of the state. -/
theorem State.setFlagWord_setSp (s : State) (a w : Word) : (s.setSp a).setFlagWord w = { s.setSp a with
    flags := unpackFlags s.cfg.flagLayout w
    ie := unpackIe s.cfg.flagLayout w s.ie
    flagRest := unpackRest s.cfg.flagLayout w } := by
  simp only [State.setFlagWord, State.setSp_cfg, State.setSp_ie]

/-! ### The stack (46_stack_return.md R184) -/

theorem popWord_of_readWord (h : readWord s s.sp = .next v) : popWord s = .next (v, s.setSp (s.sp + 2#16)) :=
  andThen_of_eq_next h _

theorem popWord_setPc (h : popWord s = .next (v, t)) (p : Word) : popWord (s.setPc p) = .next (v, t.setPc p) := by
  obtain ⟨haligned, hreadable, hvt⟩ := popWord_eq_next.1 h
  obtain ⟨rfl, rfl⟩ := Prod.mk.inj hvt
  rw [← State.setSp_setPc]
  exact popWord_eq_next.2 ⟨haligned, hreadable, rfl⟩

theorem pushWord_cfg (hpush : pushWord s v = .next t) : t.cfg = s.cfg := by
  obtain ⟨-, -, rfl⟩ := pushWord_eq_next.1 hpush
  rw [State.setSp_cfg, State.setMem_cfg]

/-- A pop after a push gives the word pushed, and of the push only the memory below `SP` is left. -/
theorem popWord_of_pushWord (hwf : Memory.wf s.mem) (hreadable : wordReadable s.cfg (s.sp - 2#16) = true)
    (hpush : pushWord s v = .next t) : ∃ m, popWord t = .next (v, s.setMem m) := by
  obtain ⟨haligned, -, rfl⟩ := pushWord_eq_next.1 hpush
  have hsp (m : Memory) : (s.setMem m).setSp s.sp = s.setMem m := (s.setMem m).setSp_sp
  refine ⟨storeWord s.cfg s.mem (s.sp - 2#16) v, popWord_eq_next.2 ?_⟩
  simp [haligned, hreadable, loadWord_storeWord hwf, hsp]

/-! ### What the instructions answer -/

theorem not_isSp_of_ne (h : s.cfg.spLoc ≠ .reg rd) : ¬ isSp s.cfg rd = true := by
  simpa [isSp] using h

theorem exec_push_of_ne_sp (h : s.cfg.spLoc ≠ .reg rd) : exec (.push rd) s = pushWord s (s.reg rd) :=
  if_neg (not_isSp_of_ne h)

theorem exec_pop_of_ne_sp (h : s.cfg.spLoc ≠ .reg rd) (hpop : popWord s = .next (v, t)) :
    exec (.pop rd) s = .next (t.setReg rd v) :=
  (if_neg (not_isSp_of_ne h)).trans (andThen_of_eq_next hpop _)

theorem exec_ret_of_popWord (hpop : popWord s = .next (v, t)) : exec .ret s = .next (t.setPc v) :=
  andThen_of_eq_next hpop _

/-- A `PUSH` that completes is of a register other than `SP` (R180). -/
theorem pushWord_of_exec_push (h : exec (.push rd) s = .next t) : pushWord s (s.reg rd) = .next t := by
  by_cases hsp : s.cfg.spLoc = .reg rd
  · rw [((refusedRegisterOperands s rd (.reg rd)).2 hsp).1] at h
    cases h
  · rwa [exec_push_of_ne_sp hsp] at h

/-! ### The statements -/

/-- Settles O43: each pair is a push and the pop after it; `CALL` sets `pc` between the two, which `RET` sets back. -/
theorem popsUndoPushes : Obligations.PopsUndoPushes := by
  intro s t ea ra rb hwf hreadable
  constructor
  · intro hcall
    obtain ⟨pushed, hpush, ht⟩ := andThen_eq_next.1 hcall
    obtain rfl := Host.Outcome.next.inj ht
    obtain ⟨m, hpop⟩ := popWord_of_pushWord hwf hreadable hpush
    exact ⟨_, exec_ret_of_popWord (popWord_setPc hpop _), rfl, State.sp_congr rfl rfl rfl, fun _ => rfl, rfl⟩
  · intro hexec hrb
    have hpush := pushWord_of_exec_push hexec
    obtain ⟨m, hpop⟩ := popWord_of_pushWord hwf hreadable hpush
    exact ⟨_, exec_pop_of_ne_sp (pushWord_cfg hpush ▸ hrb) hpop, State.reg_setReg_same _ _ _,
      ((s.setMem m).sp_setReg_ne hrb _).trans (s.sp_setMem m)⟩

/-- Settles O39: the push is one word access, and the laws of memory say what it reads back and leaves alone. -/
theorem pushStoresRegister : Obligations.PushStoresRegister := by
  intro s rd hwf hrd haligned hwritable
  have hpush : exec (.push rd) s = .next _ :=
    (exec_push_of_ne_sp hrd).trans (pushWord_eq_next.2 ⟨haligned, hwritable, rfl⟩)
  exact ⟨_, hpush, loadWord_storeWord hwf _ _, fun k h0 h1 => memGet_storeWord_ne h0 h1 _ _⟩

/-- Settles O40: `Rd` and `SP` are different registers, so neither write touches what the other wrote. -/
theorem popLoadsRegister : Obligations.PopLoadsRegister := by
  intro s rd v hrd hv
  refine ⟨_, exec_pop_of_ne_sp hrd (popWord_of_readWord hv), State.reg_setReg_same _ _ _, ?_,
    congrArg (fun t => t.setReg rd v) (s.setSp_eq _), fun i hi hsp => ?_⟩
  · rw [State.sp_setReg_ne _ (by rwa [State.setSp_cfg]), State.sp_setSp]
  · rw [State.reg_setReg_ne _ hi, State.reg_setSp_ne _ hsp]

/-- Settles O41: the pop, then its word to `pc`. -/
theorem returnLoadsPc : Obligations.ReturnLoadsPc := fun _ _ hv =>
  exec_ret_of_popWord (popWord_of_readWord hv)

/-- Settles O42: both words are read before anything is written, and unpacking the first is by the layout's code. -/
theorem returnFromInterruptRestores : Obligations.ReturnFromInterruptRestores := by
  intro s f v hf hv
  have hreti : exec .reti s = .next (((s.setSp (s.sp + 4#16)).setFlagWord f).setPc v) :=
    (andThen_of_eq_next hf _).trans (andThen_of_eq_next hv _)
  rw [State.setFlagWord_setSp] at hreti
  exact ⟨_, rfl, fun hcode => decodeFlag_of_code_nil hcode f, hreti⟩

end Sys2Proof.Machine
end

section
/-! Accesses that stop (statement O14). `StopsWith` says that a stop of one operation is the stop of another; the
sequencing of operations gives it, and an instruction that begins with an access is such a sequence. -/

namespace Sys2Proof.Machine

variable {α β γ : Type} {s t : State}

/-! ### The stop of a part as the stop of the whole (60_exceptions.md R200) -/

/-- Where `x` stops, `y` stops with the same reason. -/
def StopsWith (x : Res α) (y : Res β) : Prop :=
  (∀ f, x = .fault f → y = .fault f) ∧ ∀ r, x = .refused r → y = .refused r

namespace StopsWith

theorem refl (x : Res α) : StopsWith x x := ⟨fun _ => id, fun _ => id⟩

theorem trans {x : Res α} {y : Res β} {z : Res γ} (hxy : StopsWith x y) (hyz : StopsWith y z) : StopsWith x z :=
  ⟨fun f h => hyz.1 f (hxy.1 f h), fun r h => hyz.2 r (hxy.2 r h)⟩

/-- A sequence stops where its first operation does. -/
theorem first (x : Res α) (f : α → Res β) : StopsWith x (andThen x f) :=
  ⟨fun _ h => h ▸ rfl, fun _ h => h ▸ rfl⟩

/-- A sequence of which the first operation completes stops where the rest does. -/
theorem second {x : Res α} {a : α} {f : α → Res β} {y : Res γ} (hx : x = .next a) (hy : StopsWith y (f a)) :
    StopsWith y (andThen x f) := by
  subst hx
  exact hy

end StopsWith

/-! ### The accesses of the stack instructions (46_stack_return.md R184) -/

theorem pushWord_stopsWith (s : State) (v : Word) : StopsWith (writeWord s (s.sp - 2#16) v) (pushWord s v) :=
  .first _ _

theorem popWord_stopsWith (s : State) : StopsWith (readWord s s.sp) (popWord s) := .first _ _

theorem exec_push_stopsWith {rd : Reg} (h : s.cfg.spLoc ≠ .reg rd) :
    StopsWith (writeWord s (s.sp - 2#16) (s.reg rd)) (exec (.push rd) s) :=
  exec_push_of_ne_sp h ▸ pushWord_stopsWith s _

theorem exec_pop_stopsWith {rd : Reg} (h : s.cfg.spLoc ≠ .reg rd) : StopsWith (readWord s s.sp) (exec (.pop rd) s) := by
  have hpop : exec (.pop rd) s = andThen (popWord s) fun p => .next (p.2.setReg rd p.1) := if_neg (not_isSp_of_ne h)
  exact hpop ▸ (popWord_stopsWith s).trans (.first _ _)

/-- `MULL` and `DIVL` read their operand once the pair is known to be one. -/
theorem exec_mull_divl_stopWith {rd : Reg} (h : evenReg rd = true) (ea : Operand) :
    StopsWith (opval s ea) (exec (.mull rd ea) s) ∧ StopsWith (opval s ea) (exec (.divl rd ea) s) := by
  have hmull : exec (.mull rd ea) s = andThen (opval s ea) _ := if_pos h
  have hdivl : exec (.divl rd ea) s = andThen (opval s ea) _ := if_pos h
  exact ⟨hmull ▸ .first _ _, hdivl ▸ .first _ _⟩

/-- Settles O14: each instruction is a sequence that begins with the access, after the check of its register if it has
one. -/
theorem stoppedAccessStopsInstruction : Obligations.StoppedAccessStopsInstruction := by
  intro s rd ea a j
  refine ⟨fun i hi => ?_, fun heven i hi => ?_, StopsWith.refl (writeAt s a (s.reg rd)), fun i hi => ?_, fun hsp => ?_,
    fun i hi => ?_, fun w f hw hf => ?_⟩
  · simp only [List.mem_cons, List.not_mem_nil, or_false] at hi
    obtain rfl | rfl | rfl | rfl | rfl | rfl | rfl | rfl | rfl | rfl | rfl | rfl | rfl | rfl | rfl := hi
    all_goals exact StopsWith.first (opval s ea) _
  · simp only [List.mem_cons, List.not_mem_nil, or_false] at hi
    obtain rfl | rfl := hi
    · exact (exec_mull_divl_stopWith heven ea).1
    · exact (exec_mull_divl_stopWith heven ea).2
  · simp only [List.mem_cons, List.not_mem_nil, or_false] at hi
    obtain rfl | rfl := hi
    · exact (pushWord_stopsWith s s.pc).trans (.first _ _)
    · exact StopsWith.first (writeWord s (s.sp - 2#16) s.pc) _
  · obtain ⟨hpush_fault, hpush_refused⟩ := exec_push_stopsWith hsp
    obtain ⟨hpop_fault, hpop_refused⟩ := exec_pop_stopsWith hsp
    exact ⟨hpush_fault, hpush_refused, hpop_fault, hpop_refused⟩
  · simp only [List.mem_cons, List.not_mem_nil, or_false] at hi
    obtain rfl | rfl := hi
    · exact (popWord_stopsWith s).trans (.first _ _)
    · exact StopsWith.first (readWord s s.sp) _
  · exact (StopsWith.second hw (.first (readWord s (s.sp + 2#16)) _)).1 f hf

end Sys2Proof.Machine
end

section
/-! Reset and the step (statements O12 and O48 to O51). One rule for each outcome of the boundary and of the fetch;
each statement is put together from those its premises select. -/

namespace Sys2Proof.Machine

variable {s : State} {h : Handler}

/-! ### The request at a boundary (60_exceptions.md R202, R204) -/

theorem accepted_of_ie_false (hie : s.ie = false) : accepted s = none := by
  simp [accepted, hie]

theorem accepted_of_cons (hie : s.ie = true) {n : Nat} {rest : List (Option Nat)} (hreq : s.requests = some n :: rest) :
    accepted s = s.cfg.causes.lookup n := by
  simp [accepted, presented, hie, hreq]

theorem accepted_of_none_cons {rest : List (Option Nat)} (hreq : s.requests = none :: rest) : accepted s = none := by
  simp [accepted, presented, hreq]

theorem passBoundary_of_cons {r : Option Nat} {rest : List (Option Nat)} (hreq : s.requests = r :: rest) :
    s.passBoundary = { s with requests := rest } := by
  simp [State.passBoundary, hreq]

/-! ### Where the boundary leads the step (60_exceptions.md R200, 47_system.md R194) -/

theorem step_of_running_accepted (hrun : s.halted = false) (hreq : accepted s = some h) :
    step s = trapEntry h s.passBoundary := by
  simp [step, boundary, hrun, hreq]

theorem step_of_halted_no (hhalt : s.halted = true) (hwake : s.cfg.haltWake = .no) : step s = .next s := by
  simp [step, boundary, hhalt, hwake]

theorem step_of_halted_accepted (hhalt : s.halted = true) (hwake : s.cfg.haltWake = .yes)
    (hreq : accepted s = some h) : step s = trapEntry h (s.passBoundary.setHalted false) := by
  simp [step, boundary, hhalt, hwake, hreq]

theorem step_of_halted_none (hhalt : s.halted = true) (hwake : s.cfg.haltWake = .yes) (hreq : accepted s = none) :
    step s = .next s.passBoundary := by
  simp [step, boundary, hhalt, hwake, hreq]

/-! ### What follows a fetch -/

section Fetch

variable {run : Instr → State → Res State}

theorem fetchThen_of_next {p : Instr × State} (hf : fetch s = .next p) : fetchThen s run = run p.1 p.2 := by
  rw [fetchThen, hf]

theorem fetchThen_of_fault {r : Fault} (hf : fetch s = .fault r) : fetchThen s run = .fault r := by
  rw [fetchThen, hf]

theorem fetchThen_of_misaligned (hf : fetch s = .refused .misaligned) :
    fetchThen s run = .refused .misaligned := by
  rw [fetchThen, hf]
  exact if_neg nofun

end Fetch

theorem fetch_stopsWith (s : State) : StopsWith (readWord s s.pc) (fetch s) := .first _ _

/-- The second word of a two-word instruction, once the first is read. -/
theorem fetch_stopsWith_second {w1 : Word} {f : Word → Instr} (h1 : readWord s s.pc = .next w1)
    (hd : decodeFirst w1 = .ok (.two f)) : StopsWith (readWord s (s.pc + 2#16)) (fetch s) := by
  rw [fetch, h1, andThen_next, hd]
  exact .first _ _

/-! ### The statements -/

/-- Settles O48: past the boundary the fetch finds the instruction, with `pc` advanced by its length. -/
theorem stepRunsDecodedInstruction : Obligations.StepRunsDecodedInstruction := by
  intro s w1 hrun hreq h1
  rw [step_of_running hrun hreq]
  have h1' : readWord s.passBoundary s.passBoundary.pc = .next w1 := (readWord_passBoundary s s.pc).trans h1
  refine ⟨fun i hd => fetchThen_of_next (fetch_of_one h1' hd), fun f w2 hd h2 => ?_⟩
  exact fetchThen_of_next (fetch_of_two h1' hd ((readWord_passBoundary s _).trans h2))

/-- Settles O49: the fetch stops where the read of a word does, and the step with it; a reserved encoding is O59's. -/
theorem stepStopsOnBadFetch : Obligations.StepStopsOnBadFetch := by
  intro s hrun hreq
  refine ⟨fun hc w1 e h1 hd => (reservedEncodingByParameter s w1 e hrun hreq h1 hd).1 hc, ?_⟩
  rw [step_of_running hrun hreq]
  have hread (a : Word) : readWord s.passBoundary a = readWord s a := readWord_passBoundary s a
  refine ⟨fun hm hpc => fetchThen_of_misaligned ?_, fun r h1 => fetchThen_of_fault ?_,
    fun w1 f r h1 hd h2 => fetchThen_of_fault ?_⟩
  · exact fetch_of_readWord_refused (readWord_of_misaligned (alignedFor_eq_false_iff.2 ⟨hm, hpc⟩))
  · exact (fetch_stopsWith s.passBoundary).1 r ((hread s.pc).trans h1)
  · exact (fetch_stopsWith_second (s := s.passBoundary) ((hread s.pc).trans h1) hd).1 r ((hread _).trans h2)

/-- Settles O50: a request that is not accepted leads to the fetch that no request leads to. -/
theorem requestTakenOnlyWhenEnabled : Obligations.RequestTakenOnlyWhenEnabled := by
  intro s n rest hrun hreq
  refine ⟨fun h hie hcause => ?_, fun hnot => ?_⟩
  · rw [← passBoundary_of_cons hreq]
    exact step_of_running_accepted hrun ((accepted_of_cons hie hreq).trans hcause)
  · have hnone : accepted s = none := by
      cases hie : s.ie with
      | false => exact accepted_of_ie_false hie
      | true => exact (accepted_of_cons hie hreq).trans (hnot.resolve_left (by simp [hie]))
    rw [step_of_running hrun hnone, passBoundary_of_cons hreq]
    exact (step_of_running (s := { s with requests := none :: rest }) hrun (accepted_of_none_cons rfl)).symm

/-- A state that a step leaves as it is, any number of steps does. -/
theorem run_of_step_eq_self (M : Host.Core) {s : M.State} (hstep : M.step s = .next s) (k : Nat) :
    M.run k s = .next s := by
  induction k with
  | zero => rfl
  | succ k ih =>
    rw [Host.Core.run, hstep]
    exact ih

/-- Settles O51: under `no` every step answers the state itself; under `yes` the boundary decides. -/
theorem haltedStays : Obligations.HaltedStays := by
  intro s hhalt
  refine ⟨fun hwake => ?_, fun hwake => ?_⟩
  · have hrun (k : Nat) : Sys2Proof.core.run k s = .next s :=
      run_of_step_eq_self Sys2Proof.core (step_of_halted_no hhalt hwake) k
    exact ⟨hrun, fun k r => by simp [hrun k]⟩
  · exact ⟨fun h hreq => step_of_halted_accepted hhalt hwake hreq, fun hreq => step_of_halted_none hhalt hwake hreq⟩

/-- Settles O12: nothing is listed in memory, and the word 0 holds no flag's bit. -/
theorem resetState : Obligations.ResetState := by
  have hrest (l : FlagLayout) : restOf l 0 = 0 := word_ext fun j => by simp [restOf_getElem]
  exact ⟨fun c => ⟨rfl, rfl, rfl, memory_wf_nil, hrest c.flagLayout⟩, _, rfl⟩

end Sys2Proof.Machine
end

section
/-! Trap entry and the return from it (statements O44 to O46 and O58). The memory that trap entry leaves is two word
writes side by side, which the laws of memory read back; where the entry stops is read off its sequence of accesses,
and a step that takes a request, and `SVC`, are that entry. -/

namespace Sys2Proof.Machine

variable {s t t' : State} {h : Handler}

/-! ### The words that trap entry pushes (60_exceptions.md R206) -/

/-- The memory after both pushes of trap entry. -/
def trapMem (s : State) : Memory :=
  storeWord s.cfg (storeWord s.cfg s.mem (s.sp - 2#16) s.pc) (s.sp - 4#16) s.flagWord

theorem sub_four_add_two (a : Word) : a - 4#16 + 2#16 = a - 2#16 := by bv_omega

theorem loadWord_trapMem_pc (hwf : Memory.wf s.mem) : loadWord s.cfg (trapMem s) (s.sp - 2#16) = s.pc := by
  rw [trapMem, ← sub_four_add_two, loadWord_storeWord_add_two, loadWord_storeWord hwf]

theorem loadWord_trapMem_flagWord (hwf : Memory.wf s.mem) :
    loadWord s.cfg (trapMem s) (s.sp - 4#16) = s.flagWord :=
  loadWord_storeWord (storeWord_wf _ _ hwf) _ _

theorem trapIeAfter_of_clear (hc : s.cfg.trapIe = .clear) : trapIeAfter s = false := by
  rw [trapIeAfter, hc]

theorem trapIeAfter_of_keep (hc : s.cfg.trapIe = .keep) : trapIeAfter s = s.ie := by
  rw [trapIeAfter, hc]

/-- Settles O44: the next state is the model's, and the laws of memory say what its two writes read back and leave
alone. -/
theorem trapEntryAsStated : Obligations.TrapEntryAsStated := by
  intro s h target hwf htarget haligned2 hwritable2 haligned4 hwritable4
  refine ⟨trapMem s, trapIeAfter s,
    trapEntry_eq_next.2 ⟨haligned2, hwritable2, haligned4, hwritable4, target, htarget, rfl⟩,
    trapIeAfter_of_clear, trapIeAfter_of_keep, loadWord_trapMem_pc hwf, loadWord_trapMem_flagWord hwf, ?_⟩
  intro k h20 h21 h40 h41
  exact (memGet_storeWord_ne h40 h41 _ _).trans (memGet_storeWord_ne h20 h21 _ _)

/-- Settles O45: `SVC` is the trap entry of O44, whose `SP`, flags and registers are those of `setSp`. -/
theorem supervisorCallEnters : Obligations.SupervisorCallEnters := by
  intro s
  refine ⟨rfl, fun target hwf htarget haligned2 hwritable2 haligned4 hwritable4 => ?_⟩
  obtain ⟨m, e, hentry, hclear, hkeep, hpc, hflag, -⟩ :=
    trapEntryAsStated s _ target hwf htarget haligned2 hwritable2 haligned4 hwritable4
  refine ⟨_, hentry, rfl, ?_, State.setSp_flags _ _, hclear, hkeep, ?_, ?_, fun i hi => ?_⟩
  · exact (State.sp_congr rfl rfl rfl).trans (State.sp_setSp { s with mem := m } _)
  · simpa using hpc
  · simpa using hflag
  · exact (State.reg_congr rfl i).trans (State.reg_setSp_ne { s with mem := m } hi _)

/-- What a handler begins with, where the entry completes. -/
theorem trapEntry_leaves (hentry : trapEntry h s = .next t) :
    t.cfg = s.cfg ∧ t.sp = s.sp - 4#16 ∧ t.mem = trapMem s := by
  obtain ⟨-, -, -, -, target, -, rfl⟩ := trapEntry_eq_next.1 hentry
  simp [trapMem]

/-- Settles O46: `RETI` reads the two words the entry pushed, and unpacking undoes packing. -/
theorem returnUndoesTrapEntry : Obligations.ReturnUndoesTrapEntry := by
  rintro s t u h ⟨hwf, hrest⟩ hentry hreadable2 hreadable4 hucfg husp hpc hflag
  obtain ⟨haligned2, -, haligned4, -, -⟩ := trapEntry_eq_next.1 hentry
  obtain ⟨htcfg, htsp, htmem⟩ := trapEntry_leaves hentry
  rw [hucfg, htcfg, htmem] at hpc hflag
  rw [loadWord_trapMem_pc hwf] at hpc
  rw [loadWord_trapMem_flagWord hwf] at hflag
  have hreti : trapReturn u = .next (((u.setSp s.sp).setFlagWord s.flagWord).setPc s.pc) := by
    refine trapReturn_eq_next.2 ?_
    rw [husp, hucfg, htcfg, htsp, sub_four_add_two, BitVec.sub_add_cancel, hpc, hflag]
    exact ⟨haligned4, hreadable4, haligned2, hreadable2, rfl⟩
  obtain ⟨hflags, hflagRest, hie⟩ :=
    flagUnpackUndoesPack s.cfg.flagLayout s.flags s.ie u.ie s.flagRest hrest
  have hlayout : (u.setSp s.sp).cfg.flagLayout = s.cfg.flagLayout := by rw [State.setSp_cfg, hucfg, htcfg]
  refine ⟨_, hreti, rfl, by simp, ?_, ?_, fun hsome => ?_, fun hnone => ?_⟩
  · rw [State.setPc_flags, State.setFlagWord_flags, hlayout]
    exact hflags
  · rw [State.setPc_flagRest, State.setFlagWord_flagRest, hlayout]
    exact hflagRest
  · rw [State.setPc_ie, State.setFlagWord_ie, hlayout, State.setSp_ie]
    exact hie.trans (if_neg hsome)
  · rw [State.setPc_ie, State.setFlagWord_ie, hlayout, State.setSp_ie]
    exact hie.trans (if_pos hnone)

/-! ### Where trap entry stops (60_exceptions.md R200, R206, R207) -/

/-- Where a word write stops depends on the parameters alone, not on what was written before. -/
theorem writeWord_stopsWith_of_cfg_eq (hcfg : t.cfg = s.cfg) (a v : Word) :
    StopsWith (writeWord s a v) (writeWord t a v) := by
  unfold writeWord StopsWith
  rw [hcfg]
  split_ifs <;> simp

/-- The second push, where the first can be made. -/
theorem trapEntry_stopsWith_push_flagWord (hpush : writeWord s (s.sp - 2#16) s.pc = .next t) :
    StopsWith (writeWord s (s.sp - 4#16) s.flagWord) (trapEntry h s) := by
  have hcfg : t.cfg = s.cfg := by obtain ⟨-, -, rfl⟩ := writeWord_eq_next.1 hpush; rfl
  exact .second hpush ((writeWord_stopsWith_of_cfg_eq hcfg _ _).trans (.first _ _))

/-- The handler's address, where both pushes can be made. -/
theorem trapEntry_stopsWith_handlerAddress (hpush : writeWord s (s.sp - 2#16) s.pc = .next t)
    (hpush' : writeWord s (s.sp - 4#16) s.flagWord = .next t') :
    StopsWith (handlerAddress s h) (trapEntry h s) := by
  obtain ⟨haligned, hwritable, -⟩ := writeWord_eq_next.1 hpush'
  obtain ⟨-, -, rfl⟩ := writeWord_eq_next.1 hpush
  exact .second hpush (.second (writeWord_eq_next.2 ⟨haligned, hwritable, rfl⟩) (.first _ _))

/-- Settles O58: the four are trap entries, and a trap entry stops with the first of its accesses that does. -/
theorem trapEntryStops : Obligations.TrapEntryStops := by
  intro s h x hx
  obtain rfl : x = trapEntry h s := by
    obtain rfl | ⟨rfl, rfl⟩ | ⟨u, hrun, hreq, rfl, rfl⟩ | ⟨u, hhalt, hwake, hreq, rfl, rfl⟩ := hx
    · rfl
    · rfl
    · exact step_of_running_accepted hrun hreq
    · exact step_of_halted_accepted hhalt hwake hreq
  obtain ⟨hfault, hrefused⟩ : StopsWith (writeWord s (s.sp - 2#16) s.pc) (trapEntry h s) := .first _ _
  refine ⟨hfault, hrefused, fun t r hpush => (trapEntry_stopsWith_push_flagWord hpush).1 r, ?_⟩
  rintro t t' a hpush hpush' rfl
  exact trapEntry_stopsWith_handlerAddress (h := .slot a) hpush hpush'

end Sys2Proof.Machine
end

section
/-! Divisions under `DIV_FAULT = result` (statement O28) and the state counts (statement O57). -/

namespace Sys2Proof.Machine

variable {s : State}

/-! ### Division under `DIV_FAULT = result` (92_eei_decisions.md D17) -/

/-- Every division answers, with or without a quotient. -/
theorem exists_divide_of_result {c : Config} (h : c.divFault = .result) (p : Int) (b : Word) :
    ∃ q, divide c p b = .next q := by
  by_cases hopen : b = 0#16 ∨ fits16 c (quotOf c p (val16 c b)) = false
  · exact ⟨none, divide_eq_next.2 (.inr ⟨hopen, h, rfl⟩)⟩
  · obtain ⟨hb, hfits⟩ := not_or.1 hopen
    exact ⟨_, divide_eq_next.2 (.inl ⟨hb, Bool.eq_true_of_not_eq_false hfits, rfl⟩)⟩

/-- Settles O28: the division answers, and the registers and the flags are written with what it answers. -/
theorem divisionRunsUnderResult : Obligations.DivisionRunsUnderResult := by
  intro s rd ea b hresult hb
  obtain ⟨q, hq⟩ := exists_divide_of_result hresult (val16 s.cfg (s.reg rd)) b
  refine ⟨⟨_, _, _, (exec_div_of_opval rd hb).trans (andThen_of_eq_next hq _)⟩,
    ⟨_, _, _, (exec_mod_of_opval rd hb).trans (andThen_of_eq_next hq _)⟩, fun heven => ?_⟩
  obtain ⟨ql, hql⟩ := exists_divide_of_result hresult (val32 s.cfg (pairValue s rd)) b
  exact ⟨_, _, _, _, (exec_divl_of_opval heven hb).trans (andThen_of_eq_next hql _)⟩

/-! ### The state counts (70_reset_and_hazards.md R236) -/

theorem shiftStates_of_opval {ea : Operand} {n : Word} (hn : opval s ea = .next n) :
    shiftStates s ea = .next (operandStates 8 6 6 5 7 ea + n.toNat) :=
  andThen_of_eq_next hn _

/-- Settles O57: each row of the table is the row of the model, and a shift adds its count to its row. -/
theorem stateCountDataDependence : Obligations.StateCountDataDependence := by
  rintro s rd rx rs w d4 i4 j _ rfl
  refine ⟨fun p hp => ?_, fun k hk q hq n hn => ?_, rfl, fun p hp => ?_, rfl, rfl, fun p hp => ?_⟩
  · simp only [List.mem_cons, List.not_mem_nil, or_false] at hp
    obtain rfl | rfl | rfl | rfl | rfl | rfl | rfl | rfl | rfl | rfl | rfl | rfl | rfl := hp
    all_goals rfl
  · have hcount : stateCount (k rd q.1) s = shiftStates s q.1 := by
      simp only [List.mem_cons, List.not_mem_nil, or_false] at hk
      obtain rfl | rfl | rfl | rfl := hk
      all_goals rfl
    have hrow : q.2 = operandStates 8 6 6 5 7 q.1 := by
      simp only [List.zip_cons_cons, List.zip_nil_left, List.mem_cons, List.not_mem_nil, or_false] at hq
      obtain rfl | rfl | rfl | rfl | rfl | rfl | rfl | rfl := hq
      all_goals rfl
    rw [hcount, shiftStates_of_opval hn, hrow]
  · simp only [List.mem_cons, List.not_mem_nil, or_false] at hp
    obtain rfl | rfl | rfl | rfl | rfl | rfl | rfl | rfl | rfl | rfl | rfl | rfl | rfl | rfl := hp
    all_goals rfl
  · simp only [List.mem_cons, List.not_mem_nil, or_false] at hp
    obtain rfl | rfl | rfl | rfl | rfl | rfl | rfl | rfl | rfl | rfl | rfl | rfl := hp
    all_goals rfl

end Sys2Proof.Machine
end
